-- ==== Sys2Proof/Word.lean ====
section
/-! DEFINITION. The words of `scanline_renderer`: the byte, the output symbol and the symbol triple. -/

namespace Sys2Proof

/-- A bitmap byte: the only access width of the block (20_memory.md R67, R70). -/
abbrev Byte := BitVec 8

/-- An output symbol. The spec gives it no width and no meaning (00_scope.md R9: "an opaque type of output
symbols, width `SYM_BITS`"), and nothing in the block computes with one, so it is a plain code; the width is a
bound in `Config.wf`. DESIGN CHOICE, log 3 (safe). -/
abbrev Sym := Nat

/-- One symbol per channel at one position of a line (00_scope.md R16, 43_lut_indexer.md R191). -/
structure Triple where
  s0 : Sym
  s1 : Sym
  s2 : Sym
  deriving DecidableEq, Repr, Inhabited

end Sys2Proof
end

