-- ==== Sys2Proof/Config.lean ====
section
/-! DEFINITION. The configuration: the constants of 00_scope.md R7, the parameters of R8 and R9, and the free
values. A machine's configuration is the plain-data record `Config`, which State carries and no step writes. -/

namespace Sys2Proof

/-- `MONO_BLEED_MODE`, `HELD` or `EVERY` (00_scope.md R8). -/
inductive BleedMode where
  | held
  | every
  deriving DecidableEq, Repr

/-- The type of a parameter whose legal range is "fixed" (00_scope.md R8): it holds the one legal value (log 23). -/
abbrev Fixed {α : Type} (a : α) : Type := { x : α // x = a }

/-- The only value of a fixed parameter. -/
abbrev fixedAt {α : Type} (a : α) : Fixed a := ⟨a, rfl⟩

/-- The parameters a model takes as configuration fields or as arguments (00_scope.md R8, R9). -/
structure Config where
  /-- `NBUF`, the number of output buffers (R9). -/
  nbuf : Nat
  /-- `MONO_LOAD_LIMIT` (R8). -/
  monoLoadLimit : Nat
  /-- `MONO_BLEED_MODE` (R8). -/
  monoBleedMode : BleedMode
  /-- `CSEED_SHIFT` (R8). -/
  cseedShift : Fixed 15
  /-- `CMERGE_SHIFT` (R8). -/
  cmergeShift : Fixed 1
  /-- `CTX_HI` (R8). -/
  ctxHi : Fixed 31
  /-- `CTX_LO` (R8). -/
  ctxLo : Fixed 24
  /-- `ODD_INIT` (R8). -/
  oddInit : Fixed false
  /-- `MIXED_SPLIT` (R8), the number of graphics lines of a mixed frame. -/
  mixedSplit : Fixed (160 : BitVec 8)
  /-- `DOTPAT_C`: 256 entries of 14 bits (10_state.md R45). -/
  dotpatC : Vector (BitVec 14) 256
  /-- `DOTPAT_M`: 256 entries of 14 bits (10_state.md R45). -/
  dotpatM : Vector (BitVec 14) 256
  /-- `CLUT`: 512 triples (10_state.md R44). -/
  clut : Vector Triple 512
  /-- `MLUT`: 4 triples (10_state.md R44). -/
  mlut : Vector Triple 4
  /-- `SYM_BITS`, the width of a symbol (R9). -/
  symBits : Nat
  /-- `PAGE1_BASE`, which no rule reads (20_memory.md R61). -/
  page1Base : Nat
  /-- `PAGE2_BASE`, which no rule reads (20_memory.md R61). -/
  page2Base : Nat
  deriving DecidableEq, Repr

/-- Every symbol of a triple fits the symbol width. -/
def Triple.fits (bits : Nat) (t : Triple) : Bool :=
  decide (t.s0 < 2 ^ bits) && decide (t.s1 < 2 ^ bits) && decide (t.s2 < 2 ^ bits)

/-- The legal ranges of 00_scope.md R8 and R9; those of the fixed parameters are their types. -/
def Config.wf (c : Config) : Bool :=
  decide (1 ≤ c.nbuf) && decide (c.monoLoadLimit ≤ 18) &&
    c.clut.toList.all (Triple.fits c.symBits) && c.mlut.toList.all (Triple.fits c.symBits)

/-! The constants of 00_scope.md R7. -/

/-- `PAGE_BYTES`. -/
@[simp] def Config.pageBytes : Nat := 8192
/-- `NPAGES`. -/
@[simp] def Config.npages : Nat := 2
/-- `LINES_FULL`. -/
@[simp] def Config.linesFull : BitVec 8 := 192
/-- `LINES_MIXED_GFX`. -/
@[simp] def Config.linesMixedGfx : BitVec 8 := 160
/-- `BYTES_PER_LINE`. -/
@[simp] def Config.bytesPerLine : Nat := 40
/-- `SYMS_PER_LINE`. -/
@[simp] def Config.symsPerLine : Nat := 280
/-- What a bitmap byte that nothing has written reads as. DESIGN CHOICE, log 5 (unsafe): the spec gives the
bitmap no power-on contents (70_reset_and_hazards.md R311). -/
@[simp] def Config.unwritten : Byte := 0

/-! Free values and open parameters: constants without a body, so that nothing can be proved of their values. -/

/-- The contents of an output buffer after a reset: "unspecified: any value" (70_reset_and_hazards.md R310).
Applied to the number of the reset, the buffer, the channel and the position (log 6). -/
opaque Config.freeSym : Nat → Nat → Nat → Nat → Sym

/-- `NBUF - 1` of the machine behind `State.reset` (00_scope.md R9: a natural number ≥ 1; log 2). -/
opaque Config.openNbufPred : Nat
/-- `SYM_BITS` of the machine behind `State.reset` (log 2). -/
opaque Config.openSymBits : Nat
/-- The color table of the machine behind `State.reset`, before it is cut to the symbol width (log 2). -/
opaque Config.openClut : Vector Triple 512
/-- The mono table of the machine behind `State.reset`, before it is cut to the symbol width (log 2). -/
opaque Config.openMlut : Vector Triple 4
/-- `PAGE1_BASE` of the machine behind `State.reset` (log 2). -/
opaque Config.openPage1Base : Nat
/-- `PAGE2_BASE` of the machine behind `State.reset` (log 2). -/
opaque Config.openPage2Base : Nat

end Sys2Proof
end

