-- ==== Sys2Proof/Machine/Tables.lean ====
section
/-! DEFINITION. The default dot-pattern tables (42_dot_window_decoder.md R150, R151), the lookups of the four
tables, and the configuration of the machine behind `State.reset`. -/

namespace Sys2Proof.Machine

/-- `d(b)`: bits (13-2k) and (12-2k) equal to `b[k]`, for k = 0..6 (R150). -/
def pixelsDoubled (b : Byte) : BitVec 14 :=
  (List.range 7).foldl (fun v k => if b.getLsbD k then v ||| (0b11#14 <<< (12 - 2 * k)) else v) 0#14

/-- The default `DOTPAT_C` (R150): a byte with bit 7 set is delayed by one dot bit.
PRESUMED, log 24. -/
def defaultDotpatC (b : Byte) : BitVec 14 :=
  if b.getLsbD 7 then pixelsDoubled b >>> 1 else pixelsDoubled b

/-- `rev14(p)[t] = p[13-t]` (R151). -/
def rev14 (p : BitVec 14) : BitVec 14 :=
  (List.range 14).foldl (fun v t => if p.getLsbD (13 - t) then v ||| (1#14 <<< t) else v) 0#14

/-- The default `DOTPAT_M`, the bit reversal of `DOTPAT_C` (R151). -/
def defaultDotpatM (b : Byte) : BitVec 14 := rev14 (defaultDotpatC b)

/-- The table of `n` entries whose entry at `k` is `f k`. -/
def tableOf {α : Type} (n : Nat) (f : Nat → α) : Vector α n := ⟨⟨(List.range n).map f⟩, by simp⟩

/-- A table of 256 patterns from the function that fills it. -/
def patternTable (f : Byte → BitVec 14) : Vector (BitVec 14) 256 := tableOf 256 (fun n => f (BitVec.ofNat 8 n))

/-- `DOTPAT_C(b)` of a configuration. -/
def dotpatC (c : Config) (b : Byte) : BitVec 14 := c.dotpatC.get b.toFin

/-- `DOTPAT_M(b)` of a configuration. -/
def dotpatM (c : Config) (b : Byte) : BitVec 14 := c.dotpatM.get b.toFin

/-- `CLUT(idx)`: every 9-bit index names an entry (43_lut_indexer.md R191, R196). -/
def clut (c : Config) (idx : BitVec 9) : Triple := c.clut.get idx.toFin

/-- `MLUT(idx)`: every 2-bit index names an entry (43_lut_indexer.md R194, R196). -/
def mlut (c : Config) (idx : BitVec 2) : Triple := c.mlut.get idx.toFin

/-- A triple cut to a symbol width. -/
def cutTriple (bits : Nat) (t : Triple) : Triple := ⟨t.s0 % 2 ^ bits, t.s1 % 2 ^ bits, t.s2 % 2 ^ bits⟩

/-- The configuration of the machine behind `State.reset`: the values 00_scope.md R8 takes, and open constants for
the parameters R9 leaves open (log 2). -/
def defaultConfig : Config where
  nbuf := Config.openNbufPred + 1
  monoLoadLimit := 18
  monoBleedMode := .held
  cseedShift := fixedAt 15
  cmergeShift := fixedAt 1
  ctxHi := fixedAt 31
  ctxLo := fixedAt 24
  oddInit := fixedAt false
  mixedSplit := fixedAt 160
  dotpatC := patternTable defaultDotpatC
  dotpatM := patternTable defaultDotpatM
  clut := Config.openClut.map (cutTriple Config.openSymBits)
  mlut := Config.openMlut.map (cutTriple Config.openSymBits)
  symBits := Config.openSymBits
  page1Base := Config.openPage1Base
  page2Base := Config.openPage2Base

end Sys2Proof.Machine
end

