-- ==== Sys2Proof/Syntax.lean ====
section
/-! DEFINITION. The instructions: every row of spec/opcode_table.json is a constructor of `Instr`. The host's
commands (`Cmd`) and the FSM's states (`St`) are the two formats of 30_encoding.md R90; `Instr` is their sum. -/

namespace Sys2Proof

/-- The FSM states of 30_encoding.md R101. The unused codes 0x16 to 0x1E are left out, as R102 advises (log 11). -/
inductive St where
  | idle | fStart | fNext | fText
  | lPsel | lMap | lAcq | lMode
  | cSeed | cFetch | cBleed | cMerge | cEmit | cShift
  | qMap | qPsel
  | mFetch | mInject | mMerge | mEmit | mDrain
  | lSubmit | fault
  deriving DecidableEq, Repr

/-- The host commands of 30_encoding.md R93. The line operand is `IMM8` as the word holds it (R92). -/
inductive Cmd where
  | nop
  | frame
  | line (n : BitVec 8)
  | mapq (n : BitVec 8)
  | pselq
  deriving DecidableEq, Repr

/-- The block's instructions: the five host commands, performed by the DECODE step that accepts them, and the
micro-operations that the FSM states name (30_encoding.md R93, R101; 00_scope.md R16). -/
inductive Instr where
  | nop
  | frame
  | line (n : BitVec 8)
  | mapq (n : BitVec 8)
  | pselq
  | idleDecode
  | fStart
  | fNext
  | fText
  | lPsel
  | lMap
  | lAcq
  | lMode
  | cSeed
  | cFetch
  | cBleed
  | cMerge
  | cEmit
  | cShift
  | qMap
  | qPsel
  | mFetch
  | mInject
  | mMerge
  | mEmit
  | mDrain
  | lSubmit
  | faultHalt
  deriving DecidableEq, Repr

/-- The instruction a command is. -/
def Cmd.toInstr : Cmd → Instr
  | .nop => .nop
  | .frame => .frame
  | .line n => .line n
  | .mapq n => .mapq n
  | .pselq => .pselq

/-- The micro-operation an FSM state names (30_encoding.md R100: "the one that `ST` names"). -/
def St.uop : St → Instr
  | .idle => .idleDecode
  | .fStart => .fStart
  | .fNext => .fNext
  | .fText => .fText
  | .lPsel => .lPsel
  | .lMap => .lMap
  | .lAcq => .lAcq
  | .lMode => .lMode
  | .cSeed => .cSeed
  | .cFetch => .cFetch
  | .cBleed => .cBleed
  | .cMerge => .cMerge
  | .cEmit => .cEmit
  | .cShift => .cShift
  | .qMap => .qMap
  | .qPsel => .qPsel
  | .mFetch => .mFetch
  | .mInject => .mInject
  | .mMerge => .mMerge
  | .mEmit => .mEmit
  | .mDrain => .mDrain
  | .lSubmit => .lSubmit
  | .fault => .faultHalt

/-- An encoded instruction in one of the two formats of 30_encoding.md R90. -/
inductive Encoded where
  | cmd16 (w : BitVec 16)
  | uop5 (c : BitVec 5)
  deriving DecidableEq, Repr

/-- The fault codes of 60_exceptions.md R281. -/
inductive FaultCode where
  /-- A command word the block refuses (30_encoding.md R94). -/
  | illegalCmd
  /-- A line index of 192 or more in `LINE` or `MAPQ` (30_encoding.md R95). -/
  | lineRange
  /-- A bitmap offset of 8192 or more (20_memory.md R62). -/
  | addrRange
  /-- A buffer position of 280 or more (20_memory.md R66). -/
  | indexRange
  /-- A buffer the renderer does not hold (20_memory.md R66, 44_scanline_producer.md R216). -/
  | bufOwnership
  /-- A submit with a symbol count other than 280 (44_scanline_producer.md R216). -/
  | symCount
  deriving DecidableEq, Repr

end Sys2Proof
end

