-- ==== Sys2Proof/Machine/State.lean ====
section
/-! DEFINITION. The state of the machine: everything the spec gives it (10_state.md), as plain data, with the
configuration it takes and the schedule of agents; the reasons a step stops; the state after reset. -/

namespace Sys2Proof.Machine

/-- The ownership of an output buffer (10_state.md R46). -/
inductive Own where
  | free
  | held
  | transport
  deriving DecidableEq, Repr

/-- The contents of one output buffer: three channel arrays of 280 symbols (10_state.md R46). -/
structure LineBuf where
  ch0 : Vector Sym 280
  ch1 : Vector Sym 280
  ch2 : Vector Sym 280
  deriving DecidableEq, Repr

/-- The bitmap space: cells at address `p * 8192 + a` for offset `a` of page `p` (20_memory.md R60, R61). -/
abbrev Memory := List Host.Cell

/-- The observable events of 10_state.md R48. -/
inductive Event where
  | accept (w : BitVec 16)
  | read (p : BitVec 1) (a : Nat) (v : Byte)
  | acquire (b : Nat)
  | submit (b : Nat) (line : BitVec 8) (mono : Bool) (ch0 ch1 ch2 : Vector Sym 280)
  | textReq
  | textDone
  | fault (code : BitVec 4) (st : BitVec 5) (line : BitVec 8)
  deriving DecidableEq, Repr

/-- Which agent moves, and its action (00_scope.md R14; 60_exceptions.md R296; 70_reset_and_hazards.md R312). -/
inductive Agent where
  /-- The renderer performs the micro-operation `ST` names. -/
  | renderer
  /-- The host issues a command word. -/
  | hostIssue (w : BitVec 16)
  /-- The host reads `RESULT`. -/
  | hostReadResult
  /-- The writer writes one bitmap byte. -/
  | writerByte (p : BitVec 1) (a : BitVec 13) (v : Byte)
  /-- The writer drives the mode inputs. -/
  | writerMode (m : BitVec 4)
  /-- The transport reads a buffer's contents. -/
  | transportRead (b : Nat)
  /-- The transport releases a buffer. -/
  | transportRelease (b : Nat)
  /-- The text agent drives `TXT_ACK`. -/
  | textAck (v : Bool)
  /-- The system is reset. -/
  | reset
  deriving DecidableEq, Repr

/-- The machine never stops with a fault: every fault the spec names is a fault ENTRY, a next state
(60_exceptions.md R283), and every hold leaves the state as it is (R290). So there is no reason to list, and a
claim that a step does not fault holds by the type (log 18, safe). -/
inductive Fault where
  deriving DecidableEq, Repr

/-- The reasons a step has no meaning. Each is safe: the model stops where the spec excludes the case. -/
inductive Refusal where
  /-- Raised by an instruction that has no meaning yet. No arm of `exec` raises it. Safe. -/
  | notModelled (mnemonic : String)
  /-- Raised by the host agent that issues a word while `CMD_VALID = 1` (60_exceptions.md R296 duty 1;
  93_implementation_defined.md S3 "refuse"). Safe. -/
  | hostIssueWhilePending
  /-- Raised by the host agent that reads `RESULT` before its query is complete (60_exceptions.md R296 duty 1). Safe. -/
  | resultReadTooEarly
  /-- Raised by the transport agent that touches a buffer it does not own (60_exceptions.md R296 duty 2;
  93_implementation_defined.md S11 "refuse"). Safe. -/
  | bufferNotTransports
  /-- Raised by the text agent that raises `TXT_ACK` with no request or lowers it during one (60_exceptions.md
  R296 duty 3). Safe. -/
  | textHandshakeBroken
  deriving DecidableEq, Repr

/-- Everything the spec gives the machine. The last three fields are the model's own (logs 1, 6, 7). -/
structure State where
  /-- `ST` (10_state.md R36). -/
  st : St
  /-- `W` (R21). -/
  w : BitVec 32
  /-- `ODD` (R22). -/
  odd : Bool
  /-- `DOTC` (R23). -/
  dotc : BitVec 6
  /-- `LASTDOT` (R24). -/
  lastdot : Bool
  /-- `BYTE` (R25). -/
  byte : Byte
  /-- `I` (R26). -/
  i : BitVec 6
  /-- `K` (R27). -/
  k : BitVec 3
  /-- `J` (R28). -/
  j : BitVec 9
  /-- `LINE` (R29). -/
  line : BitVec 8
  /-- `OFS` (R30). -/
  ofs : BitVec 13
  /-- `PSEL` (R31). -/
  psel : BitVec 1
  /-- `MONO_L` (R32). -/
  monoL : Bool
  /-- `MIXED_L` (R33). -/
  mixedL : Bool
  /-- `NL` (R33). -/
  nl : BitVec 8
  /-- `RET` (R34). -/
  ret : Bool
  /-- `BUFID` (R35). -/
  bufid : Nat
  /-- `RESULT` (R37). -/
  result : BitVec 16
  /-- `FVALID` (R38). -/
  fvalid : Bool
  /-- `FCODE` (R38). -/
  fcode : BitVec 4
  /-- `FST` (R38). -/
  fst : BitVec 5
  /-- `FLINE` (R38). -/
  fline : BitVec 8
  /-- `MODE` (R40), driven by the environment. -/
  mode : BitVec 4
  /-- `CMD` (R42). -/
  cmd : BitVec 16
  /-- `CMD_VALID` (R42). -/
  cmdValid : Bool
  /-- `TXT_REQ` (R43). -/
  txtReq : Bool
  /-- `TXT_ACK` (R43), driven by the environment. -/
  txtAck : Bool
  /-- `OWN[b]` for b in 0..NBUF-1 (R46). -/
  own : List Own
  /-- `BUF[b]` for b in 0..NBUF-1 (R46). -/
  buf : List LineBuf
  /-- The bitmap space (20_memory.md R60), owned by the environment. -/
  bitmap : Memory
  /-- The observable history, oldest event first (R48). -/
  history : List Event
  /-- The configuration (R20), which no step writes. -/
  cfg : Config
  /-- Which agents move next, the first first; when it is empty the renderer moves. -/
  schedule : List Agent
  /-- How many resets there have been; it numbers the free values of the buffers. -/
  resets : Nat
  deriving DecidableEq, Repr

/-- The contents of buffer `b` after reset `n`: free values (70_reset_and_hazards.md R310, log 6). -/
def LineBuf.any (n b : Nat) : LineBuf where
  ch0 := tableOf 280 (Config.freeSym n b 0)
  ch1 := tableOf 280 (Config.freeSym n b 1)
  ch2 := tableOf 280 (Config.freeSym n b 2)

/-- The buffers `b`, `b + 1`, … of a machine after reset `n`, as many as the first argument says. -/
def buffersAny (n : Nat) : Nat → Nat → List LineBuf
  | 0, _ => []
  | m + 1, b => LineBuf.any n b :: buffersAny n m (b + 1)

/-- The machine with configuration `c` right after power-on reset (70_reset_and_hazards.md R310, R311). -/
def State.resetWith (c : Config) : State where
  st := .idle
  w := 0
  odd := false
  dotc := 0
  lastdot := false
  byte := 0
  i := 0
  k := 0
  j := 0
  line := 0
  ofs := 0
  psel := 0
  monoL := false
  mixedL := false
  nl := 192
  ret := false
  bufid := 0
  result := 0
  fvalid := false
  fcode := 0
  fst := 0
  fline := 0
  mode := 0
  cmd := 0
  cmdValid := false
  txtReq := false
  txtAck := false
  own := List.replicate c.nbuf .free
  buf := buffersAny 0 c.nbuf 0
  bitmap := []
  history := []
  cfg := c
  schedule := []
  resets := 0

/-- The machine right after reset, with the default configuration (70_reset_and_hazards.md R310). -/
def State.reset : State := State.resetWith defaultConfig

end Sys2Proof.Machine
end

