-- ==== Sys2Proof/Machine/Flags.lean ====
section
/-! DEFINITION. The block's one flag, `ODD` (10_state.md R22, R50). There are no condition codes. -/

namespace Sys2Proof.Machine

/-- `ODD` at the start of a line: `ODD_INIT` (44_scanline_producer.md R213). -/
def oddAtLineStart (c : Config) : Bool := c.oddInit.val

/-- `ODD ^ 1`: the flag after a consumed dot group (42_dot_window_decoder.md R156). -/
def oddAfterGroup (odd : Bool) : Bool := !odd

end Sys2Proof.Machine
end

