-- ==== Sys2Proof/Machine/Memory.lean ====
section
/-! DEFINITION. The bitmap space as a canonical list of cells (20_memory.md R60 to R62). -/

namespace Sys2Proof.Machine

/-- The list address of offset `a` of page `p` (20_memory.md R61: the block addresses a page only by `(p, a)`). -/
def cellAddr (p : BitVec 1) (a : Nat) : Nat := p.toNat * Config.pageBytes + a

/-- The byte at a list address. -/
def Memory.read : Memory → Nat → Byte
  | [], _ => Config.unwritten
  | (a, v) :: m, x => if a = x then v else Memory.read m x

/-- The memory with the byte at a list address replaced, in canonical form. -/
def Memory.write : Memory → Nat → Byte → Memory
  | [], x, v => if v = Config.unwritten then [] else [(x, v)]
  | (a, b) :: m, x, v =>
    if x < a then (if v = Config.unwritten then (a, b) :: m else (x, v) :: (a, b) :: m)
    else if x = a then (if v = Config.unwritten then m else (x, v) :: m)
    else (a, b) :: Memory.write m x v

/-- The canonical form from address `lo` on: addresses strictly rising inside the two pages, no cell that holds
what an unlisted address reads as. -/
def Memory.wfFrom : Nat → Memory → Bool
  | _, [] => true
  | lo, (a, v) :: m =>
    decide (lo ≤ a) && decide (a < Config.npages * Config.pageBytes) && decide (v ≠ Config.unwritten) &&
      Memory.wfFrom (a + 1) m

/-- The canonical form. -/
def Memory.wf (m : Memory) : Bool := Memory.wfFrom 0 m

end Sys2Proof.Machine
end

