-- ==== Sys2Proof/WellFormed.lean ====
section
/-! DEFINITION. Well-formed instructions: the legal line range of `LINE` and `MAPQ`. -/

namespace Sys2Proof

/-- `LINE` and `MAPQ` take a line of 0..191 (30_encoding.md R93); no other instruction has an operand. An
instruction that fails the check still has a word and a meaning: it takes the fault `LINE_RANGE` (R95). -/
def Instr.wellFormed : Instr → Bool
  | .line n => decide (n.toNat < 192)
  | .mapq n => decide (n.toNat < 192)
  | .nop => true
  | .frame => true
  | .pselq => true
  | .idleDecode => true
  | .fStart => true
  | .fNext => true
  | .fText => true
  | .lPsel => true
  | .lMap => true
  | .lAcq => true
  | .lMode => true
  | .cSeed => true
  | .cFetch => true
  | .cBleed => true
  | .cMerge => true
  | .cEmit => true
  | .cShift => true
  | .qMap => true
  | .qPsel => true
  | .mFetch => true
  | .mInject => true
  | .mMerge => true
  | .mEmit => true
  | .mDrain => true
  | .lSubmit => true
  | .faultHalt => true

end Sys2Proof
end

