-- ==== Sys2Proof/Decode.lean ====
section
/-! DEFINITION. The decoder and the encoder of both formats, written from 30_encoding.md. -/

namespace Sys2Proof

/-! ## The fields of a command word (R91) -/

/-- `OPC`, bits 15:12. -/
def opcOf (w : BitVec 16) : BitVec 4 := w.extractLsb' 12 4
/-- `RSV`, bits 11:8. -/
def rsvOf (w : BitVec 16) : BitVec 4 := w.extractLsb' 8 4
/-- `IMM8`, bits 7:0. -/
def imm8Of (w : BitVec 16) : BitVec 8 := w.extractLsb' 0 8

/-! ## Decoding -/

/-- The command a word's fields name (R93), or none for an illegal word (R94). A line operand is read as it
stands: "`LINE` and `MAPQ` with `IMM8` in 0xC0..0xFF are well-formed words" (R93). -/
def readCmd (w : BitVec 16) : Option Cmd :=
  if rsvOf w ≠ 0 then none
  else if opcOf w = 0x0 then (if imm8Of w = 0 then some .nop else none)
  else if opcOf w = 0x1 then (if imm8Of w = 0 then some .frame else none)
  else if opcOf w = 0x2 then some (.line (imm8Of w))
  else if opcOf w = 0x3 then some (.mapq (imm8Of w))
  else if opcOf w = 0x4 then (if imm8Of w = 0 then some .pselq else none)
  else none

/-- `decodeCmd` of R95: illegal words are `ILLEGAL_CMD`, then a line out of range is `LINE_RANGE`. -/
def decodeCmd (w : BitVec 16) : Except FaultCode Cmd :=
  match readCmd w with
  | none => .error .illegalCmd
  | some c => if c.toInstr.wellFormed then .ok c else .error .lineRange

/-- The state a `UOP5` code stands for (R101), or none for the unused codes 0x16 to 0x1E (R102). -/
def St.ofCode (c : BitVec 5) : Option St :=
  match c.toNat with
  | 0x00 => some .idle
  | 0x01 => some .fStart
  | 0x02 => some .fNext
  | 0x03 => some .fText
  | 0x04 => some .lPsel
  | 0x05 => some .lMap
  | 0x06 => some .lAcq
  | 0x07 => some .lMode
  | 0x08 => some .cSeed
  | 0x09 => some .cFetch
  | 0x0A => some .cBleed
  | 0x0B => some .cMerge
  | 0x0C => some .cEmit
  | 0x0D => some .cShift
  | 0x0E => some .qMap
  | 0x0F => some .qPsel
  | 0x10 => some .mFetch
  | 0x11 => some .mInject
  | 0x12 => some .mMerge
  | 0x13 => some .mEmit
  | 0x14 => some .mDrain
  | 0x15 => some .lSubmit
  | 0x1F => some .fault
  | _ => none

/-- Why a word decodes to no instruction. -/
inductive DecodeError where
  /-- A reserved or malformed command word (R94). -/
  | illegalCmd
  /-- An unused `UOP5` code (R102). -/
  | unusedState
  deriving DecidableEq, Repr

/-- The decoder, total on every word of both formats, rejecting by name. -/
def decode : Encoded → Except DecodeError Instr
  | .cmd16 w =>
    match readCmd w with
    | some c => .ok c.toInstr
    | none => .error .illegalCmd
  | .uop5 c =>
    match St.ofCode c with
    | some st => .ok st.uop
    | none => .error .unusedState

/-- The instruction the decoder reads from a table row's bits: a `UOP5` code stands in one byte whose bits 7:5
are 0 (log 17), a `CMD16` word is 16 bits. -/
def decodeTableWord (nbits w : Nat) : Option Instr :=
  if nbits ≤ 8 then
    if w < 32 then
      match decode (.uop5 (BitVec.ofNat 5 w)) with
      | .ok i => some i
      | .error _ => none
    else none
  else if w < 65536 then
    match decode (.cmd16 (BitVec.ofNat 16 w)) with
    | .ok i => some i
    | .error _ => none
  else none

/-! ## Encoding -/

/-- The code of a state in the `UOP5` map of R101. -/
def St.code : St → BitVec 5
  | .idle => 0x00
  | .fStart => 0x01
  | .fNext => 0x02
  | .fText => 0x03
  | .lPsel => 0x04
  | .lMap => 0x05
  | .lAcq => 0x06
  | .lMode => 0x07
  | .cSeed => 0x08
  | .cFetch => 0x09
  | .cBleed => 0x0A
  | .cMerge => 0x0B
  | .cEmit => 0x0C
  | .cShift => 0x0D
  | .qMap => 0x0E
  | .qPsel => 0x0F
  | .mFetch => 0x10
  | .mInject => 0x11
  | .mMerge => 0x12
  | .mEmit => 0x13
  | .mDrain => 0x14
  | .lSubmit => 0x15
  | .fault => 0x1F

/-- A command word from its fields, `OPC`, `RSV` = 0 and `IMM8` (R91). -/
def cmdWord (opc : BitVec 4) (imm : BitVec 8) : BitVec 16 := opc ++ 0#4 ++ imm

/-- The word of an instruction (R93, R96, R101). The assembler encodes a line of 192 or more as well (R96). -/
def encode : Instr → Encoded
  | .nop => .cmd16 (cmdWord 0x0 0)
  | .frame => .cmd16 (cmdWord 0x1 0)
  | .line n => .cmd16 (cmdWord 0x2 n)
  | .mapq n => .cmd16 (cmdWord 0x3 n)
  | .pselq => .cmd16 (cmdWord 0x4 0)
  | .idleDecode => .uop5 St.idle.code
  | .fStart => .uop5 St.fStart.code
  | .fNext => .uop5 St.fNext.code
  | .fText => .uop5 St.fText.code
  | .lPsel => .uop5 St.lPsel.code
  | .lMap => .uop5 St.lMap.code
  | .lAcq => .uop5 St.lAcq.code
  | .lMode => .uop5 St.lMode.code
  | .cSeed => .uop5 St.cSeed.code
  | .cFetch => .uop5 St.cFetch.code
  | .cBleed => .uop5 St.cBleed.code
  | .cMerge => .uop5 St.cMerge.code
  | .cEmit => .uop5 St.cEmit.code
  | .cShift => .uop5 St.cShift.code
  | .qMap => .uop5 St.qMap.code
  | .qPsel => .uop5 St.qPsel.code
  | .mFetch => .uop5 St.mFetch.code
  | .mInject => .uop5 St.mInject.code
  | .mMerge => .uop5 St.mMerge.code
  | .mEmit => .uop5 St.mEmit.code
  | .mDrain => .uop5 St.mDrain.code
  | .lSubmit => .uop5 St.lSubmit.code
  | .faultHalt => .uop5 St.fault.code

/-- The 4-bit code that fault entry records (60_exceptions.md R281). -/
def FaultCode.code : FaultCode → BitVec 4
  | .illegalCmd => 1
  | .lineRange => 2
  | .addrRange => 3
  | .indexRange => 4
  | .bufOwnership => 5
  | .symCount => 6

end Sys2Proof
end

