-- ==== Sys2Proof/Machine/Operands.lean ====
section
/-! DEFINITION. Operand forms: the fields of the mode inputs, the table indices, and the views the host and the
transport have of the state. -/

namespace Sys2Proof.Machine

/-! ## The mode inputs (10_state.md R40) -/

/-- `MODE.MONO`, bit 0. -/
def State.modeMono (s : State) : Bool := s.mode.getLsbD 0
/-- `MODE.PAGE2`, bit 1. -/
def State.modePage2 (s : State) : Bool := s.mode.getLsbD 1
/-- `MODE.EXTMEM`, bit 2. -/
def State.modeExtmem (s : State) : Bool := s.mode.getLsbD 2
/-- `MODE.MIXED`, bit 3. -/
def State.modeMixed (s : State) : Bool := s.mode.getLsbD 3

/-! ## Table indices (43_lut_indexer.md R190, R193) -/

/-- The context field `W[CTX_HI:CTX_LO]`, which is `W[31:24]` (00_scope.md R8, 42_dot_window_decoder.md R152). -/
def contextField (c : Config) (w : BitVec 32) : BitVec 8 := (w.extractLsb c.ctxHi.val c.ctxLo.val).setWidth 8

/-- `CIDX = {ODD, W[31:24]}`, a wire. -/
def cidx (c : Config) (odd : Bool) (w : BitVec 32) : BitVec 9 := BitVec.ofBool odd ++ contextField c w

/-- `MIDX = W[1:0]`, a wire. -/
def midx (w : BitVec 32) : BitVec 2 := w.extractLsb' 0 2

/-! ## Views (10_state.md R37, R39; 70_reset_and_hazards.md R324, R325) -/

/-- `STATUS.BUSY`: 1 iff `ST` is neither `IDLE` nor `FAULT`. -/
def State.busy (s : State) : Bool := decide (s.st ≠ .idle) && decide (s.st ≠ .fault)

/-- `STATUS`, a view that stores nothing of its own (10_state.md R39). -/
def State.status (s : State) : BitVec 32 :=
  0#8 ++ s.fline ++ 0#3 ++ s.fst ++ s.fcode ++
    BitVec.ofBool s.cmdValid ++ BitVec.ofBool s.txtReq ++ BitVec.ofBool s.fvalid ++ BitVec.ofBool s.busy

/-- A command is complete when `STATUS.PEND = 0` and `STATUS.BUSY = 0` (70_reset_and_hazards.md R324). -/
def State.complete (s : State) : Bool := !s.cmdValid && !s.busy

/-- When the host may read `RESULT`: the command is complete and `STATUS.FAULTED = 0` (60_exceptions.md R296). -/
def State.resultReadable (s : State) : Bool := s.complete && !s.fvalid

/-- What the transport may see of buffer `b`: its contents, once it is submitted (70_reset_and_hazards.md R325). -/
def State.transportView (s : State) (b : Nat) : Option LineBuf :=
  if s.own[b]? = some .transport then s.buf[b]? else none

end Sys2Proof.Machine
end

