-- ==== Sys2Proof/Machine/Ops.lean ====
section
/-! DEFINITION. The shared operations: holding, events, fault entry and the reset that ends a fault, the bitmap
read, the buffer write, ownership, and the acceptance of a command. -/

namespace Sys2Proof.Machine

/-- The outcome type of a step. -/
abbrev Result := Host.Outcome State Fault Refusal

/-- `hold`: the step is not enabled and the state does not change (00_scope.md R13, 60_exceptions.md R290; log 8). -/
def hold (s : State) : Result := .next s

/-- `emit Event(...)` appends an event to the observable history (00_scope.md R13). -/
def State.emit (s : State) (e : Event) : State := { s with history := s.history ++ [e] }

/-! ## Faults -/

/-- `FLINE` at fault entry: the command's `IMM8` for a DECODE fault, else `LINE` (60_exceptions.md R283). -/
def State.faultLine (s : State) : BitVec 8 := if s.st = .idle then imm8Of s.cmd else s.line

/-- Fault entry (60_exceptions.md R283): what is recorded, the event, and the fixed state `FAULT`. It is applied to
the state at the start of the faulting step, so the step's own writes are discarded. -/
def raiseFault (c : FaultCode) (s : State) : State :=
  { s with
    fvalid := true
    fcode := c.code
    fst := s.st.code
    fline := s.faultLine
    st := .fault
    history := s.history ++ [.fault c.code s.st.code s.faultLine] }

/-- The end of a step that may fault: its effect, or fault entry from the state `s` it started in. -/
def settle (s : State) : Except FaultCode State → Result
  | .ok t => .next t
  | .error c => .next (raiseFault c s)

/-- The only way out of `FAULT` (60_exceptions.md R289): a system reset, which sets the block's state to the values
of 70_reset_and_hazards.md R310 and `TXT_ACK` to 0 (R313), and leaves the bitmap, `MODE` and the configuration (R311,
R314). The buffers hold new free values (log 6), the history stays (log 10), and the transport is reset too (log 25). -/
def systemReset (s : State) : State :=
  { State.resetWith s.cfg with
    mode := s.mode
    bitmap := s.bitmap
    buf := buffersAny (s.resets + 1) s.cfg.nbuf 0
    history := s.history
    schedule := s.schedule
    resets := s.resets + 1 }

/-! ## Commands -/

/-- The first part of a DECODE step (45_frame_orchestrator.md R257): the command is consumed and `Accept` emitted. -/
def acceptCmd (s : State) : State := { s with cmdValid := false, history := s.history ++ [.accept s.cmd] }

/-! ## The bitmap -/

/-- `BitmapRead(p, a)` (20_memory.md R62). -/
def bitmapRead (p : BitVec 1) (a : Nat) (s : State) : Except FaultCode (Byte × State) :=
  if a ≥ Config.pageBytes then .error .addrRange
  else
    let v := s.bitmap.read (cellAddr p a)
    .ok (v, s.emit (.read p a v))

/-- `FetchByte(I)` (41_memory_address_mapper.md R125): the synthetic byte at `I = 40`, else the byte at `OFS + I`.
The rule's domain is 0..40: that an `I` of 41..63, which no run fetches at, reads at `OFS + I` is DEDUCED (log 27). -/
def fetchByte (s : State) : Except FaultCode (Byte × State) :=
  if s.i = 40 then .ok (0, s) else bitmapRead s.psel (s.ofs.toNat + s.i.toNat) s

/-! ## The output buffers -/

/-- `CH0[j] <- t.0`, `CH1[j] <- t.1`, `CH2[j] <- t.2` (20_memory.md R66). -/
def LineBuf.put (l : LineBuf) (j : Nat) (t : Triple) : LineBuf where
  ch0 := l.ch0.setIfInBounds j t.s0
  ch1 := l.ch1.setIfInBounds j t.s1
  ch2 := l.ch2.setIfInBounds j t.s2

/-- `BufWrite(b, j, t)` (20_memory.md R66). A `b` outside 0..NBUF-1 is no `HELD` buffer (log 16). -/
def bufWrite (b j : Nat) (t : Triple) (s : State) : Except FaultCode State :=
  if s.own[b]? ≠ some .held ∨ b ≠ s.bufid then .error .bufOwnership
  else if j ≥ Config.symsPerLine then .error .indexRange
  else .ok { s with buf := s.buf.modify b (fun l => l.put j t) }

/-- The lowest `b` with `OWN[b] = FREE` (44_scanline_producer.md R212). -/
def lowestFree (own : List Own) : Option Nat := own.findIdx? (fun o => decide (o = .free))

end Sys2Proof.Machine
end

