-- ==== Sys2Proof/Machine/DotWindow.lean ====
section
/-! DEFINITION. dot_window_decoder (42_dot_window_decoder.md): the meanings of `C_SEED`, `C_BLEED`, `C_MERGE`,
`C_SHIFT`, `M_INJECT`, `M_MERGE` and `M_DRAIN`, with the next states of 44_scanline_producer.md R214 and R215. -/

namespace Sys2Proof.Machine

/-! ## Color path -/

/-- `C_SEED` (R153). -/
def execCSeed (s : State) : Result :=
  .next { s with w := (dotpatC s.cfg s.byte).setWidth 32 <<< s.cfg.cseedShift.val, i := 1, st := .cFetch }

/-- The window after the bleed: `W[14] <- W[14] | W[15]` for a delayed byte (R154). -/
def bleedWindow (byte : Byte) (w : BitVec 32) : BitVec 32 :=
  if byte.getLsbD 7 then w ||| ((w >>> 1) &&& 0x00004000) else w

/-- `C_BLEED` (R154). -/
def execCBleed (s : State) : Result :=
  .next { s with w := bleedWindow s.byte s.w, st := .cMerge }

/-- `C_MERGE` (R155). -/
def execCMerge (s : State) : Result :=
  .next { s with w := s.w ||| ((dotpatC s.cfg s.byte).setWidth 32 <<< s.cfg.cmergeShift.val), st := .cEmit }

/-- The next state of `C_SHIFT`, from `K` and `I` at the start of the step (44_scanline_producer.md R214). The table has
no row for `K = 7`, nor for `K = 6` with `I` above 40: that the first goes on like `K = 6` and the second to `L_SUBMIT`
is a DESIGN CHOICE (log 28). -/
def afterCShift (k : BitVec 3) (i : BitVec 6) : St :=
  if k.toNat < 6 then .cEmit else if i.toNat < 40 then .cFetch else .lSubmit

/-- `C_SHIFT` (R156). -/
def execCShift (s : State) : Result :=
  .next { s with
    w := s.w <<< 2
    odd := oddAfterGroup s.odd
    k := if s.k = 6 then 0 else s.k + 1
    i := if s.k = 6 then s.i + 1 else s.i
    st := afterCShift s.k s.i }

/-! ## Monochrome path -/

/-- The accumulator after the injection (R159): the highest buffered bit copied one place up, or in mode `EVERY`
the last drained bit when the accumulator is empty. -/
def injectWindow (mode : BleedMode) (byte : Byte) (w : BitVec 32) (dotc i : BitVec 6) (lastdot : Bool) : BitVec 32 :=
  if byte.getLsbD 7 then
    if dotc.toNat > 0 then w ||| ((BitVec.ofBool (w.getLsbD (dotc.toNat - 1))).setWidth 32 <<< dotc.toNat)
    else if mode = .every ∧ i.toNat > 0 then w ||| ((BitVec.ofBool lastdot).setWidth 32 <<< dotc.toNat)
    else w
  else w

/-- `M_INJECT` (R159). -/
def execMInject (s : State) : Result :=
  .next { s with w := injectWindow s.cfg.monoBleedMode s.byte s.w s.dotc s.i s.lastdot, st := .mMerge }

/-- The next state of `M_MERGE`, from `I` and `DOTC` at the end of the step (44_scanline_producer.md R215). -/
def afterMMerge (limit : Nat) (i dotc : BitVec 6) : St :=
  if i.toNat < 40 ∧ dotc.toNat ≤ limit then .mFetch else if dotc.toNat ≥ 2 then .mEmit else .lSubmit

/-- `M_MERGE` (R160). -/
def execMMerge (s : State) : Result :=
  .next { s with
    w := s.w ||| ((dotpatM s.cfg s.byte).setWidth 32 <<< s.dotc.toNat)
    dotc := s.dotc + 14
    i := s.i + 1
    st := afterMMerge s.cfg.monoLoadLimit (s.i + 1) (s.dotc + 14) }

/-- The next state of `M_DRAIN`, from `DOTC` at the end of the step and `I` (44_scanline_producer.md R215). The table has
no row for `DOTC` below 2 with `I` above 40: that it goes to `L_SUBMIT` is a DESIGN CHOICE (log 28). -/
def afterMDrain (i dotc : BitVec 6) : St :=
  if dotc.toNat ≥ 2 then .mEmit else if i.toNat < 40 then .mFetch else .lSubmit

/-- `M_DRAIN` (R161). -/
def execMDrain (s : State) : Result :=
  .next { s with
    lastdot := s.w.getLsbD 1
    w := s.w >>> 2
    dotc := s.dotc - 2
    st := afterMDrain s.i (s.dotc - 2) }

end Sys2Proof.Machine
end

