-- ==== Sys2Proof/Machine/LutIndexer.lean ====
section
/-! DEFINITION. lut_indexer (43_lut_indexer.md): the meanings of `C_EMIT` and `M_EMIT`. -/

namespace Sys2Proof.Machine

/-- Write a triple at position `J` of the held buffer, advance `J` and go to `next`. -/
def emitTriple (t : Triple) (next : St) (s : State) : Result :=
  settle s (match bufWrite s.bufid s.j.toNat t s with
    | .ok u => .ok { u with j := s.j + 1, st := next }
    | .error c => .error c)

/-- `C_EMIT` (R192; next state always `C_SHIFT`, 44_scanline_producer.md R214). -/
def execCEmit (s : State) : Result := emitTriple (clut s.cfg (cidx s.cfg s.odd s.w)) .cShift s

/-- `M_EMIT` (R195; next state always `M_DRAIN`, 44_scanline_producer.md R215). -/
def execMEmit (s : State) : Result := emitTriple (mlut s.cfg (midx s.w)) .mDrain s

end Sys2Proof.Machine
end

