-- ==== Sys2Proof/Machine/Mapper.lean ====
section
/-! DEFINITION. memory_address_mapper (41_memory_address_mapper.md): the offset function and the meanings of `MAPQ`,
`Q_MAP`, `L_MAP`, `C_FETCH` and `M_FETCH`. -/

namespace Sys2Proof.Machine

/-- `MapOffset(line)` (R120). -/
def mapOffset (line : BitVec 8) : BitVec 13 :=
  let l : BitVec 13 := line.setWidth 13
  ((l &&& 7) <<< 10) ||| ((l &&& 0x38) <<< 4) ||| ((l >>> 6) * 40)

/-- `MAPQ line`, the DECODE step of the query (R123). -/
def execMapq (n : BitVec 8) (s : State) : Result :=
  if n.toNat ≥ 192 then .next (raiseFault .lineRange (acceptCmd s))
  else .next { acceptCmd s with line := n, st := .qMap }

/-- `Q_MAP` (R122). -/
def execQMap (s : State) : Result :=
  .next { s with ofs := mapOffset s.line, result := (mapOffset s.line).setWidth 16, st := .idle }

/-- `L_MAP` (R124). -/
def execLMap (s : State) : Result :=
  .next { s with ofs := mapOffset s.line, st := .lAcq }

/-- The next state of `C_FETCH` (44_scanline_producer.md R214). -/
def afterCFetch (i : BitVec 6) : St := if i = 0 then .cSeed else .cBleed

/-- `C_FETCH` (R126). -/
def execCFetch (s : State) : Result :=
  settle s (match fetchByte s with
    | .ok (v, t) => .ok { t with byte := v, st := afterCFetch s.i }
    | .error c => .error c)

/-- `M_FETCH` (R127; next state always `M_INJECT`, 44_scanline_producer.md R215). -/
def execMFetch (s : State) : Result :=
  settle s (match fetchByte s with
    | .ok (v, t) => .ok { t with byte := v, st := .mInject }
    | .error c => .error c)

end Sys2Proof.Machine
end

