-- ==== Sys2Proof/Machine/Producer.lean ====
section
/-! DEFINITION. scanline_producer (44_scanline_producer.md): page selection and the meanings of `LINE`, `L_PSEL`,
`L_ACQ`, `L_MODE` and `L_SUBMIT`. -/

namespace Sys2Proof.Machine

/-- `PageSel(page2, ext) = page2 & ~ext` (45_frame_orchestrator.md R250). -/
def pageSel (page2 ext : Bool) : BitVec 1 := BitVec.ofBool (page2 && !ext)

/-- `LINE line`, the DECODE step of the command (R210). -/
def execLine (n : BitVec 8) (s : State) : Result :=
  if n.toNat ≥ 192 then .next (raiseFault .lineRange (acceptCmd s))
  else .next { acceptCmd s with line := n, ret := false, st := .lPsel }

/-- `L_PSEL` (R211). -/
def execLPsel (s : State) : Result :=
  .next { s with psel := pageSel s.modePage2 s.modeExtmem, st := .lMap }

/-- `L_ACQ` (R212). -/
def execLAcq (s : State) : Result :=
  match lowestFree s.own with
  | none => hold s
  | some b => .next { s with
      own := s.own.set b .held
      bufid := b
      history := s.history ++ [.acquire b]
      st := .lMode }

/-- `L_MODE` (R213). -/
def execLMode (s : State) : Result :=
  .next { s with
    monoL := s.modeMono
    w := 0
    odd := oddAtLineStart s.cfg
    dotc := 0
    lastdot := false
    i := 0
    k := 0
    j := 0
    st := if s.modeMono then .mFetch else .cFetch }

/-- The `Submit` event of the held buffer with the contents `l` (R216). -/
def submitEvent (s : State) (l : LineBuf) : Event := .submit s.bufid s.line s.monoL l.ch0 l.ch1 l.ch2

/-- `L_SUBMIT` (R216). A `BUFID` outside 0..NBUF-1 is no `HELD` buffer (log 16). -/
def execLSubmit (s : State) : Result :=
  settle s (match s.own[s.bufid]?, s.buf[s.bufid]? with
    | some .held, some l =>
      if s.j ≠ 280 then .error .symCount
      else .ok { s with
        own := s.own.set s.bufid .transport
        history := s.history ++ [submitEvent s l]
        line := if s.ret then s.line + 1 else s.line
        st := if s.ret then .fNext else .idle }
    | _, _ => .error .bufOwnership)

end Sys2Proof.Machine
end

