-- ==== Sys2Proof/Machine/Orchestrator.lean ====
section
/-! DEFINITION. frame_orchestrator (45_frame_orchestrator.md): the meanings of `PSELQ`, `Q_PSEL`, `FRAME`, `F_START`,
`F_NEXT`, `F_TEXT`, `NOP`, `IDLE`/`DECODE` and `FAULT`/`HALT`. -/

namespace Sys2Proof.Machine

/-- `NOP`, the DECODE step of the command (R256). -/
def execNop (s : State) : Result := .next { acceptCmd s with st := .idle }

/-- `FRAME`, the DECODE step of the command (R252). -/
def execFrame (s : State) : Result := .next { acceptCmd s with st := .fStart }

/-- `PSELQ`, the DECODE step of the command (R251). -/
def execPselq (s : State) : Result := .next { acceptCmd s with st := .qPsel }

/-- `Q_PSEL` (R260). -/
def execQPsel (s : State) : Result :=
  .next { s with
    psel := pageSel s.modePage2 s.modeExtmem
    result := (pageSel s.modePage2 s.modeExtmem).setWidth 16
    st := .idle }

/-- `F_START` (R253). -/
def execFStart (s : State) : Result :=
  .next { s with
    mixedL := s.modeMixed
    nl := if s.modeMixed then s.cfg.mixedSplit.val else Config.linesFull
    line := 0
    ret := true
    st := .fNext }

/-- `F_NEXT` (R254). -/
def execFNext (s : State) : Result :=
  if s.line.toNat < s.nl.toNat then .next { s with st := .lPsel }
  else if s.mixedL then
    if s.txtAck then hold s
    else .next { s with txtReq := true, history := s.history ++ [.textReq], st := .fText }
  else .next { s with st := .idle }

/-- `F_TEXT` (R255). -/
def execFText (s : State) : Result :=
  if s.txtAck then .next { s with txtReq := false, history := s.history ++ [.textDone], st := .idle }
  else hold s

/-- `IDLE`, which performs DECODE (R257): it holds without a command, and otherwise consumes the command and takes
its fault or performs it. -/
def execIdleDecode (s : State) : Result :=
  if s.cmdValid = false then hold s
  else match decodeCmd s.cmd with
    | .error c => .next (raiseFault c (acceptCmd s))
    | .ok .nop => execNop s
    | .ok .frame => execFrame s
    | .ok (.line n) => execLine n s
    | .ok (.mapq n) => execMapq n s
    | .ok .pselq => execPselq s

/-- `FAULT`, which performs HALT (R258): no renderer step is ever enabled. -/
def execFaultHalt (s : State) : Result := hold s

end Sys2Proof.Machine
end

