-- ==== Sys2Proof/Machine/Dispatch.lean ====
section
/-! DEFINITION. The dispatch: one arm per constructor of `Instr`, each one direct call of its meaning. -/

namespace Sys2Proof.Machine

/-- What instruction `i` does at state `s`. -/
def exec (i : Instr) (s : State) : Host.Outcome State Fault Refusal :=
  match i with
  | .nop => Sys2Proof.Machine.execNop s
  | .frame => Sys2Proof.Machine.execFrame s
  | .line n => Sys2Proof.Machine.execLine n s
  | .mapq n => Sys2Proof.Machine.execMapq n s
  | .pselq => Sys2Proof.Machine.execPselq s
  | .idleDecode => Sys2Proof.Machine.execIdleDecode s
  | .fStart => Sys2Proof.Machine.execFStart s
  | .fNext => Sys2Proof.Machine.execFNext s
  | .fText => Sys2Proof.Machine.execFText s
  | .lPsel => Sys2Proof.Machine.execLPsel s
  | .lMap => Sys2Proof.Machine.execLMap s
  | .lAcq => Sys2Proof.Machine.execLAcq s
  | .lMode => Sys2Proof.Machine.execLMode s
  | .cSeed => Sys2Proof.Machine.execCSeed s
  | .cFetch => Sys2Proof.Machine.execCFetch s
  | .cBleed => Sys2Proof.Machine.execCBleed s
  | .cMerge => Sys2Proof.Machine.execCMerge s
  | .cEmit => Sys2Proof.Machine.execCEmit s
  | .cShift => Sys2Proof.Machine.execCShift s
  | .qMap => Sys2Proof.Machine.execQMap s
  | .qPsel => Sys2Proof.Machine.execQPsel s
  | .mFetch => Sys2Proof.Machine.execMFetch s
  | .mInject => Sys2Proof.Machine.execMInject s
  | .mMerge => Sys2Proof.Machine.execMMerge s
  | .mEmit => Sys2Proof.Machine.execMEmit s
  | .mDrain => Sys2Proof.Machine.execMDrain s
  | .lSubmit => Sys2Proof.Machine.execLSubmit s
  | .faultHalt => Sys2Proof.Machine.execFaultHalt s

end Sys2Proof.Machine
end

