-- ==== Sys2Proof/Machine/Agents.lean ====
section
/-! DEFINITION. The steps of the five agents and of reset (00_scope.md R14, 60_exceptions.md R296). -/

namespace Sys2Proof.Machine

/-- A renderer step performs the micro-operation that `ST` names (30_encoding.md R100). -/
def rendererStep (s : State) : Result := exec s.st.uop s

/-- The host issues a word when the mailbox is empty (10_state.md R42); otherwise its duty excludes it. -/
def hostIssue (w : BitVec 16) (s : State) : Result :=
  if s.cmdValid then .refused .hostIssueWhilePending
  else .next { s with cmd := w, cmdValid := true }

/-- The host reads `RESULT` once its query is complete (60_exceptions.md R296 duty 1); a read changes nothing. -/
def hostReadResult (s : State) : Result :=
  if s.resultReadable then .next s else .refused .resultReadTooEarly

/-- The writer writes a bitmap byte at any time (60_exceptions.md R296 duty 4). -/
def writerByte (p : BitVec 1) (a : BitVec 13) (v : Byte) (s : State) : Result :=
  .next { s with bitmap := s.bitmap.write (cellAddr p a.toNat) v }

/-- The writer drives the mode inputs at any time (60_exceptions.md R296 duty 4). -/
def writerMode (m : BitVec 4) (s : State) : Result := .next { s with mode := m }

/-- The transport reads a buffer only while it owns it (70_reset_and_hazards.md R325); a read changes nothing. -/
def transportRead (b : Nat) (s : State) : Result :=
  if s.own[b]? = some .transport then .next s else .refused .bufferNotTransports

/-- The transport releases a buffer it owns, `TRANSPORT -> FREE` (10_state.md R46, 60_exceptions.md R296 duty 2). -/
def transportRelease (b : Nat) (s : State) : Result :=
  if s.own[b]? = some .transport then .next { s with own := s.own.set b .free }
  else .refused .bufferNotTransports

/-- The text agent raises `TXT_ACK` only while `TXT_REQ = 1` and lowers it only while `TXT_REQ = 0`
(60_exceptions.md R296 duty 3). -/
def textAck (v : Bool) (s : State) : Result :=
  if s.txtReq = v then .next { s with txtAck := v } else .refused .textHandshakeBroken

/-- One step of the agent that moves. -/
def agentStep (a : Agent) (s : State) : Result :=
  match a with
  | .renderer => rendererStep s
  | .hostIssue w => hostIssue w s
  | .hostReadResult => hostReadResult s
  | .writerByte p a v => writerByte p a v s
  | .writerMode m => writerMode m s
  | .transportRead b => transportRead b s
  | .transportRelease b => transportRelease b s
  | .textAck v => textAck v s
  | .reset => .next (systemReset s)

end Sys2Proof.Machine
end

