-- ==== Sys2Proof/Machine/Step.lean ====
section
/-! DEFINITION. The step, and how an instruction is placed where the next step runs it. -/

namespace Sys2Proof.Machine

/-- One step of the system: the agent at the head of the schedule moves, or the renderer when the schedule is
empty (log 7). -/
def step (s : State) : Host.Outcome State Fault Refusal :=
  match s.schedule with
  | [] => rendererStep s
  | a :: rest => agentStep a { s with schedule := rest }

/-- The state whose very next step runs the instruction of a table row: a command word stands in the mailbox of an
`IDLE` block, a micro-operation is the one `ST` names, and the renderer moves next (log 14). An unused state code
cannot be placed (log 11). -/
def State.withFetchWord (s : State) (nbits w : Nat) : State :=
  if nbits ≤ 8 then
    match St.ofCode (BitVec.ofNat 5 w) with
    | some st => { s with st := st, schedule := [] }
    | none => { s with schedule := [] }
  else { s with cmd := BitVec.ofNat 16 w, cmdValid := true, st := .idle, schedule := [] }

end Sys2Proof.Machine
end

