-- ==== Sys2Proof/Machine/Reference.lean ====
section
/-! DEFINITION. The pure reference functions of a line (44_scanline_producer.md R217, R218), the closed forms of the
two dot streams (42_dot_window_decoder.md R157, R162), and the identity test tables (43_lut_indexer.md R199). No
step uses them: claims compare the steps with them. -/

namespace Sys2Proof.Machine

/-! ## `RenderColorLine` (R217) -/

/-- The variables of `RenderColorLine`. -/
structure ColorRun where
  w : BitVec 32
  odd : Bool
  out : List Triple
  deriving DecidableEq, Repr

/-- Before the first round: `W <- zext_32(DOTPAT_C(B[0])) << CSEED_SHIFT`, `odd <- ODD_INIT`, `out <- []`. -/
def colorStart (c : Config) (b0 : Byte) : ColorRun := ⟨(dotpatC c b0).setWidth 32 <<< c.cseedShift.val, c.oddInit.val, []⟩

/-- The bleed and merge of one round. -/
def colorLoad (c : Config) (b : Byte) (r : ColorRun) : ColorRun :=
  let w := if b.getLsbD 7 then r.w ||| ((r.w >>> 1) &&& 0x00004000) else r.w
  { r with w := w ||| ((dotpatC c b).setWidth 32 <<< c.cmergeShift.val) }

/-- One pass of `repeat 7 times`. -/
def colorGroup (c : Config) (r : ColorRun) : ColorRun :=
  ⟨r.w <<< 2, !r.odd, r.out ++ [clut c (cidx c r.odd r.w)]⟩

/-- The first `n` passes of `repeat 7 times`. -/
def colorGroups (c : Config) : Nat → ColorRun → ColorRun
  | 0, r => r
  | n + 1, r => colorGroup c (colorGroups c n r)

/-- One round of the `for` loop. -/
def colorRound (c : Config) (r : ColorRun) (b : Byte) : ColorRun := colorGroups c 7 (colorLoad c b r)

/-- `RenderColorLine(B)`: the rounds over bytes 1..39 and the synthetic 0x00 (R217). -/
def renderColorLine (c : Config) : List Byte → List Triple
  | [] => []
  | b0 :: rest => ((rest ++ [0x00]).foldl (colorRound c) (colorStart c b0)).out

/-! ## `RenderMonoLine` (R218) -/

/-- The variables of `RenderMonoLine`. -/
structure MonoRun where
  w : BitVec 32
  dotc : Nat
  i : Nat
  last : Bool
  out : List Triple
  deriving DecidableEq, Repr

/-- The body of the load loop. -/
def monoLoad (c : Config) (b : Byte) (r : MonoRun) : MonoRun :=
  let w :=
    if b.getLsbD 7 then
      if r.dotc > 0 then r.w ||| ((BitVec.ofBool (r.w.getLsbD (r.dotc - 1))).setWidth 32 <<< r.dotc)
      else if c.monoBleedMode = .every ∧ r.i > 0 then r.w ||| ((BitVec.ofBool r.last).setWidth 32 <<< r.dotc)
      else r.w
    else r.w
  { r with w := w ||| ((dotpatM c b).setWidth 32 <<< r.dotc), dotc := r.dotc + 14, i := r.i + 1 }

/-- `while i < 40 and dotc <= MONO_LOAD_LIMIT`, over the bytes `B[i..39]` that are left. -/
def monoLoads (c : Config) : List Byte → MonoRun → List Byte × MonoRun
  | [], r => ([], r)
  | b :: rest, r => if r.dotc ≤ c.monoLoadLimit then monoLoads c rest (monoLoad c b r) else (b :: rest, r)

/-- The body of the drain loop. -/
def monoDrain (c : Config) (r : MonoRun) : MonoRun :=
  { r with out := r.out ++ [mlut c (midx r.w)], last := r.w.getLsbD 1, w := r.w >>> 2, dotc := r.dotc - 2 }

/-- `while dotc >= 2`, for at most as many passes as the first argument says. -/
def monoDrains (c : Config) : Nat → MonoRun → MonoRun
  | 0, r => r
  | n + 1, r => if r.dotc ≥ 2 then monoDrains c n (monoDrain c r) else r

/-- `loop`, for at most as many passes as the first argument says: load, drain, and return when no byte is left. -/
def monoLoop (c : Config) : Nat → List Byte → MonoRun → List Triple
  | 0, _, r => r.out
  | n + 1, bytes, r =>
    let (rest, r1) := monoLoads c bytes r
    let r2 := monoDrains c r1.dotc r1
    if rest.isEmpty then r2.out else monoLoop c n rest r2

/-- `RenderMonoLine(B)` (R218). Every pass of the loop loads a byte, so one pass for each byte is enough. -/
def renderMonoLine (c : Config) (bytes : List Byte) : List Triple :=
  monoLoop c (bytes.length + 1) bytes ⟨0, 0, 0, false, []⟩

/-- The reference output of a line on the path `mono` names (R219). -/
def renderLine (c : Config) (mono : Bool) (bytes : List Byte) : List Triple :=
  if mono then renderMonoLine c bytes else renderColorLine c bytes

/-! ## Closed forms of the dot streams -/

/-- Byte `n` of a line, 0 past its end (so byte 40 is the synthetic byte). -/
def byteAt (bytes : List Byte) (n : Nat) : Byte := bytes.getD n 0

/-- `P_n` (42_dot_window_decoder.md R157 item 2). -/
def colorPattern (c : Config) (bytes : List Byte) (n : Nat) : BitVec 14 :=
  if n = 0 then dotpatC c (byteAt bytes 0)
  else dotpatC c (byteAt bytes n) |||
    ((BitVec.ofBool ((byteAt bytes n).getLsbD 7 && (dotpatC c (byteAt bytes (n - 1))).getLsbD 0)).setWidth 14 <<< 13)

/-- `s[t]`, the color dot stream (R157 item 2): 0 for `t < 0`. R157 sets `s[t] = 0` for `t ≥ 560` too; the steps merge
the pattern of the synthetic byte there, `DOTPAT_C(0x00)`, which is 0 in the default table and may be any pattern in
another (00_scope.md R8). The model follows the steps (log 19). -/
def colorDot (c : Config) (bytes : List Byte) (t : Int) : Bool :=
  if 0 ≤ t ∧ t < 574 then (colorPattern c bytes (t.toNat / 14)).getLsbD (13 - t.toNat % 14) else false

/-- The injection condition `c_n` (42_dot_window_decoder.md R162 item 3). -/
def injects (c : Config) (n : Nat) : Bool :=
  match c.monoBleedMode with
  | .held => decide (c.monoLoadLimit ≥ 14) && decide (n % 2 = 1)
  | .every => decide (n ≥ 1)

/-- `Q_n` (R162 item 3). -/
def monoPattern (c : Config) (bytes : List Byte) (n : Nat) : BitVec 14 :=
  dotpatM c (byteAt bytes n) |||
    (BitVec.ofBool ((byteAt bytes n).getLsbD 7 && injects c n &&
      (dotpatM c (byteAt bytes (n - 1))).getLsbD 13)).setWidth 14

/-- `u[t]`, the mono dot stream, for t in 0..559 (R162 item 3). -/
def monoDot (c : Config) (bytes : List Byte) (t : Nat) : Bool :=
  (monoPattern c bytes (t / 14)).getLsbD (t % 14)

/-! ## Test tables (43_lut_indexer.md R199) -/

/-- `CLUT_ID(i) = (i, i, i)`. -/
def clutId : Vector Triple 512 := tableOf 512 (fun n => ⟨n, n, n⟩)

/-- `MLUT_ID(i) = (512 + i, 512 + i, 512 + i)`. -/
def mlutId : Vector Triple 4 := tableOf 4 (fun n => ⟨512 + n, 512 + n, 512 + n⟩)

end Sys2Proof.Machine
end

