-- ==== Sys2Proof/Safety.lean ====
section
/-! DEFINITION. What counts as a safe run: the invariants of the registers and the ownership (10_state.md,
70_reset_and_hazards.md R327), of the data a line holds (42_dot_window_decoder.md R157, R162), and of the frame's
history (45_frame_orchestrator.md R259); how many steps a path still takes; running several steps. -/

namespace Sys2Proof.Machine

/-! ## Groups of states -/

/-- The states in which the renderer holds a buffer (70_reset_and_hazards.md R327 item 1). -/
def holding : St → Bool
  | .lMode | .cSeed | .cFetch | .cBleed | .cMerge | .cEmit | .cShift
  | .mFetch | .mInject | .mMerge | .mEmit | .mDrain | .lSubmit => true
  | .idle | .fStart | .fNext | .fText | .lPsel | .lMap | .lAcq | .qMap | .qPsel | .fault => false

/-- The states of a line, from `L_PSEL` to `L_SUBMIT`. -/
def inLine (st : St) : Bool := holding st || st = .lPsel || st = .lMap || st = .lAcq

/-! ## Runs -/

/-- `n` steps, stopping at the first refusal. -/
def runSteps : Nat → State → Result
  | 0, s => .next s
  | n + 1, s =>
    match step s with
    | .next t => runSteps n t
    | .fault r => .fault r
    | .refused r => .refused r

/-- A machine after power-on reset with any configuration, mode inputs, bitmap and schedule of agents
(70_reset_and_hazards.md R310, R311). -/
def powerOn (c : Config) (mode : BitVec 4) (bitmap : Memory) (schedule : List Agent) : State :=
  { State.resetWith c with mode := mode, bitmap := bitmap, schedule := schedule }

/-! ## The registers -/

/-- `W[n-1:0] = 0`. -/
def lowZero (n : Nat) (w : BitVec 32) : Prop := ∀ m : Nat, m < n → w.getLsbD m = false

/-- The fault registers: all 0 until a fault, and then a command fault of DECODE (60_exceptions.md R281, R282). -/
def FaultRegs (s : State) : Prop :=
  if s.st = .fault then s.fvalid = true ∧ (s.fcode = 1 ∨ s.fcode = 2) ∧ s.fst = 0
  else s.fvalid = false ∧ s.fcode = 0 ∧ s.fst = 0 ∧ s.fline = 0

/-- `LINE` and `OFS`: a line's index is below 192, and below `NL` in a frame (45_frame_orchestrator.md R254); its
offset is `MapOffset(LINE)` once it is mapped (41_memory_address_mapper.md R124). -/
def LineRegs (s : State) : Prop :=
  (inLine s.st = true → s.line.toNat < 192 ∧ (s.ret = true → s.line.toNat < s.nl.toNat)) ∧
  (s.st = .qMap → s.line.toNat < 192) ∧
  (s.st = .fNext → s.ret = true ∧ s.line.toNat ≤ s.nl.toNat) ∧
  (s.st = .fText → s.mixedL = true ∧ s.line = s.nl) ∧
  ((holding s.st = true ∨ s.st = .lAcq) → s.ofs = mapOffset s.line)

/-- The ownership invariant (70_reset_and_hazards.md R327): the held buffer is `BUFID`, and no buffer is held
outside the states that hold one. -/
def OwnRegs (s : State) : Prop :=
  if holding s.st then s.own[s.bufid]? = some Own.held ∧ ∀ b : Nat, b ≠ s.bufid → s.own[b]? ≠ some Own.held
  else ∀ b : Nat, s.own[b]? ≠ some Own.held

/-- The registers between two rounds of the color path (44_scanline_producer.md R214, R220). -/
def ColorRound (s : State) (firstRound : Nat) : Prop :=
  s.monoL = false ∧ s.k = 0 ∧ firstRound ≤ s.i.toNat ∧ s.i.toNat ≤ 40 ∧ s.j.toNat = 7 * (s.i.toNat - 1) ∧
    s.odd = (s.j.toNat % 2 == 1)

/-- The registers within a color round: `done` groups are emitted (44_scanline_producer.md R214, R220). -/
def ColorGroup (s : State) (done : Nat) : Prop :=
  s.monoL = false ∧ s.k.toNat ≤ 6 ∧ 1 ≤ s.i.toNat ∧ s.i.toNat ≤ 40 ∧
    s.j.toNat = 7 * (s.i.toNat - 1) + s.k.toNat + done ∧
    s.odd = ((s.j.toNat - done) % 2 == 1) ∧ lowZero (1 + 2 * s.k.toNat) s.w

/-- The registers while the mono path loads byte `I` (44_scanline_producer.md R215): the accumulator is empty, or
holds the even byte of a pair. -/
def MonoLoading (s : State) : Prop :=
  s.monoL = true ∧ s.i.toNat < 40 ∧ 2 * s.j.toNat + s.dotc.toNat = 14 * s.i.toNat ∧
    s.dotc.toNat = (if s.cfg.monoLoadLimit ≥ 14 ∧ s.i.toNat % 2 = 1 then 14 else 0)

/-- The registers while the mono path drains (44_scanline_producer.md R215); `done` is 1 between an emit and its
drain. -/
def MonoDraining (s : State) (done : Nat) : Prop :=
  s.monoL = true ∧ 1 ≤ s.i.toNat ∧ s.i.toNat ≤ 40 ∧ (s.cfg.monoLoadLimit ≥ 14 → s.i.toNat % 2 = 0) ∧
    2 * s.j.toNat + s.dotc.toNat = 14 * s.i.toNat + 2 * done ∧
    done ≤ s.j.toNat ∧ 2 ≤ s.dotc.toNat ∧ s.dotc.toNat ≤ 28 ∧ s.dotc.toNat % 2 = 0 ∧ s.w.toNat < 2 ^ s.dotc.toNat

/-- The datapath registers of each state of the two paths (42_dot_window_decoder.md R157 item 1, R162 item 1;
44_scanline_producer.md R220). -/
def PathRegs (s : State) : Prop :=
  match s.st with
  | .cFetch => ColorRound s 0 ∧ lowZero 15 s.w
  | .cSeed => ColorRound s 0 ∧ s.i = 0
  | .cBleed => ColorRound s 1 ∧ lowZero 15 s.w
  | .cMerge => ColorRound s 1 ∧ lowZero 14 s.w
  | .cEmit => ColorGroup s 0
  | .cShift => ColorGroup s 1
  | .mFetch => MonoLoading s ∧ s.w.toNat < 2 ^ s.dotc.toNat
  | .mInject => MonoLoading s ∧ s.w.toNat < 2 ^ s.dotc.toNat
  | .mMerge => MonoLoading s ∧ s.w.toNat < 2 ^ (s.dotc.toNat + 1)
  | .mEmit => MonoDraining s 0
  | .mDrain => MonoDraining s 1
  | .lSubmit => s.j = 280 ∧ s.i = (if s.monoL then 40 else 41) ∧ (s.monoL = true → s.dotc = 0)
  | .idle | .fStart | .fNext | .fText | .lPsel | .lMap | .lAcq | .lMode | .qMap | .qPsel | .fault => True

/-- The invariant of the registers, the buffers' number, the bitmap's form and the ownership. -/
structure Inv (s : State) : Prop where
  cfgWf : s.cfg.wf = true
  ownLength : s.own.length = s.cfg.nbuf
  bufLength : s.buf.length = s.cfg.nbuf
  bufidLt : s.bufid < s.cfg.nbuf
  bitmapWf : s.bitmap.wf = true
  nlLegal : s.nl = if s.mixedL then 160 else 192
  txtReqRule : s.txtReq = decide (s.st = .fText)
  faultRegs : FaultRegs s
  lineRegs : LineRegs s
  ownRegs : OwnRegs s
  pathRegs : PathRegs s

/-! ## The data of a line -/

/-- The reads of the current line so far, those since the last `Acquire`: page, offset and value. -/
def lineReadEvents (h : List Event) : List (BitVec 1 × Nat × Byte) :=
  h.foldl (fun acc e => match e with
    | .acquire _ => []
    | .read p a v => acc ++ [(p, a, v)]
    | .accept _ | .submit _ _ _ _ _ _ | .textReq | .textDone | .fault _ _ _ => acc) []

/-- The bytes of the current line so far: the values of its reads. -/
def lineReads (h : List Event) : List Byte := (lineReadEvents h).map (fun r => r.2.2)

/-- The current line has read the bytes at `OFS`, `OFS + 1`, … of page `PSEL`, once each and in that order
(20_memory.md R63, R64). -/
def ReadsInOrder (s : State) : Prop :=
  holding s.st = true → (lineReadEvents s.history).map (fun r => (r.1, r.2.1)) =
    (List.range (lineReadEvents s.history).length).map (fun x => (s.psel, s.ofs.toNat + x))

/-- Every byte the current line has read still stands in the bitmap as it was read (20_memory.md R78). -/
def ReadsAreCurrent (s : State) : Prop :=
  holding s.st = true → ∀ r, r ∈ lineReadEvents s.history → r.2.2 = s.bitmap.read (cellAddr r.1 r.2.1)

/-- The triple at position `n` of a buffer. -/
def LineBuf.tripleAt (l : LineBuf) (n : Nat) : Triple :=
  ⟨(l.ch0[n]?).getD 0, (l.ch1[n]?).getD 0, (l.ch2[n]?).getD 0⟩

/-- The context of output `n`: `{s[2n-3], …, s[2n+4]}` with `s[2n-3]` in bit 7 (R157 item 3). -/
def colorContext (c : Config) (bytes : List Byte) (n : Nat) : BitVec 8 :=
  BitVec.ofFnLE (fun m : Fin 8 => colorDot c bytes (2 * (n : Int) + 4 - (m.val : Int)))

/-- Output `n` of a color line by its closed form (R157 item 3). -/
def colorTriple (c : Config) (bytes : List Byte) (n : Nat) : Triple :=
  clut c (BitVec.ofBool (n % 2 == 1) ++ colorContext c bytes n)

/-- Output `n` of a mono line by its closed form: index `{u[2n+1], u[2n]}` (R162 item 4). -/
def monoTriple (c : Config) (bytes : List Byte) (n : Nat) : Triple :=
  mlut c (BitVec.ofBool (monoDot c bytes (2 * n + 1)) ++ BitVec.ofBool (monoDot c bytes (2 * n)))

/-- Output `n` of a line on the path `mono` names. -/
def lineTriple (c : Config) (mono : Bool) (bytes : List Byte) (n : Nat) : Triple :=
  if mono then monoTriple c bytes n else colorTriple c bytes n

/-- The held buffer's first `J` triples are the line's outputs. -/
def Written (s : State) : Prop :=
  ∀ l, s.buf[s.bufid]? = some l → ∀ n, n < s.j.toNat →
    l.tripleAt n = lineTriple s.cfg s.monoL (lineReads s.history) n

/-- A color window holds the stream from position `p` on, as far as position `limit`: `W[m] = s[p + 28 - m]`, so the
group consumed next is `W[28:27]` (42_dot_window_decoder.md R152). -/
def colorHolds (c : Config) (bytes : List Byte) (w : BitVec 32) (p limit : Nat) : Prop :=
  ∀ m : Nat, m < 32 → w.getLsbD m =
    (decide ((p : Int) + 28 - (m : Int) < (limit : Int)) && colorDot c bytes ((p : Int) + 28 - (m : Int)))

/-- The window of a state holds its line's color stream. -/
def ColorWindow (s : State) (p limit : Nat) : Prop := colorHolds s.cfg (lineReads s.history) s.w p limit

/-- The low `d` bits of a mono accumulator hold the stream from position `p` on: `W[m] = u[p + m]`
(42_dot_window_decoder.md R158). -/
def monoHolds (c : Config) (bytes : List Byte) (w : BitVec 32) (p d : Nat) : Prop :=
  ∀ m : Nat, m < d → w.getLsbD m = monoDot c bytes (p + m)

/-- The accumulator of a state holds its line's mono stream from position `p` on. -/
def MonoWindow (s : State) (p : Nat) : Prop := monoHolds s.cfg (lineReads s.history) s.w p s.dotc.toNat

/-- The byte latched for position `I`, once it is fetched: the last byte read, or the synthetic byte. -/
def Fetched (s : State) : Prop :=
  if s.i = 40 then (lineReads s.history).length = 40 ∧ s.byte = 0
  else (lineReads s.history).length = s.i.toNat + 1 ∧ s.byte = byteAt (lineReads s.history) s.i.toNat

/-- Mode `EVERY` needs the last drained dot: `LASTDOT = u[2J - 1]` when the accumulator is empty. -/
def LastDot (s : State) : Prop :=
  s.dotc = 0 → 0 < s.j.toNat → s.lastdot = monoDot s.cfg (lineReads s.history) (2 * s.j.toNat - 1)

/-- What the window, the accumulator, the byte latch and the held buffer hold in each state of the two paths, for
the bytes read so far (42_dot_window_decoder.md R157, R162; 44_scanline_producer.md R219). The color stream
from dot 560 on is the synthetic byte's pattern (log 19). -/
def LineData (s : State) : Prop :=
  match s.st with
  | .lMode => lineReads s.history = []
  | .cFetch => (lineReads s.history).length = s.i.toNat ∧ Written s ∧
      (s.i ≠ 0 → ColorWindow s (2 * s.j.toNat) (14 * s.i.toNat))
  | .cSeed => (lineReads s.history).length = 1 ∧ s.byte = byteAt (lineReads s.history) 0 ∧ Written s
  | .cBleed => Fetched s ∧ Written s ∧ ColorWindow s (2 * s.j.toNat) (14 * s.i.toNat)
  | .cMerge => Fetched s ∧ Written s ∧
      s.w.getLsbD 14 = (s.byte.getLsbD 7 && s.w.getLsbD 15) ∧
      ∀ m : Nat, m < 32 → m ≠ 14 → s.w.getLsbD m =
        (decide (((2 * s.j.toNat : Nat) : Int) + 28 - (m : Int) < ((14 * s.i.toNat : Nat) : Int)) &&
          colorDot s.cfg (lineReads s.history) (((2 * s.j.toNat : Nat) : Int) + 28 - (m : Int)))
  | .cEmit => Fetched s ∧ Written s ∧ ColorWindow s (2 * s.j.toNat) (14 * (s.i.toNat + 1))
  | .cShift => Fetched s ∧ Written s ∧ ColorWindow s (2 * (s.j.toNat - 1)) (14 * (s.i.toNat + 1))
  | .mFetch => (lineReads s.history).length = s.i.toNat ∧ Written s ∧ MonoWindow s (2 * s.j.toNat) ∧ LastDot s
  | .mInject => Fetched s ∧ Written s ∧ MonoWindow s (2 * s.j.toNat) ∧ LastDot s
  | .mMerge => Fetched s ∧ Written s ∧ MonoWindow s (2 * s.j.toNat) ∧
      s.w.getLsbD s.dotc.toNat = (s.byte.getLsbD 7 && injects s.cfg s.i.toNat &&
        (dotpatM s.cfg (byteAt (lineReads s.history) (s.i.toNat - 1))).getLsbD 13)
  | .mEmit => (lineReads s.history).length = s.i.toNat ∧ Written s ∧ MonoWindow s (2 * s.j.toNat)
  | .mDrain => (lineReads s.history).length = s.i.toNat ∧ Written s ∧ MonoWindow s (2 * (s.j.toNat - 1))
  | .lSubmit => (lineReads s.history).length = 40 ∧ Written s
  | .idle | .fStart | .fNext | .fText | .lPsel | .lMap | .lAcq | .qMap | .qPsel | .fault => True

/-! ## The history of a frame -/

/-- What a frame puts in the history besides reads and acquires. -/
inductive FrameMark where
  | line (n : BitVec 8)
  | textReq
  | textDone
  deriving DecidableEq, Repr

/-- The submitted lines and the text handshakes since the last accepted command. -/
def frameMarks (h : List Event) : List FrameMark :=
  h.foldl (fun acc e => match e with
    | .accept _ => []
    | .submit _ n _ _ _ _ => acc ++ [.line n]
    | .textReq => acc ++ [.textReq]
    | .textDone => acc ++ [.textDone]
    | .read _ _ _ | .acquire _ | .fault _ _ _ => acc) []

/-- The marks of lines 0, 1, …, n-1, once each and in order. -/
def linesInOrder (n : Nat) : List FrameMark := (List.range n).map (fun k => .line (BitVec.ofNat 8 k))

/-- The frame so far has submitted lines 0 to `LINE` - 1 in order, and nothing else; in the text wait it has also
requested the tail (45_frame_orchestrator.md R254, R259). -/
def FrameSoFar (s : State) : Prop :=
  (s.st = .fStart → frameMarks s.history = []) ∧
  ((s.st = .fNext ∨ (inLine s.st = true ∧ s.ret = true)) → frameMarks s.history = linesInOrder s.line.toNat) ∧
  (s.st = .fText → frameMarks s.history = linesInOrder s.line.toNat ++ [.textReq])

/-! ## How long a path still takes -/

/-- The renderer steps a state of the two paths still takes, up to and including `L_SUBMIT`
(44_scanline_producer.md R214, R215). -/
def stepsToSubmit (s : State) : Nat :=
  let rounds := 40 - s.i.toNat
  let emits := 280 - s.j.toNat
  match s.st with
  | .cFetch => if s.i = 0 then 683 else 17 * (41 - s.i.toNat) + 1
  | .cSeed => 682
  | .cBleed => 17 * (41 - s.i.toNat)
  | .cMerge => 17 * rounds + 16
  | .cEmit => 17 * rounds + 2 * (7 - s.k.toNat) + 1
  | .cShift => 17 * rounds + 2 * (7 - s.k.toNat)
  | .mFetch => 3 * rounds + 2 * emits + 1
  | .mInject => 3 * rounds + 2 * emits
  | .mMerge => 3 * rounds + 2 * emits - 1
  | .mEmit => 3 * rounds + 2 * emits + 1
  | .mDrain => 3 * rounds + 2 * emits + 2
  | .lSubmit => 1
  | .idle | .fStart | .fNext | .fText | .lPsel | .lMap | .lAcq | .lMode | .qMap | .qPsel | .fault => 0

end Sys2Proof.Machine
end

