-- ==== Sys2Proof/Certificates/Slice0/Obligations.lean ====
section
/-! DEFINITION. The statements for the provers. Each docstring names the rule of spec/ it formalises. -/

open Sys2Proof Sys2Proof.Machine

/-! ## Encoding and decoding -/

/-- 30_encoding.md R91, R93, R101: the decoder reads exactly the words the encoder writes, for every instruction
with every operand, and drops no bit of a word. -/
def Obligations.DecodeReadsExactlyWhatEncodeWrites : Prop :=
  ∀ (e : Encoded) (i : Instr), decode e = .ok i ↔ encode i = e

/-- 30_encoding.md R95, with its checks in their order. -/
def Obligations.DecodeCmdFollowsItsCaseTable : Prop :=
  ∀ w : BitVec 16, decodeCmd w =
    if (w.toNat / 256) % 16 ≠ 0 then .error .illegalCmd
    else if w.toNat / 4096 = 0 then (if w.toNat % 256 = 0 then .ok .nop else .error .illegalCmd)
    else if w.toNat / 4096 = 1 then (if w.toNat % 256 = 0 then .ok .frame else .error .illegalCmd)
    else if w.toNat / 4096 = 2 then
      (if w.toNat % 256 < 192 then .ok (.line (BitVec.ofNat 8 (w.toNat % 256))) else .error .lineRange)
    else if w.toNat / 4096 = 3 then
      (if w.toNat % 256 < 192 then .ok (.mapq (BitVec.ofNat 8 (w.toNat % 256))) else .error .lineRange)
    else if w.toNat / 4096 = 4 then (if w.toNat % 256 = 0 then .ok .pselq else .error .illegalCmd)
    else .error .illegalCmd

/-- Words written out from the spec's encodings (30_encoding.md R93, R101, 95_test_vectors.md section 2.2), one or
more for each family, and the unused state codes (R102). -/
def Obligations.WordsOfTheSpecDecode : Prop :=
  decode (.cmd16 0b0000000000000000#16) = .ok .nop ∧
  decode (.cmd16 0b0001000000000000#16) = .ok .frame ∧
  decode (.cmd16 0b0010000000000101#16) = .ok (.line 5) ∧
  decode (.cmd16 0b0010000011001000#16) = .ok (.line 200) ∧
  decode (.cmd16 0b0011000001100100#16) = .ok (.mapq 100) ∧
  decode (.cmd16 0b0100000000000000#16) = .ok .pselq ∧
  decode (.cmd16 0b0000000000000001#16) = .error .illegalCmd ∧
  decode (.cmd16 0b0010111100000101#16) = .error .illegalCmd ∧
  decode (.cmd16 0b0101000000000000#16) = .error .illegalCmd ∧
  decode (.uop5 0b01001#5) = .ok .cFetch ∧
  decode (.uop5 0b01101#5) = .ok .cShift ∧
  decode (.uop5 0b10011#5) = .ok .mEmit ∧
  decode (.uop5 0b10101#5) = .ok .lSubmit ∧
  decode (.uop5 0b00011#5) = .ok .fText ∧
  decode (.uop5 0b11111#5) = .ok .faultHalt ∧
  (∀ c : BitVec 5, decode (.uop5 c) = .error .unusedState ↔ 0x16 ≤ c.toNat ∧ c.toNat ≤ 0x1E)

/-! ## The step -/

/-- 30_encoding.md R100: a renderer step performs the micro-operation `ST` names. The renderer moves when the
schedule is empty (the model's choice, log 7) or names it. -/
def Obligations.StepRunsTheInstructionThatStNames : Prop :=
  ∀ s : State,
    decode (.uop5 s.st.code) = .ok s.st.uop ∧
    (s.schedule = [] → step s = exec s.st.uop s) ∧
    (∀ rest, s.schedule = .renderer :: rest → step s = exec s.st.uop { s with schedule := rest })

/-- 45_frame_orchestrator.md R257: the DECODE step with a waiting word runs the instruction the word decodes to, a
`LINE` or `MAPQ` of any line among them, and an illegal word takes the fault `ILLEGAL_CMD`. -/
def Obligations.DecodeStepRunsTheDecodedCommand : Prop :=
  ∀ s : State, s.st = .idle → s.cmdValid = true →
    (∀ i, decode (.cmd16 s.cmd) = .ok i → exec .idleDecode s = exec i s) ∧
    (∀ e, decode (.cmd16 s.cmd) = .error e →
      exec .idleDecode s = .next { s with
        cmdValid := false, fvalid := true, fcode := 1, fst := 0, fline := s.cmd.extractLsb' 0 8, st := .fault,
        history := s.history ++ [.accept s.cmd, .fault 1 0 (s.cmd.extractLsb' 0 8)] })

/-- The word the host places is the one the very next step runs (the model's interface, log 14). -/
def Obligations.PlacedWordIsRunByTheNextStep : Prop :=
  ∀ (s : State) (nbits w : Nat) (i : Instr), nbits = 8 ∨ nbits = 16 → decodeTableWord nbits w = some i →
    step (s.withFetchWord nbits w) = exec i (s.withFetchWord nbits w)

/-- No instruction stops the machine, in any state: what the spec calls a fault is a fault entry (60_exceptions.md
R283) and what it calls a hold leaves the state. That both answer a next state, and commands do so outside `IDLE` too,
is the model's choice (logs 8, 18 and 13): R290 says that a held step is not enabled. -/
def Obligations.EveryInstructionAnswersANextState : Prop :=
  ∀ (i : Instr) (s : State), ∃ t, exec i s = .next t

/-! ## Commands -/

/-- 45_frame_orchestrator.md R256, R252, R251: `NOP`, `FRAME` and `PSELQ` consume the word, record it and name the
next state; nothing else changes. That this holds outside `IDLE`, without a waiting word and for any word in `CMD` is
the model's choice (log 13): the spec performs a command in `IDLE` only, after decoding its word (R257). -/
def Obligations.NopFrameAndPselqConsumeTheirWord : Prop :=
  ∀ s : State,
    exec .nop s = .next { s with cmdValid := false, history := s.history ++ [.accept s.cmd], st := .idle } ∧
    exec .frame s = .next { s with cmdValid := false, history := s.history ++ [.accept s.cmd], st := .fStart } ∧
    exec .pselq s = .next { s with cmdValid := false, history := s.history ++ [.accept s.cmd], st := .qPsel }

/-- 44_scanline_producer.md R210, 41_memory_address_mapper.md R123: `LINE` and `MAPQ` take a line below 192, and
fault `LINE_RANGE` otherwise, with `FLINE` the line; nothing else changes. That this holds without a waiting word and
for any other field of `CMD` is the model's choice (log 13). -/
def Obligations.LineAndMapqTakeTheirLineOrFault : Prop :=
  ∀ (s : State) (n : BitVec 8), s.st = .idle → imm8Of s.cmd = n →
    (n.toNat < 192 →
      exec (.line n) s = .next { s with
        cmdValid := false, history := s.history ++ [.accept s.cmd], line := n, ret := false, st := .lPsel } ∧
      exec (.mapq n) s = .next { s with
        cmdValid := false, history := s.history ++ [.accept s.cmd], line := n, st := .qMap }) ∧
    (192 ≤ n.toNat → ∀ i, i = .line n ∨ i = .mapq n →
      exec i s = .next { s with
        cmdValid := false, fvalid := true, fcode := 2, fst := 0, fline := n, st := .fault,
        history := s.history ++ [.accept s.cmd, .fault 2 0 n] })

/-- 45_frame_orchestrator.md R257: DECODE holds without a command, and otherwise does what `decodeCmd` says. A word
is consumed in `IDLE` only. That a hold answers the same state as its next state is the model's choice (log 8). -/
def Obligations.IdleDecodesOneCommandOrHolds : Prop :=
  (∀ s : State, s.cmdValid = false → exec .idleDecode s = .next s) ∧
  (∀ s : State, s.st = .idle → s.cmdValid = true →
    let u : State := { s with cmdValid := false, history := s.history ++ [.accept s.cmd] }
    exec .idleDecode s = .next (match decodeCmd s.cmd with
      | .error c => { u with
          fvalid := true, fcode := c.code, fst := 0, fline := s.cmd.extractLsb' 0 8, st := .fault,
          history := u.history ++ [.fault c.code 0 (s.cmd.extractLsb' 0 8)] }
      | .ok .nop => { u with st := .idle }
      | .ok .frame => { u with st := .fStart }
      | .ok (.line n) => { u with line := n, ret := false, st := .lPsel }
      | .ok (.mapq n) => { u with line := n, st := .qMap }
      | .ok .pselq => { u with st := .qPsel })) ∧
  (∀ s t : State, s.st ≠ .idle → rendererStep s = .next t → t.cmdValid = s.cmdValid ∧ t.cmd = s.cmd)

/-! ## memory_address_mapper -/

/-- 41_memory_address_mapper.md R121 (an inference of the spec, from R120), its five items. -/
def Obligations.MapOffsetInterleavesTheLines : Prop :=
  (∀ l : BitVec 8,
    (mapOffset l).toNat = 1024 * (l.toNat % 8) + 128 * ((l.toNat / 8) % 8) + 40 * (l.toNat / 64) ∧
    (((l.setWidth 13 &&& 7) <<< 10) &&& ((l.setWidth 13 &&& 0x38) <<< 4) = 0#13) ∧
    (((l.setWidth 13 &&& 7) <<< 10) &&& ((l.setWidth 13 >>> 6) * 40) = 0#13) ∧
    (((l.setWidth 13 &&& 0x38) <<< 4) &&& ((l.setWidth 13 >>> 6) * 40) = 0#13) ∧
    (l.toNat < 192 → (mapOffset l).toNat ≤ 8144 ∧ (mapOffset l).toNat + 39 ≤ 8183) ∧
    (mapOffset l).toNat ≤ 8184) ∧
  (mapOffset 255).toNat = 8184 ∧
  (∀ l m : BitVec 8, l.toNat < 192 → m.toNat < 192 → l ≠ m →
    ∀ x y : Nat, x < 40 → y < 40 → (mapOffset l).toNat + x ≠ (mapOffset m).toNat + y) ∧
  (∀ l m : BitVec 8, m.toNat = l.toNat + 1 → l.toNat / 8 = m.toNat / 8 →
    (mapOffset m).toNat = (mapOffset l).toNat + 1024) ∧
  (∀ l m : BitVec 8, m.toNat = l.toNat + 8 → l.toNat / 64 = m.toNat / 64 →
    (mapOffset m).toNat = (mapOffset l).toNat + 128) ∧
  (∀ l m : BitVec 8, m.toNat = l.toNat + 64 → (mapOffset m).toNat = (mapOffset l).toNat + 40)

/-- 20_memory.md R65 (an inference of the spec, from R120): which offsets the lines read. -/
def Obligations.LinesReadExactlyTheVisibleBytes : Prop :=
  (∀ l : BitVec 8, ∀ x : Nat, l.toNat < 192 → x < 40 → (mapOffset l).toNat + x ≤ 8183) ∧
  (∀ l m : BitVec 8, ∀ x y : Nat, l.toNat < 192 → m.toNat < 192 → x < 40 → y < 40 →
    (mapOffset l).toNat + x = (mapOffset m).toNat + y → l = m ∧ x = y) ∧
  (∀ a : Nat, a < 8192 →
    ((∃ l : BitVec 8, ∃ x : Nat, l.toNat < 192 ∧ x < 40 ∧ (mapOffset l).toNat + x = a) ↔ a % 128 < 120)) ∧
  (∀ l : BitVec 8, ∀ x : Nat, x < 40 → ((mapOffset l).toNat + x ≥ 8192 ↔ l = 255 ∧ 8 ≤ x))

/-- 41_memory_address_mapper.md R122, R124: `Q_MAP` and `L_MAP` write the line's offset, with the value of R121
item 1; nothing else changes. -/
def Obligations.QMapAndLMapWriteTheOffset : Prop :=
  ∀ s : State, ∃ o : BitVec 13,
    o.toNat = 1024 * (s.line.toNat % 8) + 128 * ((s.line.toNat / 8) % 8) + 40 * (s.line.toNat / 64) ∧
    exec .qMap s = .next { s with ofs := o, result := BitVec.ofNat 16 o.toNat, st := .idle } ∧
    exec .lMap s = .next { s with ofs := o, st := .lAcq }

/-- 20_memory.md R62, R64; 41_memory_address_mapper.md R125 to R127: a fetch of a legal `I` reads one byte at
`OFS + I` of page `PSEL`, the synthetic byte reads nothing, and an offset past the page takes `ADDR_RANGE`. -/
def Obligations.FetchReadsOneByteOrTheSyntheticOne : Prop :=
  ∀ (s : State) (i : Instr), i = .cFetch ∨ i = .mFetch →
    let next : St := if i = .mFetch then .mInject else if s.i = 0 then .cSeed else .cBleed
    let a : Nat := s.ofs.toNat + s.i.toNat
    let v : Byte := s.bitmap.read (s.psel.toNat * 8192 + a)
    (s.i = 40 → exec i s = .next { s with byte := 0, st := next }) ∧
    (s.i.toNat < 40 → a < 8192 →
      exec i s = .next { s with byte := v, history := s.history ++ [.read s.psel a v], st := next }) ∧
    (s.i.toNat < 40 → 8192 ≤ a → s.st ≠ .idle →
      exec i s = .next { s with
        fvalid := true, fcode := 3, fst := s.st.code, fline := s.line, st := .fault,
        history := s.history ++ [.fault 3 s.st.code s.line] })

/-! ## dot_window_decoder -/

/-- 42_dot_window_decoder.md R153: `C_SEED` puts the pattern in `W[28:15]`, clears the rest, and sets `I` to 1. -/
def Obligations.CSeedLoadsTheFirstByte : Prop :=
  ∀ s : State, ∃ w : BitVec 32,
    (∀ m : Nat, m < 32 → w.getLsbD m =
      (decide (15 ≤ m) && decide (m < 29) && (dotpatC s.cfg s.byte).getLsbD (m - 15))) ∧
    exec .cSeed s = .next { s with w := w, i := 1, st := .cFetch }

/-- 42_dot_window_decoder.md R154: `C_BLEED` ORs `W[15]` into `W[14]` when `BYTE[7] = 1`; every other bit stays. -/
def Obligations.CBleedReplicatesTheTrailingDot : Prop :=
  ∀ s : State, ∃ w : BitVec 32,
    (∀ m : Nat, m < 32 → w.getLsbD m =
      (s.w.getLsbD m || (decide (m = 14) && s.byte.getLsbD 7 && s.w.getLsbD 15))) ∧
    exec .cBleed s = .next { s with w := w, st := .cMerge }

/-- 42_dot_window_decoder.md R155: `C_MERGE` ORs the pattern into `W[14:1]`; every other bit stays. -/
def Obligations.CMergeOrsThePatternIntoTheLowPart : Prop :=
  ∀ s : State, ∃ w : BitVec 32,
    (∀ m : Nat, m < 32 → w.getLsbD m =
      (s.w.getLsbD m || (decide (1 ≤ m) && decide (m < 15) && (dotpatC s.cfg s.byte).getLsbD (m - 1)))) ∧
    exec .cMerge s = .next { s with w := w, st := .cEmit }

/-- 42_dot_window_decoder.md R156, 44_scanline_producer.md R214: `C_SHIFT` on the legal values of `K` and `I`. -/
def Obligations.CShiftConsumesOneGroup : Prop :=
  ∀ s : State, s.k.toNat ≤ 6 → s.i.toNat ≤ 40 → ∃ (w : BitVec 32) (k : BitVec 3) (i : BitVec 6),
    (∀ m : Nat, m < 32 → w.getLsbD m = (decide (2 ≤ m) && s.w.getLsbD (m - 2))) ∧
    (s.k.toNat < 6 → k.toNat = s.k.toNat + 1 ∧ i = s.i) ∧
    (s.k.toNat = 6 → k.toNat = 0 ∧ i.toNat = s.i.toNat + 1) ∧
    exec .cShift s = .next { s with
      w := w, odd := !s.odd, k := k, i := i,
      st := if s.k.toNat < 6 then .cEmit else if s.i.toNat < 40 then .cFetch else .lSubmit }

/-- 42_dot_window_decoder.md R159, for the legal values of `DOTC`: bit `DOTC` of `W` is the only one that can
change. -/
def Obligations.MInjectCopiesThePreviousDot : Prop :=
  ∀ s : State, s.dotc.toNat ≤ 32 → ∃ w : BitVec 32,
    (∀ m : Nat, m < 32 → w.getLsbD m =
      (s.w.getLsbD m || (decide (m = s.dotc.toNat) && s.byte.getLsbD 7 &&
        (if s.dotc.toNat > 0 then s.w.getLsbD (s.dotc.toNat - 1)
         else decide (s.cfg.monoBleedMode = .every) && decide (s.i.toNat > 0) && s.lastdot)))) ∧
    exec .mInject s = .next { s with w := w, st := .mMerge }

/-- 42_dot_window_decoder.md R160, 44_scanline_producer.md R215, for the legal values of `DOTC` and of `I`. -/
def Obligations.MMergeAppendsThePattern : Prop :=
  ∀ s : State, s.dotc.toNat ≤ 32 → s.i.toNat ≤ 40 → ∃ (w : BitVec 32) (dotc i : BitVec 6),
    (∀ m : Nat, m < 32 → w.getLsbD m =
      (s.w.getLsbD m || (decide (s.dotc.toNat ≤ m) && (dotpatM s.cfg s.byte).getLsbD (m - s.dotc.toNat)))) ∧
    dotc.toNat = s.dotc.toNat + 14 ∧ i.toNat = s.i.toNat + 1 ∧
    exec .mMerge s = .next { s with
      w := w, dotc := dotc, i := i,
      st := if s.i.toNat + 1 < 40 ∧ s.dotc.toNat + 14 ≤ s.cfg.monoLoadLimit then .mFetch else .mEmit }

/-- 42_dot_window_decoder.md R161, 44_scanline_producer.md R215, for the entry condition `DOTC ≥ 2`.
That an `I` above 40 goes to `L_SUBMIT` is the model's choice (log 28): R215's table has no row for it. -/
def Obligations.MDrainDropsTheEmittedPair : Prop :=
  ∀ s : State, 2 ≤ s.dotc.toNat → ∃ (w : BitVec 32) (dotc : BitVec 6),
    (∀ m : Nat, m < 32 → w.getLsbD m = s.w.getLsbD (m + 2)) ∧ dotc.toNat + 2 = s.dotc.toNat ∧
    exec .mDrain s = .next { s with
      lastdot := s.w.getLsbD 1, w := w, dotc := dotc,
      st := if 4 ≤ s.dotc.toNat then .mEmit else if s.i.toNat < 40 then .mFetch else .lSubmit }

/-- 42_dot_window_decoder.md R150, R151 (decisions of the spec, from general knowledge): the default tables, bit by
bit, in the configuration of `State.reset`. -/
def Obligations.DefaultDotPatternsDoubleAndDelay : Prop :=
  ∀ b : Byte,
    (b.getLsbD 7 = false → ∀ k, k < 7 →
      (dotpatC State.reset.cfg b).getLsbD (13 - 2 * k) = b.getLsbD k ∧
      (dotpatC State.reset.cfg b).getLsbD (12 - 2 * k) = b.getLsbD k ∧
      (dotpatM State.reset.cfg b).getLsbD (2 * k) = b.getLsbD k ∧
      (dotpatM State.reset.cfg b).getLsbD (2 * k + 1) = b.getLsbD k) ∧
    (b.getLsbD 7 = true →
      dotpatC State.reset.cfg b = dotpatC State.reset.cfg (b &&& 0x7F) >>> 1 ∧
      dotpatM State.reset.cfg b = dotpatM State.reset.cfg (b &&& 0x7F) <<< 1) ∧
    (∀ t, t < 14 → (dotpatM State.reset.cfg b).getLsbD t = (dotpatC State.reset.cfg b).getLsbD (13 - t))

/-! ## lut_indexer -/

/-- 43_lut_indexer.md R190 to R192: `C_EMIT` writes entry `ODD * 256 + W[31:24]` of the color table at position `J` of
the held buffer; every other position, buffer and register but `J` and `ST` stays. -/
def Obligations.CEmitWritesTheColorTriple : Prop :=
  ∀ (s : State) (l : LineBuf), s.own[s.bufid]? = some .held → s.buf[s.bufid]? = some l → s.j.toNat < 280 →
    ∃ (e : Fin 512) (l' : LineBuf), e.val = s.odd.toNat * 256 + s.w.toNat / 2 ^ 24 ∧
      (∀ n, n < 280 → l'.tripleAt n = if n = s.j.toNat then s.cfg.clut.get e else l.tripleAt n) ∧
      exec .cEmit s = .next { s with buf := s.buf.set s.bufid l', j := s.j + 1, st := .cShift }

/-- 43_lut_indexer.md R193 to R195: `M_EMIT` writes entry `W[1:0]` of the mono table at position `J` of the held
buffer; every other position, buffer and register but `J` and `ST` stays. -/
def Obligations.MEmitWritesTheMonoTriple : Prop :=
  ∀ (s : State) (l : LineBuf), s.own[s.bufid]? = some .held → s.buf[s.bufid]? = some l → s.j.toNat < 280 →
    ∃ (e : Fin 4) (l' : LineBuf), e.val = s.w.toNat % 4 ∧
      (∀ n, n < 280 → l'.tripleAt n = if n = s.j.toNat then s.cfg.mlut.get e else l.tripleAt n) ∧
      exec .mEmit s = .next { s with buf := s.buf.set s.bufid l', j := s.j + 1, st := .mDrain }

/-- 20_memory.md R66, 60_exceptions.md R286: the guards of `BufWrite` in their order, ownership before index. -/
def Obligations.EmitGuardsFaultInOrder : Prop :=
  ∀ (s : State) (i : Instr), i = .cEmit ∨ i = .mEmit → s.st ≠ .idle →
    (s.own[s.bufid]? ≠ some .held →
      exec i s = .next { s with
        fvalid := true, fcode := 5, fst := s.st.code, fline := s.line, st := .fault,
        history := s.history ++ [.fault 5 s.st.code s.line] }) ∧
    (s.own[s.bufid]? = some .held → 280 ≤ s.j.toNat →
      exec i s = .next { s with
        fvalid := true, fcode := 4, fst := s.st.code, fline := s.line, st := .fault,
        history := s.history ++ [.fault 4 s.st.code s.line] })

/-! ## scanline_producer -/

/-- 45_frame_orchestrator.md R250 with 44_scanline_producer.md R211 and 45_frame_orchestrator.md R260: `L_PSEL` and
`Q_PSEL` select page 2 exactly when `PAGE2` is set and `EXTMEM` is clear; nothing else changes. -/
def Obligations.PageTwoNeedsPage2SetAndExtmemClear : Prop :=
  ∀ s : State, ∃ p : BitVec 1,
    (p = 1 ↔ s.mode.getLsbD 1 = true ∧ s.mode.getLsbD 2 = false) ∧
    exec .lPsel s = .next { s with psel := p, st := .lMap } ∧
    exec .qPsel s = .next { s with psel := p, result := BitVec.ofNat 16 p.toNat, st := .idle }

/-- 44_scanline_producer.md R212: `L_ACQ` takes the lowest free buffer, and holds while none is free. Which free buffer
is taken is the model's choice, the one the spec makes too (log 15; R212 and 93_implementation_defined.md S8 allow any
free one), and so is that a hold answers the same state as its next state (log 8). -/
def Obligations.LAcqTakesTheLowestFreeBufferOrHolds : Prop :=
  (∀ (s : State) (b : Nat), s.own[b]? = some .free → (∀ b' : Nat, b' < b → s.own[b']? ≠ some .free) →
    exec .lAcq s = .next { s with
      own := s.own.set b .held, bufid := b, history := s.history ++ [.acquire b], st := .lMode }) ∧
  (∀ s : State, (∀ b : Nat, s.own[b]? ≠ some .free) → exec .lAcq s = .next s)

/-- 44_scanline_producer.md R213: `L_MODE` samples `MODE.MONO`, clears the line's datapath and enters a path. -/
def Obligations.LModeClearsTheDatapath : Prop :=
  ∀ s : State, exec .lMode s = .next { s with
    monoL := s.mode.getLsbD 0, w := 0, odd := false, dotc := 0, lastdot := false, i := 0, k := 0, j := 0,
    st := if s.mode.getLsbD 0 = true then .mFetch else .cFetch }

/-- 44_scanline_producer.md R216: the guards of `L_SUBMIT` in their order, and its effect. -/
def Obligations.LSubmitHandsTheBufferOver : Prop :=
  (∀ (s : State) (l : LineBuf), s.own[s.bufid]? = some .held → s.buf[s.bufid]? = some l → s.j.toNat = 280 →
    ∃ t, exec .lSubmit s = .next t ∧
      t = { s with
        own := s.own.set s.bufid .transport
        history := s.history ++ [.submit s.bufid s.line s.monoL l.ch0 l.ch1 l.ch2]
        line := if s.ret = true then BitVec.ofNat 8 (s.line.toNat + 1) else s.line
        st := if s.ret = true then .fNext else .idle }) ∧
  (∀ s : State, s.st ≠ .idle → s.own[s.bufid]? ≠ some .held →
    exec .lSubmit s = .next { s with
      fvalid := true, fcode := 5, fst := s.st.code, fline := s.line, st := .fault,
      history := s.history ++ [.fault 5 s.st.code s.line] }) ∧
  (∀ (s : State) (l : LineBuf), s.st ≠ .idle → s.own[s.bufid]? = some .held → s.buf[s.bufid]? = some l →
    s.j.toNat ≠ 280 →
    exec .lSubmit s = .next { s with
      fvalid := true, fcode := 6, fst := s.st.code, fline := s.line, st := .fault,
      history := s.history ++ [.fault 6 s.st.code s.line] })

/-! ## frame_orchestrator -/

/-- 45_frame_orchestrator.md R253: `F_START` latches the mixed-mode flag and the line count. -/
def Obligations.FStartLatchesTheLineCount : Prop :=
  ∀ s : State, exec .fStart s = .next { s with
    mixedL := s.mode.getLsbD 3, nl := if s.mode.getLsbD 3 = true then 160 else 192, line := 0, ret := true,
    st := .fNext }

/-- 45_frame_orchestrator.md R254: `F_NEXT` dispatches a line, requests the tail, holds, or ends the frame. That a hold
answers the same state as its next state is the model's choice (log 8). -/
def Obligations.FNextDispatchesTheNextLine : Prop :=
  ∀ s : State,
    (s.line.toNat < s.nl.toNat → exec .fNext s = .next { s with st := .lPsel }) ∧
    (s.nl.toNat ≤ s.line.toNat → s.mixedL = true → s.txtAck = true → exec .fNext s = .next s) ∧
    (s.nl.toNat ≤ s.line.toNat → s.mixedL = true → s.txtAck = false →
      exec .fNext s = .next { s with txtReq := true, history := s.history ++ [.textReq], st := .fText }) ∧
    (s.nl.toNat ≤ s.line.toNat → s.mixedL = false → exec .fNext s = .next { s with st := .idle })

/-- 45_frame_orchestrator.md R255: `F_TEXT` waits for the acknowledge. That a hold
answers the same state as its next state is the model's choice (log 8). -/
def Obligations.FTextWaitsForTheAcknowledge : Prop :=
  ∀ s : State,
    (s.txtAck = false → exec .fText s = .next s) ∧
    (s.txtAck = true →
      exec .fText s = .next { s with txtReq := false, history := s.history ++ [.textDone], st := .idle })

/-- 45_frame_orchestrator.md R258, 60_exceptions.md R289: in `FAULT` the renderer never moves and the record of the
fault stays; only a reset leaves it. That a hold
answers the same state as its next state is the model's choice (log 8). -/
def Obligations.OnlyAResetLeavesTheFaultState : Prop :=
  (∀ s : State, exec .faultHalt s = .next s) ∧
  (∀ s t : State, s.st = .fault → step s = .next t →
    (∃ rest, s.schedule = .reset :: rest ∧ t.st = .idle) ∨
    (t.st = .fault ∧ t.fvalid = s.fvalid ∧ t.fcode = s.fcode ∧ t.fst = s.fst ∧ t.fline = s.fline))

/-! ## Faults and holds -/

/-- 60_exceptions.md R281, R283, R284: a step that faults writes the fault registers and `ST`, emits the event, at
`DECODE` also consumes the command, and writes nothing else. -/
def Obligations.FaultsArePrecise : Prop :=
  (FaultCode.illegalCmd.code = 1 ∧ FaultCode.lineRange.code = 2 ∧ FaultCode.addrRange.code = 3 ∧
    FaultCode.indexRange.code = 4 ∧ FaultCode.bufOwnership.code = 5 ∧ FaultCode.symCount.code = 6) ∧
  (∀ s t : State, s.st ≠ .fault → rendererStep s = .next t → t.st = .fault →
    ∃ c : FaultCode,
      (s.st = .idle → t = { s with
        cmdValid := false, fvalid := true, fcode := c.code, fst := 0, fline := s.cmd.extractLsb' 0 8, st := .fault,
        history := s.history ++ [.accept s.cmd, .fault c.code 0 (s.cmd.extractLsb' 0 8)] }) ∧
      (s.st ≠ .idle → t = { s with
        fvalid := true, fcode := c.code, fst := s.st.code, fline := s.line, st := .fault,
        history := s.history ++ [.fault c.code s.st.code s.line] }))

/-- 60_exceptions.md R290: a renderer step leaves the state as it is exactly in these cases. That a hold
answers the same state as its next state is the model's choice (log 8). -/
def Obligations.TheRendererHoldsExactlyInTheFiveCases : Prop :=
  ∀ s : State, rendererStep s = .next s ↔
    (s.st = .idle ∧ s.cmdValid = false) ∨
    (s.st = .lAcq ∧ ∀ b : Nat, s.own[b]? ≠ some .free) ∨
    (s.st = .fNext ∧ s.nl.toNat ≤ s.line.toNat ∧ s.mixedL = true ∧ s.txtAck = true) ∨
    (s.st = .fText ∧ s.txtAck = false) ∨
    s.st = .fault

/-- 60_exceptions.md R282 (an inference of the spec): from power-on with any configuration, mode inputs and bitmap,
and any schedule of agents that obey their duties, no defect fault is raised, and a command fault is raised exactly
when a refused word is decoded. -/
def Obligations.NoDefectFaultIsEverRaised : Prop :=
  ∀ (c : Config) (mode : BitVec 4) (bitmap : Memory) (agents : List Agent) (n : Nat) (t : State),
    c.wf = true → bitmap.wf = true → runSteps n (powerOn c mode bitmap agents) = .next t →
      (t.fcode = 0 ∨ t.fcode = 1 ∨ t.fcode = 2) ∧
      (∀ u, t.st ≠ .fault → rendererStep t = .next u →
        (u.st = .fault ↔ t.st = .idle ∧ t.cmdValid = true ∧ ∃ e, decodeCmd t.cmd = .error e))

/-! ## Rules of the whole machine -/

/-- 10_state.md R40, 20_memory.md R72, 43_lut_indexer.md R197: no instruction writes the mode inputs, the
acknowledge, the bitmap or the tables; nor the command word, the schedule or the number of resets. -/
def Obligations.NoInstructionWritesTheEnvironment : Prop :=
  ∀ (i : Instr) (s t : State), exec i s = .next t →
    t.mode = s.mode ∧ t.txtAck = s.txtAck ∧ t.bitmap = s.bitmap ∧ t.cfg = s.cfg ∧ t.cmd = s.cmd ∧
      t.schedule = s.schedule ∧ t.resets = s.resets

/-- 10_state.md R40, R41: each mode input is read only by the micro-operations that sample it. -/
def Obligations.ModeInputsAreReadOnlyWhereSampled : Prop :=
  ∀ (i : Instr) (s t : State) (m : BitVec 4),
    (i = .lMode → m.getLsbD 0 = s.mode.getLsbD 0) →
    (i = .lPsel ∨ i = .qPsel → m.getLsbD 1 = s.mode.getLsbD 1 ∧ m.getLsbD 2 = s.mode.getLsbD 2) →
    (i = .fStart → m.getLsbD 3 = s.mode.getLsbD 3) →
    exec i s = .next t → exec i { s with mode := m } = .next { t with mode := m }

/-- 10_state.md R46: the ownership moves only `FREE → HELD` at `L_ACQ`, `HELD → TRANSPORT` at `L_SUBMIT`, and
`TRANSPORT → FREE` by a release; or a reset frees the buffer. -/
def Obligations.OwnershipMovesOnlyInItsOrder : Prop :=
  ∀ (s t : State) (b : Nat) (o o' : Own), step s = .next t → s.own[b]? = some o → t.own[b]? = some o' → o ≠ o' →
    (o = .free ∧ o' = .held ∧ s.st = .lAcq ∧ t.bufid = b) ∨
    (o = .held ∧ o' = .transport ∧ s.st = .lSubmit ∧ s.bufid = b) ∨
    (o = .transport ∧ o' = .free ∧ ∃ rest, s.schedule = .transportRelease b :: rest) ∨
    (o' = .free ∧ ∃ rest, s.schedule = .reset :: rest)

/-- 10_state.md R46, 20_memory.md R66, R72: only an emit writes buffer contents, only in the buffer `BUFID`, and only
while that buffer is held. -/
def Obligations.OnlyEmitsWriteTheHeldBuffer : Prop :=
  ∀ (i : Instr) (s t : State), exec i s = .next t →
    (i ≠ .cEmit → i ≠ .mEmit → t.buf = s.buf) ∧
    (∀ b : Nat, b ≠ s.bufid ∨ s.own[b]? ≠ some .held → t.buf[b]? = s.buf[b]?) ∧
    t.buf.length = s.buf.length

/-- 10_state.md R37: `RESULT` is written by `Q_MAP` and `Q_PSEL` with these values, and by nothing else but a reset:
every other step of the renderer, and every step of another agent in any state, leaves it. -/
def Obligations.OnlyTheQueriesWriteResult : Prop :=
  (∀ s t : State, exec .qMap s = .next t → t.result.toNat = t.ofs.toNat) ∧
  (∀ s t : State, exec .qPsel s = .next t → t.result.toNat = t.psel.toNat) ∧
  (∀ s t : State, step s = .next t → (∀ rest, s.schedule ≠ .reset :: rest) →
    ((s.schedule = [] ∨ ∃ rest, s.schedule = .renderer :: rest) → s.st ≠ .qMap ∧ s.st ≠ .qPsel) →
    t.result = s.result)

/-- 10_state.md R29 to R35, R38, R43: which instructions write each control register and the fault registers. -/
def Obligations.ControlRegistersHaveTheirWriters : Prop :=
  ∀ (i : Instr) (s t : State), exec i s = .next t →
    ((∀ n, i ≠ .line n) → (∀ n, i ≠ .mapq n) → i ≠ .idleDecode → i ≠ .fStart → i ≠ .lSubmit → t.line = s.line) ∧
    (i ≠ .lMap → i ≠ .qMap → t.ofs = s.ofs) ∧
    (i ≠ .lPsel → i ≠ .qPsel → t.psel = s.psel) ∧
    (i ≠ .lMode → t.monoL = s.monoL) ∧
    (i ≠ .fStart → t.mixedL = s.mixedL ∧ t.nl = s.nl) ∧
    ((∀ n, i ≠ .line n) → i ≠ .idleDecode → i ≠ .fStart → t.ret = s.ret) ∧
    (i ≠ .lAcq → t.bufid = s.bufid) ∧
    (i ≠ .lAcq → i ≠ .lSubmit → t.own = s.own) ∧
    (i ≠ .fNext → i ≠ .fText → t.txtReq = s.txtReq) ∧
    (t.st ≠ .fault ∨ s.st = .fault ∧ i = .faultHalt →
      t.fvalid = s.fvalid ∧ t.fcode = s.fcode ∧ t.fst = s.fst ∧ t.fline = s.fline)

/-- 10_state.md R21 to R28: which micro-operations write each datapath register, and that only `C_SHIFT` and `L_MODE`
write the flag `ODD` (R50). -/
def Obligations.DatapathRegistersHaveTheirWriters : Prop :=
  ∀ (i : Instr) (s t : State), exec i s = .next t →
    (i ∉ [.lMode, .cSeed, .cBleed, .cMerge, .cShift, .mInject, .mMerge, .mDrain] → t.w = s.w) ∧
    (i ∉ [.lMode, .cShift] → t.odd = s.odd ∧ t.k = s.k) ∧
    (i ∉ [.lMode, .mMerge, .mDrain] → t.dotc = s.dotc) ∧
    (i ∉ [.lMode, .mDrain] → t.lastdot = s.lastdot) ∧
    (i ∉ [.cFetch, .mFetch] → t.byte = s.byte) ∧
    (i ∉ [.lMode, .cSeed, .cShift, .mMerge] → t.i = s.i) ∧
    (i ∉ [.lMode, .cEmit, .mEmit] → t.j = s.j)

/-- 60_exceptions.md R296, 10_state.md R42, 70_reset_and_hazards.md R324, R325: what each action of an environment agent
does, and that what its duties exclude is refused. The model's refusals are its own (log 9), and so is that a read by
the host or the transport changes nothing (log 20). -/
def Obligations.AgentsKeepTheirDuties : Prop :=
  ∀ (s : State) (rest : List Agent),
    (∀ w, s.schedule = .hostIssue w :: rest →
      (s.cmdValid = false → step s = .next { s with schedule := rest, cmd := w, cmdValid := true }) ∧
      (s.cmdValid = true → step s = .refused .hostIssueWhilePending)) ∧
    (∀ b : Nat, s.schedule = .transportRelease b :: rest →
      (s.own[b]? = some .transport → step s = .next { s with schedule := rest, own := s.own.set b .free }) ∧
      (s.own[b]? ≠ some .transport → step s = .refused .bufferNotTransports)) ∧
    (∀ b : Nat, s.schedule = .transportRead b :: rest →
      (s.own[b]? = some .transport → step s = .next { s with schedule := rest }) ∧
      (s.own[b]? ≠ some .transport → step s = .refused .bufferNotTransports)) ∧
    (∀ v, s.schedule = .textAck v :: rest →
      (s.txtReq = v → step s = .next { s with schedule := rest, txtAck := v }) ∧
      (s.txtReq ≠ v → step s = .refused .textHandshakeBroken)) ∧
    (∀ m, s.schedule = .writerMode m :: rest → step s = .next { s with schedule := rest, mode := m }) ∧
    (∀ p a v, s.schedule = .writerByte p a v :: rest →
      step s = .next { s with schedule := rest, bitmap := s.bitmap.write (p.toNat * 8192 + a.toNat) v }) ∧
    (s.schedule = .hostReadResult :: rest →
      (s.cmdValid = false ∧ (s.st = .idle ∨ s.st = .fault) ∧ s.fvalid = false → step s = .next { s with schedule := rest }) ∧
      (¬ (s.cmdValid = false ∧ (s.st = .idle ∨ s.st = .fault) ∧ s.fvalid = false) →
        step s = .refused .resultReadTooEarly))

/-- 70_reset_and_hazards.md R310, R311, R313, R314: a reset at any step, from any state, sets the block's state to
these values and leaves the mode inputs, the bitmap and the configuration. That it frees the buffers in transport and
clears `TXT_ACK` too is the model's choice (log 25): R313 also lets a model reset the block alone. -/
def Obligations.ResetSetsTheStatedValues : Prop :=
  ∀ (s : State) (rest : List Agent), s.schedule = .reset :: rest →
    ∃ t, step s = .next t ∧
      t.st = .idle ∧ t.w = 0 ∧ t.odd = false ∧ t.dotc = 0 ∧ t.lastdot = false ∧ t.byte = 0 ∧ t.i = 0 ∧ t.k = 0 ∧
      t.j = 0 ∧ t.line = 0 ∧ t.ofs = 0 ∧ t.psel = 0 ∧ t.monoL = false ∧ t.mixedL = false ∧ t.nl = 192 ∧
      t.ret = false ∧ t.bufid = 0 ∧ t.result = 0 ∧ t.fvalid = false ∧ t.fcode = 0 ∧ t.fst = 0 ∧ t.fline = 0 ∧
      t.txtReq = false ∧ t.cmdValid = false ∧ t.cmd = 0 ∧ t.txtAck = false ∧
      t.own.length = s.cfg.nbuf ∧ (∀ b : Nat, b < s.cfg.nbuf → t.own[b]? = some .free) ∧
      t.buf.length = s.cfg.nbuf ∧
      t.mode = s.mode ∧ t.bitmap = s.bitmap ∧ t.cfg = s.cfg

/-- 10_state.md R39: the fields of `STATUS`, and its reserved bits. -/
def Obligations.StatusShowsItsFields : Prop :=
  ∀ s : State,
    (s.status.getLsbD 0 = true ↔ s.st ≠ .idle ∧ s.st ≠ .fault) ∧
    s.status.getLsbD 1 = s.fvalid ∧ s.status.getLsbD 2 = s.txtReq ∧ s.status.getLsbD 3 = s.cmdValid ∧
    s.status.extractLsb' 4 4 = s.fcode ∧ s.status.extractLsb' 8 5 = s.fst ∧ s.status.extractLsb' 16 8 = s.fline ∧
    s.status.extractLsb' 13 3 = 0 ∧ s.status.extractLsb' 24 8 = 0

/-- 20_memory.md R62, R75, R76: after a writer step the written byte reads as written and every other byte of both
pages as before, the memory keeps its canonical form, and nothing else changes. -/
def Obligations.WriterChangesExactlyOneByte : Prop :=
  ∀ (s : State) (rest : List Agent) (p : BitVec 1) (a : BitVec 13) (v : Byte),
    s.bitmap.wf = true → s.schedule = .writerByte p a v :: rest →
    ∃ m : Memory, step s = .next { s with schedule := rest, bitmap := m } ∧ m.wf = true ∧
      ∀ (q : BitVec 1) (x : Nat), x < 8192 →
        m.read (q.toNat * 8192 + x) =
          if q = p ∧ x = a.toNat then v else s.bitmap.read (q.toNat * 8192 + x)

/-! ## Invariants -/

/-- The invariants hold after power-on reset, for every legal configuration, mode input, bitmap and schedule, and the
invariant of the registers in `State.reset`. -/
def Obligations.ResetMeetsTheInvariants : Prop :=
  (∀ (c : Config) (mode : BitVec 4) (bitmap : Memory) (agents : List Agent), c.wf = true → bitmap.wf = true →
    let s := powerOn c mode bitmap agents
    Inv s ∧ LineData s ∧ FrameSoFar s ∧ ReadsInOrder s ∧ ReadsAreCurrent s) ∧
  Inv State.reset

/-- Every step of every agent keeps the invariant of the registers, the ownership, the bitmap's form and the counters
of both paths (10_state.md R23 to R28, 42_dot_window_decoder.md R157 item 1, 44_scanline_producer.md R220). -/
def Obligations.EveryStepKeepsTheInvariant : Prop :=
  ∀ s t : State, Inv s → step s = .next t → Inv t

/-- 70_reset_and_hazards.md R327 (an inference of the spec), in every state reachable from power-on. -/
def Obligations.OneBufferIsHeldExactlyDuringALine : Prop :=
  ∀ (c : Config) (mode : BitVec 4) (bitmap : Memory) (agents : List Agent) (n : Nat) (t : State),
    c.wf = true → bitmap.wf = true → runSteps n (powerOn c mode bitmap agents) = .next t →
      (holding t.st = true → t.own[t.bufid]? = some .held ∧ ∀ b : Nat, b ≠ t.bufid → t.own[b]? ≠ some .held) ∧
      (holding t.st = false → t.st ≠ .fault → ∀ b : Nat, t.own[b]? ≠ some .held) ∧
      (t.st = .fault → ∀ b b' : Nat, t.own[b]? = some .held → t.own[b']? = some .held → b = b')

/-- Every step of every agent keeps what the window, the accumulator and the held buffer hold, whatever the writer
does between two reads (42_dot_window_decoder.md R152, R157, R158, R162; 20_memory.md R77). That the color stream goes
on from dot 560 with the pattern of the synthetic byte, `DOTPAT_C(0x00)`, is the model's choice (log 19): R157 sets it
to 0 there. -/
def Obligations.EveryStepKeepsTheLineData : Prop :=
  ∀ s t : State, Inv s → LineData s → step s = .next t → LineData t

/-- 20_memory.md R63, R64, R78; 44_scanline_producer.md R219: a line reads the bytes at `OFS`, `OFS + 1`, … of page
`PSEL`, once each and in order, whatever the agents do; and while no writer step writes a byte, each byte it has read
stands in the bitmap as it was read. -/
def Obligations.ALineReadsItsBytesOnceAndInOrder : Prop :=
  (∀ s t : State, Inv s → LineData s → ReadsInOrder s → step s = .next t → ReadsInOrder t) ∧
  (∀ s t : State, ReadsAreCurrent s → (∀ p a v rest, s.schedule ≠ .writerByte p a v :: rest) →
    step s = .next t → ReadsAreCurrent t)

/-- 44_scanline_producer.md R219 (an inference of the spec): the submitted buffer holds, channel by channel, the
reference line of the 40 bytes the line read; where no writer step has changed one of them since, those are the
bitmap's bytes at `OFS` to `OFS + 39` of page `PSEL`. -/
def Obligations.SubmitCarriesTheReferenceLine : Prop :=
  ∀ s : State, Inv s → LineData s → s.st = .lSubmit →
    ∃ (t : State) (l : LineBuf), rendererStep s = .next t ∧
      t.history = s.history ++ [.submit s.bufid s.line s.monoL l.ch0 l.ch1 l.ch2] ∧
      (lineReads s.history).length = 40 ∧
      (renderLine s.cfg s.monoL (lineReads s.history)).length = 280 ∧
      (∀ n, n < 280 → ∃ out, (renderLine s.cfg s.monoL (lineReads s.history))[n]? = some out ∧
        l.ch0[n]? = some out.s0 ∧ l.ch1[n]? = some out.s1 ∧ l.ch2[n]? = some out.s2) ∧
      (ReadsInOrder s → ReadsAreCurrent s →
        lineReads s.history = (List.range 40).map (fun x => s.bitmap.read (s.psel.toNat * 8192 + (s.ofs.toNat + x))))

/-- 44_scanline_producer.md R217 with 42_dot_window_decoder.md R157 items 2 and 3 (an inference of the spec): the
closed form of a color line. Where a custom table gives the synthetic byte a pattern, the stream follows R155 (log
19). -/
def Obligations.ColorLineHasItsClosedForm : Prop :=
  ∀ (c : Config) (bytes : List Byte), bytes.length = 40 →
    renderColorLine c bytes = (List.range 280).map (colorTriple c bytes)

/-- 44_scanline_producer.md R218 with 42_dot_window_decoder.md R162 items 3 and 4 (an inference of the spec): the
closed form of a mono line, for every legal `MONO_LOAD_LIMIT` and both bleed modes. -/
def Obligations.MonoLineHasItsClosedForm : Prop :=
  ∀ (c : Config) (bytes : List Byte), c.wf = true → bytes.length = 40 →
    renderMonoLine c bytes = (List.range 280).map (monoTriple c bytes)

/-- 42_dot_window_decoder.md R162 item 5 (an inference of the spec): with the default tables and mode `EVERY` the
two dot streams are equal. -/
def Obligations.EveryModeMonoStreamIsTheColorStream : Prop :=
  ∀ (bytes : List Byte) (t : Nat), bytes.length = 40 → t < 560 →
    monoDot { defaultConfig with monoBleedMode := .every } bytes t =
      colorDot { defaultConfig with monoBleedMode := .every } bytes (t : Int)

/-- 44_scanline_producer.md R221 (an inference of the spec): with the identity tables the two modes differ at every
position of every line. -/
def Obligations.ModeSwitchChangesEveryTriple : Prop :=
  ∀ (c : Config) (bytes : List Byte) (n : Nat), c.wf = true → c.clut = clutId → c.mlut = mlutId →
    bytes.length = 40 → n < 280 → (renderLine c true bytes)[n]? ≠ (renderLine c false bytes)[n]?

/-- Every step of every agent keeps the record of a frame: its lines are submitted once each and in order
(45_frame_orchestrator.md R254, R259). -/
def Obligations.EveryStepKeepsTheFrameInOrder : Prop :=
  ∀ s t : State, Inv s → FrameSoFar s → step s = .next t → FrameSoFar t

/-- 45_frame_orchestrator.md R259 items 1 and 2 (an inference of the spec): a frame that ends has submitted lines 0
to 191 and asked for no text, or lines 0 to 159 and then had the text tail. -/
def Obligations.AFrameEndsWithAllItsLines : Prop :=
  ∀ s t : State, Inv s → FrameSoFar s → rendererStep s = .next t → t.st = .idle →
    (s.st = .fNext → frameMarks t.history = linesInOrder 192) ∧
    (s.st = .fText → frameMarks t.history = linesInOrder 160 ++ [.textReq, .textDone])

/-- 44_scanline_producer.md R214, R215: a path takes exactly its number of steps, 683 from `C_FETCH` and 681 from
`M_FETCH` to `L_SUBMIT` inclusive; every renderer step on it brings the submit one step nearer. -/
def Obligations.EveryPathStepComesNearerToTheSubmit : Prop :=
  (∀ s t : State, s.st = .lMode → rendererStep s = .next t →
    stepsToSubmit t = if s.mode.getLsbD 0 = true then 681 else 683) ∧
  (∀ s t : State, Inv s → holding s.st = true → s.st ≠ .lMode → rendererStep s = .next t →
    stepsToSubmit s = stepsToSubmit t + 1 ∧ t.st ≠ .fault ∧
      (s.st = .lSubmit ↔ stepsToSubmit t = 0))
end

