-- ==== Sys2Proof/Laws/Bits.lean ====
section
/-! SUPPORT. The values of the fixed parameters, the bits of the shifted words the window and the accumulator are
built from, the fields of a command word, and the default tables entry by entry. -/

namespace Sys2Proof.Machine

/-! ## The fixed parameters -/

@[simp] theorem Fixed.val_eq {α : Type} {a : α} (x : Fixed a) : x.val = a := x.property

/-- The context field is `W[31:24]` (43_lut_indexer.md R190). -/
@[simp] theorem contextField_eq (c : Config) (w : BitVec 32) : contextField c w = w.extractLsb' 24 8 := by
  rcases c with ⟨_, _, _, _, _, ⟨_, rfl⟩, ⟨_, rfl⟩, _⟩
  rfl

@[simp] theorem oddAtLineStart_eq (c : Config) : oddAtLineStart c = false := Fixed.val_eq c.oddInit

/-! ## Shifted words -/

/-- A single bit shifted to place `k`. -/
theorem getLsbD_ofBool_shiftLeft (b : Bool) {k m : Nat} (hm : m < 32) :
    ((BitVec.ofBool b).setWidth 32 <<< k).getLsbD m = (decide (m = k) && b) := by
  rw [BitVec.getLsbD_shiftLeft]
  simp only [hm, decide_true, Bool.true_and, BitVec.getLsbD_setWidth]
  by_cases h : m = k
  · subst h; simp
  · by_cases h2 : m < k
    · simp [h, h2]
    · have h3 : m - k ≠ 0 := by omega
      simp [h, h2, BitVec.getLsbD_ofBool, h3]

/-- A dot pattern shifted to place `k`. -/
theorem getLsbD_pattern_shiftLeft (p : BitVec 14) {k m : Nat} (hm : m < 32) :
    (p.setWidth 32 <<< k).getLsbD m = (decide (k ≤ m) && p.getLsbD (m - k)) := by
  rw [BitVec.getLsbD_shiftLeft]
  simp only [hm, decide_true, Bool.true_and, BitVec.getLsbD_setWidth]
  by_cases h2 : m < k
  · simp [h2]
  · have h3 : k ≤ m := by omega
    have h4 : m - k < 32 := by omega
    simp [h2, h3, h4]

/-- A word below `2 ^ n` has no bit from `n` on. -/
theorem getLsbD_of_toNat_lt {w : BitVec 32} {n m : Nat} (h : w.toNat < 2 ^ n) (hm : n ≤ m) : w.getLsbD m = false := by
  rw [BitVec.getLsbD, Nat.testBit_lt_two_pow (Nat.lt_of_lt_of_le h (Nat.pow_le_pow_right (by decide) hm))]

/-- A word without a bit from `n` on is below `2 ^ n`. -/
theorem toNat_lt_of_getLsbD {w : BitVec 32} {n : Nat} (h : ∀ m, n ≤ m → m < 32 → w.getLsbD m = false) :
    w.toNat < 2 ^ n := by
  by_contra hge
  obtain ⟨m, hm, hb⟩ := Nat.exists_ge_and_testBit_of_ge_two_pow (Nat.le_of_not_lt hge)
  by_cases h32 : m < 32
  · have h1 := h m hm h32
    rw [BitVec.getLsbD, hb] at h1
    cases h1
  · have h1 := BitVec.getLsbD_of_ge w m (by omega)
    rw [BitVec.getLsbD, hb] at h1
    cases h1

/-! ## Command words -/

/-- A word is its three fields. -/
theorem toNat_fields (w : BitVec 16) :
    w.toNat = (opcOf w).toNat * 4096 + (rsvOf w).toNat * 256 + (imm8Of w).toNat := by
  simp only [opcOf, rsvOf, imm8Of, BitVec.extractLsb'_toNat, Nat.shiftRight_eq_div_pow]
  have := w.isLt
  omega

/-- The number of an encoded command word. -/
theorem toNat_cmdWord (o : BitVec 4) (n : BitVec 8) : (cmdWord o n).toNat = o.toNat * 4096 + n.toNat := by
  have := n.isLt
  simp only [cmdWord, BitVec.toNat_append]
  rw [← Nat.shiftLeft_add_eq_or_of_lt this]
  simp [Nat.shiftLeft_eq]
  omega

/-- Which word has which fields. -/
theorem eq_cmdWord_iff (w : BitVec 16) (o : BitVec 4) (n : BitVec 8) :
    w = cmdWord o n ↔ rsvOf w = 0 ∧ opcOf w = o ∧ imm8Of w = n := by
  have := toNat_fields w
  have := toNat_cmdWord o n
  have := (opcOf w).isLt
  have := (imm8Of w).isLt
  have := (rsvOf w).isLt
  have := o.isLt
  have := n.isLt
  simp only [← BitVec.toNat_inj, BitVec.reduceToNat]
  omega

/-! ## Views -/

/-- Appending words is a sum. -/
theorem toNat_append_eq {n m : Nat} (x : BitVec n) (y : BitVec m) : (x ++ y).toNat = x.toNat * 2 ^ m + y.toNat := by
  rw [BitVec.toNat_append, ← Nat.shiftLeft_add_eq_or_of_lt y.isLt, Nat.shiftLeft_eq]

/-- `STATUS` as a number. -/
theorem status_toNat (s : State) : s.status.toNat = s.fline.toNat * 65536 + s.fst.toNat * 256 + s.fcode.toNat * 16 +
    s.cmdValid.toNat * 8 + s.txtReq.toNat * 4 + s.fvalid.toNat * 2 + s.busy.toNat := by
  unfold State.status
  refine (toNat_append_eq _ _).trans ?_
  simp only [toNat_append_eq, BitVec.toNat_ofBool, BitVec.reduceToNat, Nat.reducePow]
  omega

/-! ## Tables -/

/-- An entry of a table made from a function. -/
theorem tableOf_get {α : Type} (n : Nat) (f : Nat → α) (e : Fin n) : (tableOf n f).get e = f e.val := by
  simp [tableOf, Vector.get]
  rfl

theorem tableOf_get? {α : Type} (n : Nat) (f : Nat → α) (k : Nat) :
    (tableOf n f)[k]? = if k < n then some (f k) else none := by
  split_ifs with h <;> simp [tableOf, h]

/-- An entry of a table of patterns made from a function. -/
theorem patternTable_get (f : Byte → BitVec 14) (b : Byte) : (patternTable f).get b.toFin = f b := by
  refine (tableOf_get 256 _ b.toFin).trans ?_
  show f (BitVec.ofNat 8 b.toNat) = f b
  rw [BitVec.ofNat_toNat, BitVec.setWidth_eq]

/-- The default color patterns. -/
theorem dotpatC_default (b : Byte) : dotpatC defaultConfig b = defaultDotpatC b := patternTable_get _ b

/-- The default mono patterns. -/
theorem dotpatM_default (b : Byte) : dotpatM defaultConfig b = defaultDotpatM b := patternTable_get _ b

/-- An entry of the identity color table. -/
theorem clutId_get (e : Fin 512) : clutId.get e = ⟨e.val, e.val, e.val⟩ :=
  tableOf_get 512 _ e

/-- An entry of the identity mono table. -/
theorem mlutId_get (e : Fin 4) : mlutId.get e = ⟨512 + e.val, 512 + e.val, 512 + e.val⟩ :=
  tableOf_get 4 _ e


end Sys2Proof.Machine
end

