-- ==== Sys2Proof/Laws/History.lean ====
section
/-! SUPPORT. What one more event does to the readings of the history. -/

namespace Sys2Proof.Machine

@[simp] theorem lineReadEvents_nil : lineReadEvents [] = [] := rfl

/-- A read is appended, an acquire starts over, and nothing else counts. -/
@[simp] theorem lineReadEvents_append (h : List Event) (e : Event) : lineReadEvents (h ++ [e]) = match e with
    | .acquire _ => []
    | .read p a v => lineReadEvents h ++ [(p, a, v)]
    | .accept _ | .submit _ _ _ _ _ _ | .textReq | .textDone | .fault _ _ _ => lineReadEvents h := by
  cases e <;> simp [lineReadEvents]

@[simp] theorem lineReads_nil : lineReads [] = [] := rfl

/-- The bytes of a line with one more event. -/
@[simp] theorem lineReads_append (h : List Event) (e : Event) : lineReads (h ++ [e]) = match e with
    | .acquire _ => []
    | .read _ _ v => lineReads h ++ [v]
    | .accept _ | .submit _ _ _ _ _ _ | .textReq | .textDone | .fault _ _ _ => lineReads h := by
  cases e <;> simp [lineReads]

/-- There are as many bytes as reads. -/
theorem lineReads_length (h : List Event) : (lineReads h).length = (lineReadEvents h).length := by simp [lineReads]

@[simp] theorem frameMarks_nil : frameMarks [] = [] := rfl

/-- The marks of a frame with one more event. -/
@[simp] theorem frameMarks_append (h : List Event) (e : Event) : frameMarks (h ++ [e]) = match e with
    | .accept _ => []
    | .submit _ n _ _ _ _ => frameMarks h ++ [.line n]
    | .textReq => frameMarks h ++ [.textReq]
    | .textDone => frameMarks h ++ [.textDone]
    | .read _ _ _ | .acquire _ | .fault _ _ _ => frameMarks h := by
  cases e <;> simp [frameMarks]

end Sys2Proof.Machine
end

