-- ==== Sys2Proof/Laws/Memory.lean ====
section
/-! SUPPORT. The laws of the bitmap space: read after write, and that every operation keeps the canonical form. -/

namespace Sys2Proof.Machine

/-- A cell below the first listed address reads as an unwritten byte. -/
theorem Memory.read_below {m : Memory} {lo x : Nat} (h : Memory.wfFrom lo m = true) (hx : x < lo) :
    m.read x = Config.unwritten := by
  induction m generalizing lo with
  | nil => rfl
  | cons c m ih =>
    obtain ⟨a, v⟩ := c
    simp only [Memory.wfFrom, Bool.and_eq_true, decide_eq_true_eq] at h
    have hne : a ≠ x := by omega
    simp only [Memory.read, hne, if_false]
    exact ih h.2 (by omega)

/-- Read after write, at the same and at every other address. -/
theorem Memory.read_write {m : Memory} {lo x y : Nat} {v : Byte} (h : Memory.wfFrom lo m = true) :
    (m.write x v).read y = if x = y then v else m.read y := by
  induction m generalizing lo with
  | nil =>
    by_cases hv : v = Config.unwritten <;> by_cases hxy : x = y <;> simp_all [Memory.write, Memory.read]
  | cons c m ih =>
    obtain ⟨a, b⟩ := c
    simp only [Memory.wfFrom, Bool.and_eq_true, decide_eq_true_eq] at h
    have hbelow := fun z hz => Memory.read_below (x := z) h.2 hz
    simp only [Memory.write]
    by_cases h1 : x < a
    · have h2 : x ≠ a := by omega
      by_cases hv : v = Config.unwritten
      · by_cases hxy : x = y
        · subst hxy
          have h3 : a ≠ x := by omega
          simp [h1, hv, Memory.read, h3, hbelow x (by omega)]
        · simp [h1, hv, hxy, Memory.read]
      · simp only [h1, hv, if_true, if_false, Memory.read]
    · by_cases h2 : x = a
      · subst h2
        by_cases hv : v = Config.unwritten
        · by_cases hxy : x = y
          · subst hxy
            simp [hv, hbelow x (by omega)]
          · simp [hv, hxy, Memory.read]
        · simp only [Nat.lt_irrefl, hv, if_true, if_false, Memory.read]
          by_cases hxy : x = y <;> simp [hxy]
      · simp only [h1, h2, if_false, Memory.read, ih h.2]
        by_cases hay : a = y
        · have : x ≠ y := by omega
          simp [hay, this]
        · simp [hay]

/-- A write at an address of the space keeps the canonical form. -/
theorem Memory.write_wfFrom {m : Memory} {lo x : Nat} {v : Byte} (h : Memory.wfFrom lo m = true) (hlo : lo ≤ x)
    (hx : x < Config.npages * Config.pageBytes) : Memory.wfFrom lo (m.write x v) = true := by
  induction m generalizing lo with
  | nil => by_cases hv : v = Config.unwritten <;> simp_all [Memory.write, Memory.wfFrom]
  | cons c m ih =>
    obtain ⟨a, b⟩ := c
    have h' := h
    simp only [Memory.wfFrom, Bool.and_eq_true, decide_eq_true_eq] at h'
    obtain ⟨⟨⟨h1, h2⟩, h3⟩, h4⟩ := h'
    have weaken : ∀ {lo' hi : Nat} {m' : Memory}, lo' ≤ hi → Memory.wfFrom hi m' = true →
        Memory.wfFrom lo' m' = true := by
      intro lo' hi m' hle hm
      cases m' with
      | nil => rfl
      | cons c' m'' =>
        obtain ⟨a', v'⟩ := c'
        simp only [Memory.wfFrom, Bool.and_eq_true, decide_eq_true_eq] at hm ⊢
        exact ⟨⟨⟨by omega, hm.1.1.2⟩, hm.1.2⟩, hm.2⟩
    simp only [Memory.write]
    by_cases hxa : x < a
    · by_cases hv : v = Config.unwritten
      · simp [hxa, hv, h]
      · simp only [hxa, hv, if_true, if_false, Memory.wfFrom, Bool.and_eq_true, decide_eq_true_eq]
        exact ⟨⟨⟨hlo, hx⟩, hv⟩, ⟨⟨by omega, h2⟩, h3⟩, h4⟩
    · by_cases hxa' : x = a
      · subst hxa'
        by_cases hv : v = Config.unwritten
        · simp only [hxa, hv, if_true, if_false]
          exact weaken (by omega) h4
        · simp only [hxa, hv, if_true, if_false, Memory.wfFrom, Bool.and_eq_true, decide_eq_true_eq]
          exact ⟨⟨⟨hlo, hx⟩, hv⟩, h4⟩
      · simp only [hxa, hxa', if_false, Memory.wfFrom, Bool.and_eq_true, decide_eq_true_eq]
        exact ⟨⟨⟨h1, h2⟩, h3⟩, ih h4 (by omega)⟩

/-- The address of an offset of a page lies in the space. -/
theorem cellAddr_lt (p : BitVec 1) (a : BitVec 13) :
    cellAddr p a.toNat < Config.npages * Config.pageBytes := by
  have := p.isLt
  have := a.isLt
  simp only [cellAddr, Config.npages, Config.pageBytes]
  omega

/-- A writer's byte keeps the canonical form. -/
theorem Memory.write_wf {m : Memory} (h : m.wf = true) (p : BitVec 1) (a : BitVec 13) (v : Byte) :
    (m.write (cellAddr p a.toNat) v).wf = true :=
  Memory.write_wfFrom h (Nat.zero_le _) (cellAddr_lt p a)

/-- A writer's byte is what is read there, and every other byte reads as before. -/
theorem Memory.read_write_cell {m : Memory} (h : m.wf = true) (p q : BitVec 1) (a b : BitVec 13) (v : Byte) :
    (m.write (cellAddr p a.toNat) v).read (cellAddr q b.toNat) =
      if p = q ∧ a = b then v else m.read (cellAddr q b.toNat) := by
  rw [Memory.read_write h]
  have hiff : cellAddr p a.toNat = cellAddr q b.toNat ↔ p = q ∧ a = b := by
    constructor
    · intro he
      simp only [cellAddr, Config.pageBytes] at he
      have := a.isLt
      have := b.isLt
      exact ⟨BitVec.eq_of_toNat_eq (by omega), BitVec.eq_of_toNat_eq (by omega)⟩
    · rintro ⟨rfl, rfl⟩
      rfl
  simp only [hiff]

end Sys2Proof.Machine
end

