-- ==== Sys2Proof/Laws/Ops.lean ====
section
/-! SUPPORT. One lemma for each shared operation and for each instruction whose meaning branches: everything the
operation can do, stated once, so that later proofs cite it and unfold nothing. -/

namespace Sys2Proof.Machine

/-! ## The end of a step -/

@[simp] theorem settle_ok (s t : State) : settle s (.ok t) = .next t := rfl
@[simp] theorem settle_error (s : State) (c : FaultCode) : settle s (.error c) = .next (raiseFault c s) := rfl

/-- A step that may fault always answers a next state: its effect, or the fault entry of the state it started in. -/
theorem settle_cases {s t : State} {r : Except FaultCode State} (h : settle s r = .next t) :
    r = .ok t ∨ ∃ c, r = .error c ∧ t = raiseFault c s := by
  cases r with
  | ok u => exact .inl (by simpa using h)
  | error c => exact .inr ⟨c, rfl, by simpa using h.symm⟩

/-! ## The bitmap -/

/-- A bitmap read inside the page answers the byte and records it. -/
theorem bitmapRead_of_lt (s : State) (p : BitVec 1) {a : Nat} (h : a < 8192) :
    bitmapRead p a s = .ok (s.bitmap.read (cellAddr p a), s.emit (.read p a (s.bitmap.read (cellAddr p a)))) := by
  simp [bitmapRead, Nat.not_le.mpr h]

/-- A bitmap read past the page is refused with `ADDR_RANGE`. -/
theorem bitmapRead_of_le (s : State) (p : BitVec 1) {a : Nat} (h : 8192 ≤ a) :
    bitmapRead p a s = .error .addrRange := by
  simp [bitmapRead, h]

/-- The three results of a fetch. -/
theorem fetchByte_cases (s : State) :
    (s.i = 40 ∧ fetchByte s = .ok (0, s)) ∨
    (s.i ≠ 40 ∧ s.ofs.toNat + s.i.toNat < 8192 ∧ fetchByte s =
      .ok (s.bitmap.read (cellAddr s.psel (s.ofs.toNat + s.i.toNat)),
        s.emit (.read s.psel (s.ofs.toNat + s.i.toNat)
          (s.bitmap.read (cellAddr s.psel (s.ofs.toNat + s.i.toNat)))))) ∨
    (s.i ≠ 40 ∧ 8192 ≤ s.ofs.toNat + s.i.toNat ∧ fetchByte s = .error .addrRange) := by
  by_cases hi : s.i = 40
  · exact .inl ⟨hi, by simp [fetchByte, hi]⟩
  · by_cases ha : s.ofs.toNat + s.i.toNat < 8192
    · exact .inr (.inl ⟨hi, ha, by rw [fetchByte, if_neg hi, bitmapRead_of_lt s _ ha]⟩)
    · have ha' : 8192 ≤ s.ofs.toNat + s.i.toNat := by omega
      exact .inr (.inr ⟨hi, ha', by rw [fetchByte, if_neg hi, bitmapRead_of_le s _ ha']⟩)

/-- A fetch instruction ends with the synthetic byte, with one byte read, or in the fault `ADDR_RANGE`. -/
theorem fetch_cases {s t : State} {i : Instr} {st : St} (hi : i = .cFetch ∧ st = afterCFetch s.i ∨ i = .mFetch ∧ st = .mInject)
    (h : exec i s = .next t) :
    (s.i = 40 ∧ t = { s with byte := 0, st := st }) ∨
    (s.i ≠ 40 ∧ s.ofs.toNat + s.i.toNat < 8192 ∧ ∃ v,
      v = s.bitmap.read (cellAddr s.psel (s.ofs.toNat + s.i.toNat)) ∧
      t = { s with byte := v, history := s.history ++ [.read s.psel (s.ofs.toNat + s.i.toNat) v], st := st }) ∨
    (s.i ≠ 40 ∧ 8192 ≤ s.ofs.toNat + s.i.toNat ∧ t = raiseFault .addrRange s) := by
  rcases hi with ⟨rfl, rfl⟩ | ⟨rfl, rfl⟩ <;> simp only [exec, execCFetch, execMFetch] at h <;>
    rcases fetchByte_cases s with ⟨h1, h2⟩ | ⟨h1, h2, h3⟩ | ⟨h1, h2, h3⟩
  · exact .inl ⟨h1, by simpa [h2] using h.symm⟩
  · exact .inr (.inl ⟨h1, h2, _, rfl, by simpa [h3, State.emit] using h.symm⟩)
  · exact .inr (.inr ⟨h1, h2, by simpa [h3] using h.symm⟩)
  · exact .inl ⟨h1, by simpa [h2] using h.symm⟩
  · exact .inr (.inl ⟨h1, h2, _, rfl, by simpa [h3, State.emit] using h.symm⟩)
  · exact .inr (.inr ⟨h1, h2, by simpa [h3] using h.symm⟩)

/-! ## The output buffers -/

/-- The three results of a buffer write. -/
theorem bufWrite_cases (s : State) (j : Nat) (t : Triple) :
    (s.own[s.bufid]? = some .held ∧ j < 280 ∧
      bufWrite s.bufid j t s = .ok { s with buf := s.buf.modify s.bufid (fun l => l.put j t) }) ∨
    (s.own[s.bufid]? ≠ some .held ∧ bufWrite s.bufid j t s = .error .bufOwnership) ∨
    (s.own[s.bufid]? = some .held ∧ 280 ≤ j ∧ bufWrite s.bufid j t s = .error .indexRange) := by
  by_cases hown : s.own[s.bufid]? = some .held
  · by_cases hj : j < 280
    · exact .inl ⟨hown, hj, by simp [bufWrite, hown, Nat.not_le.mpr hj]⟩
    · exact .inr (.inr ⟨hown, by omega, by simp [bufWrite, hown, Nat.not_lt.mp hj]⟩)
  · exact .inr (.inl ⟨hown, by simp [bufWrite, hown]⟩)

/-- An emit writes its triple into the held buffer, or takes the fault of the guard that fires. -/
theorem emitTriple_cases {s t : State} {tr : Triple} {next : St} (h : emitTriple tr next s = .next t) :
    (s.own[s.bufid]? = some .held ∧ s.j.toNat < 280 ∧
      t = { s with buf := s.buf.modify s.bufid (fun l => l.put s.j.toNat tr), j := s.j + 1, st := next }) ∨
    (s.own[s.bufid]? ≠ some .held ∧ t = raiseFault .bufOwnership s) ∨
    (s.own[s.bufid]? = some .held ∧ 280 ≤ s.j.toNat ∧ t = raiseFault .indexRange s) := by
  simp only [emitTriple] at h
  rcases bufWrite_cases s s.j.toNat tr with ⟨h1, h2, h3⟩ | ⟨h1, h2⟩ | ⟨h1, h2, h3⟩
  · exact .inl ⟨h1, h2, by simpa [h3] using h.symm⟩
  · exact .inr (.inl ⟨h1, by simpa [h2] using h.symm⟩)
  · exact .inr (.inr ⟨h1, h2, by simpa [h3] using h.symm⟩)

/-- Reading a buffer after one triple is put into it. -/
theorem LineBuf.put_ch (l : LineBuf) (j n : Nat) (t : Triple) (hj : j < 280) :
    (l.put j t).ch0[n]? = (if n = j then some t.s0 else l.ch0[n]?) ∧
    (l.put j t).ch1[n]? = (if n = j then some t.s1 else l.ch1[n]?) ∧
    (l.put j t).ch2[n]? = (if n = j then some t.s2 else l.ch2[n]?) := by
  simp only [LineBuf.put, Vector.getElem?_setIfInBounds]
  by_cases h : j = n
  · subst h; simp [hj]
  · simp [h, Ne.symm h]

/-- The triple at a position after one triple is put into a buffer. -/
theorem LineBuf.tripleAt_put (l : LineBuf) (j n : Nat) (t : Triple) (hj : j < 280) :
    (l.put j t).tripleAt n = if n = j then t else l.tripleAt n := by
  have ⟨h1, h2, h3⟩ := LineBuf.put_ch l j n t hj
  simp only [LineBuf.tripleAt, h1, h2, h3]
  split_ifs <;> simp

/-- A modified entry of a list is a set entry. -/
theorem modify_eq_set {α : Type} (l : List α) (i : Nat) (f : α → α) {x : α} (h : l[i]? = some x) :
    l.modify i f = l.set i (f x) := by
  rw [List.modify_eq_set_getElem?, h]
  rfl

/-! ## Ownership -/

/-- `lowestFree` answers a free buffer below which none is free. -/
theorem lowestFree_some {own : List Own} {b : Nat} :
    lowestFree own = some b ↔ own[b]? = some .free ∧ ∀ b', b' < b → own[b']? ≠ some .free := by
  simp only [lowestFree, List.findIdx?_eq_some_iff_getElem, decide_eq_true_eq, List.getElem?_eq_some_iff]
  constructor
  · rintro ⟨h1, h2, h3⟩
    exact ⟨⟨h1, h2⟩, fun b' hb' h4 => h3 b' hb' (List.getElem?_eq_some_iff.mp h4).2⟩
  · rintro ⟨⟨h1, h2⟩, h3⟩
    exact ⟨h1, h2, fun b' hb' h5 => h3 b' hb' (List.getElem?_eq_some_iff.mpr ⟨by omega, h5⟩)⟩

/-- `lowestFree` answers none exactly when no buffer is free. -/
theorem lowestFree_none {own : List Own} : lowestFree own = none ↔ ∀ b : Nat, own[b]? ≠ some .free := by
  simp only [lowestFree, List.findIdx?_eq_none_iff, decide_eq_false_iff_not]
  constructor
  · intro h b hb
    exact h _ (List.mem_of_getElem? hb) rfl
  · intro h o ho hfree
    obtain ⟨b, hb⟩ := List.getElem?_of_mem ho
    exact h b (hfree ▸ hb)

/-- `L_ACQ` takes the lowest free buffer, or holds. -/
theorem lAcq_cases {s t : State} (h : exec .lAcq s = .next t) :
    ((∀ b : Nat, s.own[b]? ≠ some .free) ∧ t = s) ∨
    ∃ b, s.own[b]? = some .free ∧ (∀ b', b' < b → s.own[b']? ≠ some .free) ∧
      t = { s with own := s.own.set b .held, bufid := b, history := s.history ++ [.acquire b], st := .lMode } := by
  simp only [exec, execLAcq] at h
  cases hl : lowestFree s.own with
  | none => exact .inl ⟨lowestFree_none.mp hl, by simpa [hl, hold] using h.symm⟩
  | some b => exact .inr ⟨b, (lowestFree_some.mp hl).1, (lowestFree_some.mp hl).2, by simpa [hl] using h.symm⟩

/-- `L_SUBMIT` hands the buffer over, or takes the fault of the guard that fires. -/
theorem lSubmit_cases {s t : State} (h : exec .lSubmit s = .next t) :
    (∃ l, s.own[s.bufid]? = some .held ∧ s.buf[s.bufid]? = some l ∧ s.j = 280 ∧ t = { s with
      own := s.own.set s.bufid .transport
      history := s.history ++ [.submit s.bufid s.line s.monoL l.ch0 l.ch1 l.ch2]
      line := if s.ret then s.line + 1 else s.line
      st := if s.ret then .fNext else .idle }) ∨
    ((s.own[s.bufid]? ≠ some .held ∨ s.buf[s.bufid]? = none) ∧ t = raiseFault .bufOwnership s) ∨
    (s.own[s.bufid]? = some .held ∧ s.j ≠ 280 ∧ t = raiseFault .symCount s) := by
  simp only [exec, execLSubmit] at h
  by_cases hown : s.own[s.bufid]? = some .held
  · cases hbuf : s.buf[s.bufid]? with
    | none => exact .inr (.inl ⟨.inr rfl, by simpa [hown, hbuf] using h.symm⟩)
    | some l =>
      by_cases hj : s.j = 280
      · exact .inl ⟨l, hown, rfl, hj, by simpa [hown, hbuf, hj, submitEvent] using h.symm⟩
      · refine .inr (.inr ⟨hown, hj, ?_⟩)
        simp only [hown, hbuf, ne_eq, hj, not_false_eq_true, if_true, settle_error] at h
        simpa using h.symm
  · refine .inr (.inl ⟨.inl hown, ?_⟩)
    have hne : ∀ l, ¬ (s.own[s.bufid]? = some .held ∧ s.buf[s.bufid]? = some l) := fun l hl => hown hl.1
    split at h
    · exact absurd ‹_› hown
    · simpa using h.symm

/-! ## The frame's states -/

/-- The four results of `F_NEXT`. -/
theorem fNext_cases {s t : State} (h : exec .fNext s = .next t) :
    (s.line.toNat < s.nl.toNat ∧ t = { s with st := .lPsel }) ∨
    (s.nl.toNat ≤ s.line.toNat ∧ s.mixedL = true ∧ s.txtAck = true ∧ t = s) ∨
    (s.nl.toNat ≤ s.line.toNat ∧ s.mixedL = true ∧ s.txtAck = false ∧
      t = { s with txtReq := true, history := s.history ++ [.textReq], st := .fText }) ∨
    (s.nl.toNat ≤ s.line.toNat ∧ s.mixedL = false ∧ t = { s with st := .idle }) := by
  simp only [exec, execFNext, hold] at h
  split_ifs at h with h1 h2 h3
  · exact .inl ⟨h1, by simpa using h.symm⟩
  · exact .inr (.inl ⟨by omega, h2, h3, by simpa using h.symm⟩)
  · exact .inr (.inr (.inl ⟨by omega, h2, by simpa using h3, by simpa using h.symm⟩))
  · exact .inr (.inr (.inr ⟨by omega, by simpa using h2, by simpa using h.symm⟩))

/-- The two results of `F_TEXT`. -/
theorem fText_cases {s t : State} (h : exec .fText s = .next t) :
    (s.txtAck = true ∧ t = { s with txtReq := false, history := s.history ++ [.textDone], st := .idle }) ∨
    (s.txtAck = false ∧ t = s) := by
  simp only [exec, execFText, hold] at h
  split_ifs at h with h1
  · exact .inl ⟨h1, by simpa using h.symm⟩
  · exact .inr ⟨by simpa using h1, by simpa using h.symm⟩

/-! ## Commands -/

/-- The two results of `LINE`. -/
theorem line_cases {s t : State} {n : BitVec 8} (h : exec (.line n) s = .next t) :
    (n.toNat < 192 ∧ t = { acceptCmd s with line := n, ret := false, st := .lPsel }) ∨
    (192 ≤ n.toNat ∧ t = raiseFault .lineRange (acceptCmd s)) := by
  simp only [exec, execLine] at h
  split_ifs at h with h1
  · exact .inr ⟨h1, by simpa using h.symm⟩
  · exact .inl ⟨by omega, by simpa using h.symm⟩

/-- The two results of `MAPQ`. -/
theorem mapq_cases {s t : State} {n : BitVec 8} (h : exec (.mapq n) s = .next t) :
    (n.toNat < 192 ∧ t = { acceptCmd s with line := n, st := .qMap }) ∨
    (192 ≤ n.toNat ∧ t = raiseFault .lineRange (acceptCmd s)) := by
  simp only [exec, execMapq] at h
  split_ifs at h with h1
  · exact .inr ⟨h1, by simpa using h.symm⟩
  · exact .inl ⟨by omega, by simpa using h.symm⟩

/-- A command that `decodeCmd` accepts has a line below 192, if it has one. -/
theorem decodeCmd_ok {w : BitVec 16} {c : Cmd} (h : decodeCmd w = .ok c) : c.toInstr.wellFormed = true := by
  unfold decodeCmd at h
  cases hr : readCmd w with
  | none => simp [hr] at h
  | some d =>
    simp only [hr] at h
    split_ifs at h with hw
    cases h
    exact hw

/-- Everything a DECODE step can do. -/
theorem idleDecode_cases {s t : State} (h : exec .idleDecode s = .next t) :
    (s.cmdValid = false ∧ t = s) ∨
    (s.cmdValid = true ∧
      ((∃ c, decodeCmd s.cmd = .error c ∧ t = raiseFault c (acceptCmd s)) ∨
       (decodeCmd s.cmd = .ok .nop ∧ t = { acceptCmd s with st := .idle }) ∨
       (decodeCmd s.cmd = .ok .frame ∧ t = { acceptCmd s with st := .fStart }) ∨
       (∃ n, decodeCmd s.cmd = .ok (.line n) ∧ n.toNat < 192 ∧
         t = { acceptCmd s with line := n, ret := false, st := .lPsel }) ∨
       (∃ n, decodeCmd s.cmd = .ok (.mapq n) ∧ n.toNat < 192 ∧ t = { acceptCmd s with line := n, st := .qMap }) ∨
       (decodeCmd s.cmd = .ok .pselq ∧ t = { acceptCmd s with st := .qPsel }))) := by
  simp only [exec, execIdleDecode, hold] at h
  cases hv : s.cmdValid with
  | false => exact .inl ⟨rfl, by simpa [hv] using h.symm⟩
  | true =>
    refine .inr ⟨rfl, ?_⟩
    simp only [hv, Bool.true_eq_false, if_false] at h
    cases hd : decodeCmd s.cmd with
    | error c => exact .inl ⟨c, rfl, by simpa [hd] using h.symm⟩
    | ok c =>
      have hw := decodeCmd_ok hd
      simp only [hd] at h
      cases c with
      | nop => exact .inr (.inl ⟨rfl, by simpa [execNop] using h.symm⟩)
      | frame => exact .inr (.inr (.inl ⟨rfl, by simpa [execFrame] using h.symm⟩))
      | line n =>
        rcases line_cases (t := t) (s := s) (n := n) h with ⟨h1, h2⟩ | ⟨h1, h2⟩
        · exact .inr (.inr (.inr (.inl ⟨n, rfl, h1, h2⟩)))
        · simp only [Cmd.toInstr, Instr.wellFormed, decide_eq_true_eq] at hw
          omega
      | mapq n =>
        rcases mapq_cases (t := t) (s := s) (n := n) h with ⟨h1, h2⟩ | ⟨h1, h2⟩
        · exact .inr (.inr (.inr (.inr (.inl ⟨n, rfl, h1, h2⟩))))
        · simp only [Cmd.toInstr, Instr.wellFormed, decide_eq_true_eq] at hw
          omega
      | pselq => exact .inr (.inr (.inr (.inr (.inr ⟨rfl, by simpa [execPselq] using h.symm⟩))))

end Sys2Proof.Machine
end

