-- ==== Sys2Proof/Laws/PerInstr.lean ====
section
/-! SUPPORT. The family `TableRow`: every instruction's word has the fixed bits of its row of spec/opcode_table.json, and
the decoder reads the instruction back from that word. -/

namespace Sys2Proof.Laws.TableRow

/-- The rows of spec/opcode_table.json: the bits of the format, the mask and the match. -/
def row : Instr → Nat × Nat × Nat
  | .nop => (16, 0xFFFF, 0x0000)
  | .frame => (16, 0xFFFF, 0x1000)
  | .line _ => (16, 0xFF00, 0x2000)
  | .mapq _ => (16, 0xFF00, 0x3000)
  | .pselq => (16, 0xFFFF, 0x4000)
  | .idleDecode => (5, 0x1F, 0x00)
  | .fStart => (5, 0x1F, 0x01)
  | .fNext => (5, 0x1F, 0x02)
  | .fText => (5, 0x1F, 0x03)
  | .lPsel => (5, 0x1F, 0x04)
  | .lMap => (5, 0x1F, 0x05)
  | .lAcq => (5, 0x1F, 0x06)
  | .lMode => (5, 0x1F, 0x07)
  | .cSeed => (5, 0x1F, 0x08)
  | .cFetch => (5, 0x1F, 0x09)
  | .cBleed => (5, 0x1F, 0x0A)
  | .cMerge => (5, 0x1F, 0x0B)
  | .cEmit => (5, 0x1F, 0x0C)
  | .cShift => (5, 0x1F, 0x0D)
  | .qMap => (5, 0x1F, 0x0E)
  | .qPsel => (5, 0x1F, 0x0F)
  | .mFetch => (5, 0x1F, 0x10)
  | .mInject => (5, 0x1F, 0x11)
  | .mMerge => (5, 0x1F, 0x12)
  | .mEmit => (5, 0x1F, 0x13)
  | .mDrain => (5, 0x1F, 0x14)
  | .lSubmit => (5, 0x1F, 0x15)
  | .faultHalt => (5, 0x1F, 0x1F)

/-- The word of an instruction as the table numbers it: how many bits, and their value. -/
def word (i : Instr) : Nat × Nat :=
  match encode i with
  | .cmd16 w => (16, w.toNat)
  | .uop5 c => (5, c.toNat)

/-- The word of `i` lies in its row, and decodes to `i`. -/
def Statement (i : Instr) : Prop :=
  (word i).1 = (row i).1 ∧ (word i).2 &&& (row i).2.1 = (row i).2.2 ∧ decodeTableWord (word i).1 (word i).2 = some i

theorem nop : Statement .nop := by unfold Statement; decide
theorem frame : Statement .frame := by unfold Statement; decide
theorem line (n : BitVec 8) : Statement (.line n) := by
  unfold Statement
  revert n
  decide +kernel
theorem mapq (n : BitVec 8) : Statement (.mapq n) := by
  unfold Statement
  revert n
  decide +kernel
theorem pselq : Statement .pselq := by unfold Statement; decide
theorem idleDecode : Statement .idleDecode := by unfold Statement; decide
theorem fStart : Statement .fStart := by unfold Statement; decide
theorem fNext : Statement .fNext := by unfold Statement; decide
theorem fText : Statement .fText := by unfold Statement; decide
theorem lPsel : Statement .lPsel := by unfold Statement; decide
theorem lMap : Statement .lMap := by unfold Statement; decide
theorem lAcq : Statement .lAcq := by unfold Statement; decide
theorem lMode : Statement .lMode := by unfold Statement; decide
theorem cSeed : Statement .cSeed := by unfold Statement; decide
theorem cFetch : Statement .cFetch := by unfold Statement; decide
theorem cBleed : Statement .cBleed := by unfold Statement; decide
theorem cMerge : Statement .cMerge := by unfold Statement; decide
theorem cEmit : Statement .cEmit := by unfold Statement; decide
theorem cShift : Statement .cShift := by unfold Statement; decide
theorem qMap : Statement .qMap := by unfold Statement; decide
theorem qPsel : Statement .qPsel := by unfold Statement; decide
theorem mFetch : Statement .mFetch := by unfold Statement; decide
theorem mInject : Statement .mInject := by unfold Statement; decide
theorem mMerge : Statement .mMerge := by unfold Statement; decide
theorem mEmit : Statement .mEmit := by unfold Statement; decide
theorem mDrain : Statement .mDrain := by unfold Statement; decide
theorem lSubmit : Statement .lSubmit := by unfold Statement; decide
theorem faultHalt : Statement .faultHalt := by unfold Statement; decide

end Sys2Proof.Laws.TableRow
end

