-- ==== Sys2Proof/Laws/Runs.lean ====
section
/-! SUPPORT. Runs of several steps, and the induction over them, packaged once. -/

namespace Sys2Proof.Machine

/-- A run of one more step is a step and then the run. -/
theorem runSteps_succ {n : Nat} {s t : State} (h : runSteps (n + 1) s = .next t) :
    ∃ u, step s = .next u ∧ runSteps n u = .next t := by
  simp only [runSteps] at h
  split at h
  · exact ⟨_, ‹_›, h⟩
  · cases h
  · cases h

/-- What every step keeps, every run keeps. -/
theorem runSteps_keeps {P : State → Prop} (hP : ∀ s t, P s → step s = .next t → P t) {n : Nat} {s t : State}
    (h : P s) (hr : runSteps n s = .next t) : P t := by
  induction n generalizing s with
  | zero => cases hr; exact h
  | succ n ih =>
    obtain ⟨u, h1, h2⟩ := runSteps_succ hr
    exact ih (hP s u h h1) h2

/-- A step is a renderer step or the step of the agent at the head of the schedule. -/
theorem step_cases {s t : State} (h : step s = .next t) :
    (s.schedule = [] ∧ rendererStep s = .next t) ∨
    ∃ a rest, s.schedule = a :: rest ∧ agentStep a { s with schedule := rest } = .next t := by
  unfold step at h
  split at h
  · exact .inl ⟨‹_›, h⟩
  · exact .inr ⟨_, _, ‹_›, h⟩

/-- The number of buffers after a reset. -/
theorem buffersAny_length (n m b : Nat) : (buffersAny n m b).length = m := by
  induction m generalizing b with
  | zero => rfl
  | succ m ih => simp [buffersAny, ih]

/-- The bounds a legal configuration gives. -/
theorem Config.wf_bounds {c : Config} (h : c.wf = true) : 1 ≤ c.nbuf ∧ c.monoLoadLimit ≤ 18 := by
  simp only [Config.wf, Bool.and_eq_true, decide_eq_true_eq] at h
  exact ⟨h.1.1.1, h.1.1.2⟩

end Sys2Proof.Machine
end

