-- ==== Sys2Proof/Laws/State.lean ====
section
/-! SUPPORT. The small lemmas of the named updates of State: one per field and update, all true by definition. -/

namespace Sys2Proof.Machine

/-! ## Emitting an event -/

@[simp] theorem emit_st (s : State) (e : Event) : (s.emit e).st = s.st := rfl
@[simp] theorem emit_w (s : State) (e : Event) : (s.emit e).w = s.w := rfl
@[simp] theorem emit_odd (s : State) (e : Event) : (s.emit e).odd = s.odd := rfl
@[simp] theorem emit_dotc (s : State) (e : Event) : (s.emit e).dotc = s.dotc := rfl
@[simp] theorem emit_lastdot (s : State) (e : Event) : (s.emit e).lastdot = s.lastdot := rfl
@[simp] theorem emit_byte (s : State) (e : Event) : (s.emit e).byte = s.byte := rfl
@[simp] theorem emit_i (s : State) (e : Event) : (s.emit e).i = s.i := rfl
@[simp] theorem emit_k (s : State) (e : Event) : (s.emit e).k = s.k := rfl
@[simp] theorem emit_j (s : State) (e : Event) : (s.emit e).j = s.j := rfl
@[simp] theorem emit_line (s : State) (e : Event) : (s.emit e).line = s.line := rfl
@[simp] theorem emit_ofs (s : State) (e : Event) : (s.emit e).ofs = s.ofs := rfl
@[simp] theorem emit_psel (s : State) (e : Event) : (s.emit e).psel = s.psel := rfl
@[simp] theorem emit_monoL (s : State) (e : Event) : (s.emit e).monoL = s.monoL := rfl
@[simp] theorem emit_mixedL (s : State) (e : Event) : (s.emit e).mixedL = s.mixedL := rfl
@[simp] theorem emit_nl (s : State) (e : Event) : (s.emit e).nl = s.nl := rfl
@[simp] theorem emit_ret (s : State) (e : Event) : (s.emit e).ret = s.ret := rfl
@[simp] theorem emit_bufid (s : State) (e : Event) : (s.emit e).bufid = s.bufid := rfl
@[simp] theorem emit_result (s : State) (e : Event) : (s.emit e).result = s.result := rfl
@[simp] theorem emit_fvalid (s : State) (e : Event) : (s.emit e).fvalid = s.fvalid := rfl
@[simp] theorem emit_fcode (s : State) (e : Event) : (s.emit e).fcode = s.fcode := rfl
@[simp] theorem emit_fst (s : State) (e : Event) : (s.emit e).fst = s.fst := rfl
@[simp] theorem emit_fline (s : State) (e : Event) : (s.emit e).fline = s.fline := rfl
@[simp] theorem emit_mode (s : State) (e : Event) : (s.emit e).mode = s.mode := rfl
@[simp] theorem emit_cmd (s : State) (e : Event) : (s.emit e).cmd = s.cmd := rfl
@[simp] theorem emit_cmdValid (s : State) (e : Event) : (s.emit e).cmdValid = s.cmdValid := rfl
@[simp] theorem emit_txtReq (s : State) (e : Event) : (s.emit e).txtReq = s.txtReq := rfl
@[simp] theorem emit_txtAck (s : State) (e : Event) : (s.emit e).txtAck = s.txtAck := rfl
@[simp] theorem emit_own (s : State) (e : Event) : (s.emit e).own = s.own := rfl
@[simp] theorem emit_buf (s : State) (e : Event) : (s.emit e).buf = s.buf := rfl
@[simp] theorem emit_bitmap (s : State) (e : Event) : (s.emit e).bitmap = s.bitmap := rfl
@[simp] theorem emit_history (s : State) (e : Event) : (s.emit e).history = s.history ++ [e] := rfl
@[simp] theorem emit_cfg (s : State) (e : Event) : (s.emit e).cfg = s.cfg := rfl
@[simp] theorem emit_schedule (s : State) (e : Event) : (s.emit e).schedule = s.schedule := rfl
@[simp] theorem emit_resets (s : State) (e : Event) : (s.emit e).resets = s.resets := rfl

/-! ## Accepting a command -/

@[simp] theorem acceptCmd_st (s : State) : (acceptCmd s).st = s.st := rfl
@[simp] theorem acceptCmd_w (s : State) : (acceptCmd s).w = s.w := rfl
@[simp] theorem acceptCmd_odd (s : State) : (acceptCmd s).odd = s.odd := rfl
@[simp] theorem acceptCmd_dotc (s : State) : (acceptCmd s).dotc = s.dotc := rfl
@[simp] theorem acceptCmd_lastdot (s : State) : (acceptCmd s).lastdot = s.lastdot := rfl
@[simp] theorem acceptCmd_byte (s : State) : (acceptCmd s).byte = s.byte := rfl
@[simp] theorem acceptCmd_i (s : State) : (acceptCmd s).i = s.i := rfl
@[simp] theorem acceptCmd_k (s : State) : (acceptCmd s).k = s.k := rfl
@[simp] theorem acceptCmd_j (s : State) : (acceptCmd s).j = s.j := rfl
@[simp] theorem acceptCmd_line (s : State) : (acceptCmd s).line = s.line := rfl
@[simp] theorem acceptCmd_ofs (s : State) : (acceptCmd s).ofs = s.ofs := rfl
@[simp] theorem acceptCmd_psel (s : State) : (acceptCmd s).psel = s.psel := rfl
@[simp] theorem acceptCmd_monoL (s : State) : (acceptCmd s).monoL = s.monoL := rfl
@[simp] theorem acceptCmd_mixedL (s : State) : (acceptCmd s).mixedL = s.mixedL := rfl
@[simp] theorem acceptCmd_nl (s : State) : (acceptCmd s).nl = s.nl := rfl
@[simp] theorem acceptCmd_ret (s : State) : (acceptCmd s).ret = s.ret := rfl
@[simp] theorem acceptCmd_bufid (s : State) : (acceptCmd s).bufid = s.bufid := rfl
@[simp] theorem acceptCmd_result (s : State) : (acceptCmd s).result = s.result := rfl
@[simp] theorem acceptCmd_fvalid (s : State) : (acceptCmd s).fvalid = s.fvalid := rfl
@[simp] theorem acceptCmd_fcode (s : State) : (acceptCmd s).fcode = s.fcode := rfl
@[simp] theorem acceptCmd_fst (s : State) : (acceptCmd s).fst = s.fst := rfl
@[simp] theorem acceptCmd_fline (s : State) : (acceptCmd s).fline = s.fline := rfl
@[simp] theorem acceptCmd_mode (s : State) : (acceptCmd s).mode = s.mode := rfl
@[simp] theorem acceptCmd_cmd (s : State) : (acceptCmd s).cmd = s.cmd := rfl
@[simp] theorem acceptCmd_cmdValid (s : State) : (acceptCmd s).cmdValid = false := rfl
@[simp] theorem acceptCmd_txtReq (s : State) : (acceptCmd s).txtReq = s.txtReq := rfl
@[simp] theorem acceptCmd_txtAck (s : State) : (acceptCmd s).txtAck = s.txtAck := rfl
@[simp] theorem acceptCmd_own (s : State) : (acceptCmd s).own = s.own := rfl
@[simp] theorem acceptCmd_buf (s : State) : (acceptCmd s).buf = s.buf := rfl
@[simp] theorem acceptCmd_bitmap (s : State) : (acceptCmd s).bitmap = s.bitmap := rfl
@[simp] theorem acceptCmd_history (s : State) : (acceptCmd s).history = s.history ++ [.accept s.cmd] := rfl
@[simp] theorem acceptCmd_cfg (s : State) : (acceptCmd s).cfg = s.cfg := rfl
@[simp] theorem acceptCmd_schedule (s : State) : (acceptCmd s).schedule = s.schedule := rfl
@[simp] theorem acceptCmd_resets (s : State) : (acceptCmd s).resets = s.resets := rfl

/-! ## Fault entry -/

@[simp] theorem raiseFault_st (c : FaultCode) (s : State) : (raiseFault c s).st = .fault := rfl
@[simp] theorem raiseFault_w (c : FaultCode) (s : State) : (raiseFault c s).w = s.w := rfl
@[simp] theorem raiseFault_odd (c : FaultCode) (s : State) : (raiseFault c s).odd = s.odd := rfl
@[simp] theorem raiseFault_dotc (c : FaultCode) (s : State) : (raiseFault c s).dotc = s.dotc := rfl
@[simp] theorem raiseFault_lastdot (c : FaultCode) (s : State) : (raiseFault c s).lastdot = s.lastdot := rfl
@[simp] theorem raiseFault_byte (c : FaultCode) (s : State) : (raiseFault c s).byte = s.byte := rfl
@[simp] theorem raiseFault_i (c : FaultCode) (s : State) : (raiseFault c s).i = s.i := rfl
@[simp] theorem raiseFault_k (c : FaultCode) (s : State) : (raiseFault c s).k = s.k := rfl
@[simp] theorem raiseFault_j (c : FaultCode) (s : State) : (raiseFault c s).j = s.j := rfl
@[simp] theorem raiseFault_line (c : FaultCode) (s : State) : (raiseFault c s).line = s.line := rfl
@[simp] theorem raiseFault_ofs (c : FaultCode) (s : State) : (raiseFault c s).ofs = s.ofs := rfl
@[simp] theorem raiseFault_psel (c : FaultCode) (s : State) : (raiseFault c s).psel = s.psel := rfl
@[simp] theorem raiseFault_monoL (c : FaultCode) (s : State) : (raiseFault c s).monoL = s.monoL := rfl
@[simp] theorem raiseFault_mixedL (c : FaultCode) (s : State) : (raiseFault c s).mixedL = s.mixedL := rfl
@[simp] theorem raiseFault_nl (c : FaultCode) (s : State) : (raiseFault c s).nl = s.nl := rfl
@[simp] theorem raiseFault_ret (c : FaultCode) (s : State) : (raiseFault c s).ret = s.ret := rfl
@[simp] theorem raiseFault_bufid (c : FaultCode) (s : State) : (raiseFault c s).bufid = s.bufid := rfl
@[simp] theorem raiseFault_result (c : FaultCode) (s : State) : (raiseFault c s).result = s.result := rfl
@[simp] theorem raiseFault_fvalid (c : FaultCode) (s : State) : (raiseFault c s).fvalid = true := rfl
@[simp] theorem raiseFault_fcode (c : FaultCode) (s : State) : (raiseFault c s).fcode = c.code := rfl
@[simp] theorem raiseFault_fst (c : FaultCode) (s : State) : (raiseFault c s).fst = s.st.code := rfl
@[simp] theorem raiseFault_fline (c : FaultCode) (s : State) : (raiseFault c s).fline = s.faultLine := rfl
@[simp] theorem raiseFault_mode (c : FaultCode) (s : State) : (raiseFault c s).mode = s.mode := rfl
@[simp] theorem raiseFault_cmd (c : FaultCode) (s : State) : (raiseFault c s).cmd = s.cmd := rfl
@[simp] theorem raiseFault_cmdValid (c : FaultCode) (s : State) : (raiseFault c s).cmdValid = s.cmdValid := rfl
@[simp] theorem raiseFault_txtReq (c : FaultCode) (s : State) : (raiseFault c s).txtReq = s.txtReq := rfl
@[simp] theorem raiseFault_txtAck (c : FaultCode) (s : State) : (raiseFault c s).txtAck = s.txtAck := rfl
@[simp] theorem raiseFault_own (c : FaultCode) (s : State) : (raiseFault c s).own = s.own := rfl
@[simp] theorem raiseFault_buf (c : FaultCode) (s : State) : (raiseFault c s).buf = s.buf := rfl
@[simp] theorem raiseFault_bitmap (c : FaultCode) (s : State) : (raiseFault c s).bitmap = s.bitmap := rfl
@[simp] theorem raiseFault_history (c : FaultCode) (s : State) : (raiseFault c s).history = s.history ++ [.fault c.code s.st.code s.faultLine] := rfl
@[simp] theorem raiseFault_cfg (c : FaultCode) (s : State) : (raiseFault c s).cfg = s.cfg := rfl
@[simp] theorem raiseFault_schedule (c : FaultCode) (s : State) : (raiseFault c s).schedule = s.schedule := rfl
@[simp] theorem raiseFault_resets (c : FaultCode) (s : State) : (raiseFault c s).resets = s.resets := rfl

/-! ## Reset -/

@[simp] theorem systemReset_st (s : State) : (systemReset s).st = .idle := rfl
@[simp] theorem systemReset_w (s : State) : (systemReset s).w = 0 := rfl
@[simp] theorem systemReset_odd (s : State) : (systemReset s).odd = false := rfl
@[simp] theorem systemReset_dotc (s : State) : (systemReset s).dotc = 0 := rfl
@[simp] theorem systemReset_lastdot (s : State) : (systemReset s).lastdot = false := rfl
@[simp] theorem systemReset_byte (s : State) : (systemReset s).byte = 0 := rfl
@[simp] theorem systemReset_i (s : State) : (systemReset s).i = 0 := rfl
@[simp] theorem systemReset_k (s : State) : (systemReset s).k = 0 := rfl
@[simp] theorem systemReset_j (s : State) : (systemReset s).j = 0 := rfl
@[simp] theorem systemReset_line (s : State) : (systemReset s).line = 0 := rfl
@[simp] theorem systemReset_ofs (s : State) : (systemReset s).ofs = 0 := rfl
@[simp] theorem systemReset_psel (s : State) : (systemReset s).psel = 0 := rfl
@[simp] theorem systemReset_monoL (s : State) : (systemReset s).monoL = false := rfl
@[simp] theorem systemReset_mixedL (s : State) : (systemReset s).mixedL = false := rfl
@[simp] theorem systemReset_nl (s : State) : (systemReset s).nl = 192 := rfl
@[simp] theorem systemReset_ret (s : State) : (systemReset s).ret = false := rfl
@[simp] theorem systemReset_bufid (s : State) : (systemReset s).bufid = 0 := rfl
@[simp] theorem systemReset_result (s : State) : (systemReset s).result = 0 := rfl
@[simp] theorem systemReset_fvalid (s : State) : (systemReset s).fvalid = false := rfl
@[simp] theorem systemReset_fcode (s : State) : (systemReset s).fcode = 0 := rfl
@[simp] theorem systemReset_fst (s : State) : (systemReset s).fst = 0 := rfl
@[simp] theorem systemReset_fline (s : State) : (systemReset s).fline = 0 := rfl
@[simp] theorem systemReset_mode (s : State) : (systemReset s).mode = s.mode := rfl
@[simp] theorem systemReset_cmd (s : State) : (systemReset s).cmd = 0 := rfl
@[simp] theorem systemReset_cmdValid (s : State) : (systemReset s).cmdValid = false := rfl
@[simp] theorem systemReset_txtReq (s : State) : (systemReset s).txtReq = false := rfl
@[simp] theorem systemReset_txtAck (s : State) : (systemReset s).txtAck = false := rfl
@[simp] theorem systemReset_own (s : State) : (systemReset s).own = List.replicate s.cfg.nbuf .free := rfl
@[simp] theorem systemReset_buf (s : State) : (systemReset s).buf = buffersAny (s.resets + 1) s.cfg.nbuf 0 := rfl
@[simp] theorem systemReset_bitmap (s : State) : (systemReset s).bitmap = s.bitmap := rfl
@[simp] theorem systemReset_history (s : State) : (systemReset s).history = s.history := rfl
@[simp] theorem systemReset_cfg (s : State) : (systemReset s).cfg = s.cfg := rfl
@[simp] theorem systemReset_schedule (s : State) : (systemReset s).schedule = s.schedule := rfl
@[simp] theorem systemReset_resets (s : State) : (systemReset s).resets = s.resets + 1 := rfl

end Sys2Proof.Machine
end

