-- ==== Sys2Proof/Laws/Streams.lean ====
section
/-! SUPPORT. The dot streams bit by bit, that a later byte does not change an earlier dot, and what each operation on
the window and the accumulator does to the part of the stream they hold. -/

namespace Sys2Proof.Machine

variable {c : Config} {bytes : List Byte}

/-! ## The bytes of a line -/

theorem byteAt_append {n : Nat} (v : Byte) (h : n < bytes.length) : byteAt (bytes ++ [v]) n = byteAt bytes n := by
  simp [byteAt, List.getElem?_append, h]

theorem byteAt_append_length (v : Byte) : byteAt (bytes ++ [v]) bytes.length = v := by simp [byteAt]

theorem byteAt_past {n : Nat} (h : bytes.length ≤ n) : byteAt bytes n = 0 := by
  simp [byteAt, List.getElem?_eq_none h]

/-! ## The color stream -/

theorem colorDot_neg {t : Int} (h : t < 0) : colorDot c bytes t = false := by
  rw [colorDot, if_neg (by omega)]

/-- Dot `m` of byte `n`. -/
theorem colorDot_byte {n m : Nat} (hn : n ≤ 40) (hm : m < 14) :
    colorDot c bytes ((14 * n + m : Nat) : Int) = (colorPattern c bytes n).getLsbD (13 - m) := by
  have h1 : (14 * n + m) / 14 = n := by omega
  have h2 : (14 * n + m) % 14 = m := by omega
  simp only [colorDot, Int.toNat_natCast, h1, h2]
  rw [if_pos (by omega)]

/-- A bit of `P_n`: the byte's own pattern, and in bit 13 the bleed bit. -/
theorem getLsbD_colorPattern {n k : Nat} (hk : k < 14) : (colorPattern c bytes n).getLsbD k =
    ((dotpatC c (byteAt bytes n)).getLsbD k || (decide (k = 13) && decide (n ≠ 0) && (byteAt bytes n).getLsbD 7 &&
      (dotpatC c (byteAt bytes (n - 1))).getLsbD 0)) := by
  unfold colorPattern
  by_cases h : n = 0
  · subst h; simp
  · simp only [h, if_false]
    rw [BitVec.getLsbD_or, BitVec.getLsbD_shiftLeft]
    by_cases h13 : k = 13
    · subst h13; simp [h]
    · have h13' : k < 13 := by omega
      simp [h13', h13]

/-- One more byte does not change an earlier dot. -/
theorem colorDot_append {t : Int} (v : Byte) (h : t < 14 * (bytes.length : Int)) :
    colorDot c (bytes ++ [v]) t = colorDot c bytes t := by
  simp only [colorDot, colorPattern]
  split_ifs with ht h0
  · rw [byteAt_append v (by omega)]
  · rw [byteAt_append v (by omega), byteAt_append v (by omega)]
  · rfl

/-! ## The mono stream -/

/-- Dot `m` of byte `n`. -/
theorem monoDot_byte {n m : Nat} (hm : m < 14) : monoDot c bytes (14 * n + m) = (monoPattern c bytes n).getLsbD m := by
  have h1 : (14 * n + m) / 14 = n := by omega
  have h2 : (14 * n + m) % 14 = m := by omega
  simp only [monoDot, h1, h2]

/-- A bit of `Q_n`: the byte's own pattern, and in bit 0 the injected bit. -/
theorem getLsbD_monoPattern {n k : Nat} : (monoPattern c bytes n).getLsbD k =
    ((dotpatM c (byteAt bytes n)).getLsbD k || (decide (k = 0) && (byteAt bytes n).getLsbD 7 && injects c n &&
      (dotpatM c (byteAt bytes (n - 1))).getLsbD 13)) := by
  unfold monoPattern
  rw [BitVec.getLsbD_or, BitVec.getLsbD_setWidth, BitVec.getLsbD_ofBool]
  by_cases h : k = 0
  · subst h; simp
  · simp [h]

/-- One more byte does not change an earlier dot. -/
theorem monoDot_append {t : Nat} (v : Byte) (h : t < 14 * bytes.length) :
    monoDot c (bytes ++ [v]) t = monoDot c bytes t := by
  simp only [monoDot, monoPattern]
  rw [byteAt_append v (by omega), byteAt_append v (by omega)]

/-- One more byte does not change an output whose dots are all read. -/
theorem lineTriple_append {mono : Bool} {n : Nat} (v : Byte)
    (h : 2 * n + 4 < 14 * bytes.length ∨ mono = true ∧ 2 * n + 1 < 14 * bytes.length) :
    lineTriple c mono (bytes ++ [v]) n = lineTriple c mono bytes n := by
  cases mono with
  | false =>
    simp only [Bool.false_eq_true, false_and, or_false] at h
    have hdots : (fun m : Fin 8 => colorDot c (bytes ++ [v]) (2 * (n : Int) + 4 - (m.val : Int))) =
        (fun m : Fin 8 => colorDot c bytes (2 * (n : Int) + 4 - (m.val : Int))) := by
      funext m
      exact colorDot_append v (by omega)
    simp only [lineTriple, colorTriple, colorContext, hdots, Bool.false_eq_true, if_false]
  | true =>
    simp only [lineTriple, monoTriple, if_true]
    rw [monoDot_append v (by omega), monoDot_append v (by omega)]

/-! ## The color window -/

variable {w : BitVec 32}

/-- One more byte does not change what a window holds of the earlier ones. -/
theorem colorHolds_append {p limit : Nat} (v : Byte) (h : colorHolds c bytes w p limit)
    (hl : limit ≤ 14 * bytes.length) : colorHolds c (bytes ++ [v]) w p limit := by
  intro m hm
  rw [h m hm]
  by_cases hlt : (p : Int) + 28 - (m : Int) < (limit : Int)
  · rw [colorDot_append v (by omega)]
  · simp only [hlt, decide_false, Bool.false_and]

/-- The seed puts byte 0 where the first group is consumed. -/
theorem colorHolds_seed : colorHolds c bytes ((dotpatC c (byteAt bytes 0)).setWidth 32 <<< 15) 0 14 := by
  intro m hm
  rw [getLsbD_pattern_shiftLeft _ hm]
  by_cases h1 : 15 ≤ m
  · by_cases h2 : m < 29
    · have e : ((0 : Nat) : Int) + 28 - (m : Int) = ((14 * 0 + (28 - m) : Nat) : Int) := by omega
      have h3 : ((14 * 0 + (28 - m) : Nat) : Int) < ((14 : Nat) : Int) := by omega
      have h4 : 13 - (28 - m) = m - 15 := by omega
      rw [e, colorDot_byte (by omega) (by omega), getLsbD_colorPattern (by omega), h4]
      simp [h1]
      omega
    · rw [colorDot_neg (by omega), BitVec.getLsbD_of_ge _ _ (by omega)]
      simp
  · have h3 : ¬ ((0 : Nat) : Int) + 28 - (m : Int) < ((14 : Nat) : Int) := by omega
    simp only [h1, h3, decide_false, Bool.false_and]

/-- The bleed copies the previous byte's last dot into the empty bit 14 of a delayed byte, and changes no other bit. -/
theorem bleedWindow_bits {n : Nat} (hn : 1 ≤ n) (hn' : n ≤ 40) (b : Byte)
    (h : colorHolds c bytes w (14 * (n - 1)) (14 * n)) :
    (bleedWindow b w).getLsbD 14 = (b.getLsbD 7 && w.getLsbD 15) ∧
    (∀ m : Nat, m < 32 → m ≠ 14 → (bleedWindow b w).getLsbD m = w.getLsbD m) ∧
    w.getLsbD 15 = (dotpatC c (byteAt bytes (n - 1))).getLsbD 0 := by
  have h14 : w.getLsbD 14 = false := by
    rw [h 14 (by omega)]
    have h1 : ¬ ((14 * (n - 1) : Nat) : Int) + 28 - ((14 : Nat) : Int) < ((14 * n : Nat) : Int) := by omega
    simp only [h1, decide_false, Bool.false_and]
  have hmask : ∀ m : Nat, m < 32 → m ≠ 14 → (0x00004000 : BitVec 32).getLsbD m = false := by decide
  refine ⟨?_, fun m hm hne => ?_, ?_⟩
  · simp only [bleedWindow]
    split_ifs with hb
    · rw [BitVec.getLsbD_or, h14, BitVec.getLsbD_and, BitVec.getLsbD_ushiftRight, hb]
      simp
    · rw [h14, Bool.eq_false_iff.mpr hb]
      rfl
  · simp only [bleedWindow]
    split_ifs
    · rw [BitVec.getLsbD_or, BitVec.getLsbD_and, hmask m hm hne]
      simp
    · rfl
  · rw [h 15 (by omega)]
    have e : ((14 * (n - 1) : Nat) : Int) + 28 - ((15 : Nat) : Int) = ((14 * (n - 1) + 13 : Nat) : Int) := by omega
    have h1 : ((14 * (n - 1) + 13 : Nat) : Int) < ((14 * n : Nat) : Int) := by omega
    rw [e, colorDot_byte (by omega) (by omega), getLsbD_colorPattern (by omega)]
    simp only [h1, decide_true, Bool.true_and]
    simp

/-- The merge adds byte `n` below byte `n - 1`. -/
theorem colorHolds_merge {n : Nat} (hn : 1 ≤ n) (hn' : n ≤ 40)
    (h14 : w.getLsbD 14 = ((byteAt bytes n).getLsbD 7 && (dotpatC c (byteAt bytes (n - 1))).getLsbD 0))
    (h : ∀ m : Nat, m < 32 → m ≠ 14 → w.getLsbD m =
      (decide (((14 * (n - 1) : Nat) : Int) + 28 - (m : Int) < ((14 * n : Nat) : Int)) &&
        colorDot c bytes (((14 * (n - 1) : Nat) : Int) + 28 - (m : Int)))) :
    colorHolds c bytes (w ||| ((dotpatC c (byteAt bytes n)).setWidth 32 <<< 1)) (14 * (n - 1)) (14 * (n + 1)) := by
  intro m hm
  rw [BitVec.getLsbD_or, getLsbD_pattern_shiftLeft _ hm]
  by_cases h15 : 15 ≤ m
  · have a1 : ((14 * (n - 1) : Nat) : Int) + 28 - (m : Int) < ((14 * n : Nat) : Int) := by omega
    have a2 : ((14 * (n - 1) : Nat) : Int) + 28 - (m : Int) < ((14 * (n + 1) : Nat) : Int) := by omega
    rw [h m hm (by omega), BitVec.getLsbD_of_ge _ (m - 1) (by omega)]
    simp only [a1, a2, decide_true, Bool.true_and, Bool.and_false, Bool.or_false]
  · by_cases h0 : m = 0
    · subst h0
      have a1 : ¬ ((14 * (n - 1) : Nat) : Int) + 28 - ((0 : Nat) : Int) < ((14 * n : Nat) : Int) := by omega
      have a2 : ¬ ((14 * (n - 1) : Nat) : Int) + 28 - ((0 : Nat) : Int) < ((14 * (n + 1) : Nat) : Int) := by omega
      rw [h 0 (by omega) (by omega)]
      simp only [a1, a2, decide_false, Bool.false_and]
      simp
    · have e : ((14 * (n - 1) : Nat) : Int) + 28 - (m : Int) = ((14 * n + (14 - m) : Nat) : Int) := by omega
      have a2 : ((14 * n + (14 - m) : Nat) : Int) < ((14 * (n + 1) : Nat) : Int) := by omega
      have hk : 13 - (14 - m) = m - 1 := by omega
      rw [e, colorDot_byte (by omega) (by omega), getLsbD_colorPattern (by omega), hk]
      by_cases hm14 : m = 14
      · subst hm14
        have hn0 : n ≠ 0 := by omega
        rw [h14]
        simp only [a2]
        simp [hn0]
        rw [Bool.or_comm]
      · have a1 : ¬ ((14 * n + (14 - m) : Nat) : Int) < ((14 * n : Nat) : Int) := by omega
        have h13 : m - 1 ≠ 13 := by omega
        have h1 : 1 ≤ m := by omega
        rw [h m hm hm14, e]
        simp only [a1, a2, decide_false, Bool.false_and]
        simp [h13, h1]

/-- The shift moves the window by one group. -/
theorem colorHolds_shift {p limit : Nat} (h : colorHolds c bytes w p limit) (hl : limit ≤ p + 29) :
    colorHolds c bytes (w <<< 2) (p + 2) limit := by
  intro m hm
  rw [BitVec.getLsbD_shiftLeft]
  by_cases h2 : m < 2
  · have h1 : ¬ ((p + 2 : Nat) : Int) + 28 - (m : Int) < (limit : Int) := by omega
    simp only [h2, h1]
    simp
  · have e : (p : Int) + 28 - ((m - 2 : Nat) : Int) = ((p + 2 : Nat) : Int) + 28 - (m : Int) := by omega
    rw [h (m - 2) (by omega), e]
    simp [hm, h2]

/-- The triple an emit looks up is the output the closed form gives. -/
theorem clut_cidx {n limit : Nat} {odd : Bool} (h : colorHolds c bytes w (2 * n) limit) (hl : 2 * n + 4 < limit)
    (ho : odd = (n % 2 == 1)) : clut c (cidx c odd w) = colorTriple c bytes n := by
  have hctx : w.extractLsb' 24 8 = colorContext c bytes n := by
    apply BitVec.eq_of_getLsbD_eq
    intro k hk
    have e : ((2 * n : Nat) : Int) + 28 - ((24 + k : Nat) : Int) = 2 * (n : Int) + 4 - (k : Int) := by omega
    have h1 : 2 * (n : Int) + 4 - (k : Int) < (limit : Int) := by omega
    rw [BitVec.getLsbD_extractLsb', h (24 + k) (by omega), colorContext, BitVec.getLsbD_ofFnLE, e]
    simp [h1, hk]
  rw [cidx, contextField_eq, colorTriple, hctx, ho]

/-! ## The mono accumulator -/

/-- The injection changes bit `d` only, to the injected bit of byte `i`. -/
theorem injectWindow_bits {b : Byte} {dotc i : BitVec 6} {last : Bool} (hlim : c.monoLoadLimit ≤ 18)
    (hd : dotc.toNat = if c.monoLoadLimit ≥ 14 ∧ i.toNat % 2 = 1 then 14 else 0) (hw : w.toNat < 2 ^ dotc.toNat)
    (hm : monoHolds c bytes w (14 * i.toNat - dotc.toNat) dotc.toNat)
    (hlast : dotc.toNat = 0 → 0 < i.toNat → last = monoDot c bytes (14 * i.toNat - 1)) :
    (∀ m : Nat, m < dotc.toNat → (injectWindow c.monoBleedMode b w dotc i last).getLsbD m = w.getLsbD m) ∧
    (∀ m : Nat, dotc.toNat < m → m < 32 → (injectWindow c.monoBleedMode b w dotc i last).getLsbD m = false) ∧
    (injectWindow c.monoBleedMode b w dotc i last).getLsbD dotc.toNat =
      (b.getLsbD 7 && injects c i.toNat && (dotpatM c (byteAt bytes (i.toNat - 1))).getLsbD 13) := by
  unfold injectWindow
  generalize dotc.toNat = d at *
  generalize i.toNat = i at *
  have hd32 : d < 32 := by split_ifs at hd <;> omega
  have hge : ∀ m, d ≤ m → w.getLsbD m = false := fun m h => getLsbD_of_toNat_lt hw h
  have h13 : 0 < i → monoDot c bytes (14 * i - 1) = (dotpatM c (byteAt bytes (i - 1))).getLsbD 13 := by
    intro hi
    have e : 14 * i - 1 = 14 * (i - 1) + 13 := by omega
    rw [e, monoDot_byte (by omega), getLsbD_monoPattern]
    simp
  refine ⟨fun m h => ?_, fun m h h32 => ?_, ?_⟩
  · have hne : m ≠ d := by omega
    split_ifs <;> simp [BitVec.getLsbD_or, getLsbD_ofBool_shiftLeft _ (show m < 32 by omega), hne]
  · have hne : m ≠ d := by omega
    split_ifs <;> simp [BitVec.getLsbD_or, getLsbD_ofBool_shiftLeft _ h32, hne, hge m (by omega)]
  · split_ifs with h1 h2 h3
    · have hi : c.monoLoadLimit ≥ 14 ∧ i % 2 = 1 := by
        by_contra h
        rw [if_neg h] at hd
        omega
      have hinj : injects c i = true := by
        unfold injects
        cases c.monoBleedMode <;> simp <;> omega
      have e : 14 * i - d + (d - 1) = 14 * i - 1 := by
        rw [if_pos hi] at hd
        omega
      rw [BitVec.getLsbD_or, getLsbD_ofBool_shiftLeft _ hd32, hge d (by omega), hinj, h1, hm (d - 1) (by omega), e,
        h13 (by omega)]
      simp
    · have h0 : d = 0 := by omega
      have hinj : injects c i = true := by
        unfold injects
        rw [h3.1]
        simp
        omega
      rw [BitVec.getLsbD_or, getLsbD_ofBool_shiftLeft _ hd32, hge d (by omega), hinj, h1, hlast h0 h3.2, h13 h3.2]
      simp
    · have hi : ¬ (c.monoLoadLimit ≥ 14 ∧ i % 2 = 1) := by
        intro h
        rw [if_pos h] at hd
        omega
      have hinj : injects c i = false := by
        unfold injects
        cases hmode : c.monoBleedMode with
        | held =>
          simp only [Bool.and_eq_false_iff, decide_eq_false_iff_not]
          omega
        | every =>
          simp only [hmode, true_and] at h3
          simpa using h3
      rw [hge d (by omega), hinj]
      simp
    · rw [hge d (by omega), Bool.eq_false_iff.mpr h1]
      simp

/-- The merge adds byte `i` above the buffered dots. -/
theorem monoHolds_merge {d i : Nat} (hd : d ≤ 14) (hi : d ≤ 14 * i)
    (hz : ∀ m : Nat, d < m → m < 32 → w.getLsbD m = false) (hm : monoHolds c bytes w (14 * i - d) d)
    (hb : w.getLsbD d = ((byteAt bytes i).getLsbD 7 && injects c i &&
      (dotpatM c (byteAt bytes (i - 1))).getLsbD 13)) :
    monoHolds c bytes (w ||| ((dotpatM c (byteAt bytes i)).setWidth 32 <<< d)) (14 * i - d) (d + 14) ∧
    (w ||| ((dotpatM c (byteAt bytes i)).setWidth 32 <<< d)).toNat < 2 ^ (d + 14) := by
  constructor
  · intro m h
    have h32 : m < 32 := by omega
    rw [BitVec.getLsbD_or, getLsbD_pattern_shiftLeft _ h32]
    by_cases h1 : m < d
    · have h2 : ¬ d ≤ m := by omega
      rw [hm m h1]
      simp [h2]
    · have e : 14 * i - d + m = 14 * i + (m - d) := by omega
      rw [e, monoDot_byte (by omega), getLsbD_monoPattern]
      by_cases h2 : m = d
      · subst h2
        rw [hb]
        simp
        rw [Bool.or_comm]
      · have h3 : ¬ m - d = 0 := by omega
        have h4 : d ≤ m := by omega
        rw [hz m (by omega) h32]
        simp only [h3, h4, decide_true, decide_false, Bool.true_and, Bool.false_and, Bool.false_or, Bool.or_false]
  · apply toNat_lt_of_getLsbD
    intro m h h32
    rw [BitVec.getLsbD_or, getLsbD_pattern_shiftLeft _ h32, hz m (by omega) h32,
      BitVec.getLsbD_of_ge _ (m - d) (by omega)]
    simp

/-- The triple an emit looks up is the output the closed form gives. -/
theorem mlut_midx {n d : Nat} (h : monoHolds c bytes w (2 * n) d) (hd : 2 ≤ d) :
    mlut c (midx w) = monoTriple c bytes n := by
  have h0 := h 0 (by omega)
  have h1 := h 1 (by omega)
  rw [Nat.add_zero] at h0
  rw [monoTriple]
  congr 1
  apply BitVec.eq_of_getLsbD_eq
  intro k hk
  simp only [midx, BitVec.getLsbD_extractLsb']
  rw [BitVec.getLsbD_append, ← h0, ← h1]
  have hk' : k = 0 ∨ k = 1 := by omega
  rcases hk' with rfl | rfl <;> simp

end Sys2Proof.Machine
end

