-- ==== Sys2Proof/Tests/Slice0.lean ====
section
/-! SUPPORT. Tests: decoding against words written out from the spec, the check of well-formedness, one step of each
instruction against the spec's own examples, and a witness for the hypotheses of each obligation. -/

namespace Sys2Proof.Tests

open Sys2Proof.Machine

/-! ## Decoding: one word of each row, bit by bit from 30_encoding.md R93 and R101 -/

theorem test_decode_commands :
    decode (.cmd16 0b0000000000000000#16) = .ok .nop ∧
    decode (.cmd16 0b0001000000000000#16) = .ok .frame ∧
    decode (.cmd16 0b0010000010111111#16) = .ok (.line 191) ∧
    decode (.cmd16 0b0011000001000001#16) = .ok (.mapq 65) ∧
    decode (.cmd16 0b0100000000000000#16) = .ok .pselq := by decide

theorem test_decode_frame_states :
    decode (.uop5 0b00000#5) = .ok .idleDecode ∧ decode (.uop5 0b00001#5) = .ok .fStart ∧
    decode (.uop5 0b00010#5) = .ok .fNext ∧ decode (.uop5 0b00011#5) = .ok .fText ∧
    decode (.uop5 0b01111#5) = .ok .qPsel ∧ decode (.uop5 0b11111#5) = .ok .faultHalt := by decide

theorem test_decode_line_states :
    decode (.uop5 0b00100#5) = .ok .lPsel ∧ decode (.uop5 0b00101#5) = .ok .lMap ∧
    decode (.uop5 0b00110#5) = .ok .lAcq ∧ decode (.uop5 0b00111#5) = .ok .lMode ∧
    decode (.uop5 0b01110#5) = .ok .qMap ∧ decode (.uop5 0b10101#5) = .ok .lSubmit := by decide

theorem test_decode_color_states :
    decode (.uop5 0b01000#5) = .ok .cSeed ∧ decode (.uop5 0b01001#5) = .ok .cFetch ∧
    decode (.uop5 0b01010#5) = .ok .cBleed ∧ decode (.uop5 0b01011#5) = .ok .cMerge ∧
    decode (.uop5 0b01100#5) = .ok .cEmit ∧ decode (.uop5 0b01101#5) = .ok .cShift := by decide

theorem test_decode_mono_states :
    decode (.uop5 0b10000#5) = .ok .mFetch ∧ decode (.uop5 0b10001#5) = .ok .mInject ∧
    decode (.uop5 0b10010#5) = .ok .mMerge ∧ decode (.uop5 0b10011#5) = .ok .mEmit ∧
    decode (.uop5 0b10100#5) = .ok .mDrain := by decide

/-- R94: a reserved opcode, a nonzero `RSV`, a nonzero `IMM8` where it must be 0. -/
theorem test_decode_refuses_illegal_words :
    decode (.cmd16 0x5000#16) = .error .illegalCmd ∧ decode (.cmd16 0xFFFF#16) = .error .illegalCmd ∧
    decode (.cmd16 0x2105#16) = .error .illegalCmd ∧ decode (.cmd16 0x1001#16) = .error .illegalCmd := by decide

/-- R102: the unused state codes at both ends of their range. -/
theorem test_decode_refuses_unused_states :
    decode (.uop5 0x16#5) = .error .unusedState ∧ decode (.uop5 0x1E#5) = .error .unusedState := by decide

/-- R95: a word with both a nonzero `RSV` and a line out of range is `ILLEGAL_CMD`. -/
theorem test_decodeCmd_order :
    decodeCmd 0x20C0#16 = .error .lineRange ∧ decodeCmd 0x21C0#16 = .error .illegalCmd ∧
    decodeCmd 0x30BF#16 = .ok (.mapq 191) := by decide

/-- R96: `LINE 5`, `MAPQ 0x41`, `FRAME`, `PSELQ`, `NOP`. -/
theorem test_encode_words :
    encode (.line 5) = .cmd16 0x2005#16 ∧ encode (.mapq 0x41) = .cmd16 0x3041#16 ∧
    encode .frame = .cmd16 0x1000#16 ∧ encode .pselq = .cmd16 0x4000#16 ∧ encode .nop = .cmd16 0x0000#16 := by decide

/-! ## Well-formedness: an ill-formed term for each check -/

theorem test_wellFormed_refuses_line_192 : (Instr.line 192).wellFormed = false := by decide
theorem test_wellFormed_refuses_mapq_192 : (Instr.mapq 192).wellFormed = false := by decide
theorem test_wellFormed_accepts_191 : (Instr.line 191).wellFormed = true ∧ (Instr.mapq 191).wellFormed = true := by
  decide

/-- 00_scope.md R8, R9: no buffer, a load limit above 18, and a symbol wider than `SYM_BITS` are refused. -/
theorem test_config_refuses : ∃ c : Config, c.wf = true ∧ { c with nbuf := 0 }.wf = false ∧
    { c with monoLoadLimit := 19 }.wf = false ∧ { c with symBits := 9 }.wf = false := by
  refine ⟨⟨1, 18, .held, fixedAt _, fixedAt _, fixedAt _, fixedAt _, fixedAt _, fixedAt _, patternTable defaultDotpatC,
    patternTable defaultDotpatM, clutId, mlutId, 10, 0, 0⟩, ?_⟩
  decide +kernel

/-! ## The state the tests start from -/

/-- Two buffers, the default parameters and the identity tables of 43_lut_indexer.md R199. -/
def testConfig : Config where
  nbuf := 2
  monoLoadLimit := 18
  monoBleedMode := .held
  cseedShift := fixedAt 15
  cmergeShift := fixedAt 1
  ctxHi := fixedAt 31
  ctxLo := fixedAt 24
  oddInit := fixedAt false
  mixedSplit := fixedAt 160
  dotpatC := patternTable defaultDotpatC
  dotpatM := patternTable defaultDotpatM
  clut := clutId
  mlut := mlutId
  symBits := 10
  page1Base := 0x2000
  page2Base := 0x4000

/-- That machine after reset. -/
def testState : State := State.resetWith testConfig

/-- A field of the state that a next state is, or of `testState` where there is none. -/
def after (r : Result) : State :=
  match r with
  | .next t => t
  | .fault _ => testState
  | .refused _ => testState

/-- A line's state that holds buffer 0. -/
def lineState (st : St) : State := { testState with st := st, own := [.held, .free] }

/-! ## One step of each instruction, from the examples of its rule -/

/-- 41_memory_address_mapper.md R120, R122, R123 and R124. -/
theorem test_mapOffset : mapOffset 65 = 0x428 ∧ mapOffset 191 = 0x1FD0 ∧ mapOffset 100 = 0x1228 ∧ mapOffset 8 = 128 := by
  decide

/-- 45_frame_orchestrator.md R256. -/
theorem test_nop : (after (step { testState with cmdValid := true })).cmdValid = false ∧
    (after (step { testState with cmdValid := true })).history = [.accept 0x0000] := by decide

/-- 45_frame_orchestrator.md R252. -/
theorem test_frame : (after (step { testState with cmdValid := true, cmd := 0x1000 })).st = .fStart := by decide

/-- 45_frame_orchestrator.md R251. -/
theorem test_pselq : (after (step { testState with cmdValid := true, cmd := 0x4000 })).st = .qPsel := by decide

/-- 45_frame_orchestrator.md R257: `LINE 5`. -/
theorem test_line : (after (exec (.line 5) { testState with cmdValid := true, cmd := 0x2005 })).line = 5 ∧
    (after (exec (.line 5) { testState with cmdValid := true, cmd := 0x2005 })).st = .lPsel := by decide

/-- 45_frame_orchestrator.md R257: `LINE 192` takes `LINE_RANGE` with `FLINE = 0xC0`. -/
theorem test_line_range : (after (step { testState with cmdValid := true, cmd := 0x20C0 })).fcode = 2 ∧
    (after (step { testState with cmdValid := true, cmd := 0x20C0 })).fline = 0xC0 := by decide

/-- 41_memory_address_mapper.md R123: `MAPQ 100`. -/
theorem test_mapq : (after (exec (.mapq 100) { testState with cmdValid := true, cmd := 0x3064 })).line = 100 ∧
    (after (exec (.mapq 100) { testState with cmdValid := true, cmd := 0x3064 })).st = .qMap := by decide

/-- 45_frame_orchestrator.md R257: `IDLE` accepts `LINE 5`, and holds without a command. -/
theorem test_idleDecode :
    (after (exec .idleDecode { testState with cmdValid := true, cmd := 0x2005 })).history = [.accept 0x2005] ∧
    (after (exec .idleDecode { testState with cmd := 0x2005 })).history = [] := by decide

/-- 45_frame_orchestrator.md R253. -/
theorem test_fStart : (after (exec .fStart { testState with mode := 0b1000 })).nl = 160 ∧
    (after (exec .fStart { testState with mode := 0b0111 })).nl = 192 := by decide

/-- 45_frame_orchestrator.md R254: the end of a full frame. -/
theorem test_fNext_full : (after (exec .fNext { testState with line := 192, nl := 192 })).st = .idle := by decide

/-- 45_frame_orchestrator.md R254: the text request of a mixed frame. -/
theorem test_fNext_mixed :
    (after (exec .fNext { testState with line := 160, nl := 160, mixedL := true })).txtReq = true ∧
    (after (exec .fNext { testState with line := 160, nl := 160, mixedL := true })).st = .fText := by decide

/-- 45_frame_orchestrator.md R255. -/
theorem test_fText :
    (after (exec .fText { testState with st := .fText, txtReq := true, txtAck := true })).txtReq = false ∧
    (after (exec .fText { testState with st := .fText, txtReq := true })).st = .fText := by decide

/-- 44_scanline_producer.md R211. -/
theorem test_lPsel : (after (exec .lPsel { testState with mode := 0b0010 })).psel = 1 ∧
    (after (exec .lPsel { testState with mode := 0b0110, psel := 1 })).psel = 0 := by decide

/-- 41_memory_address_mapper.md R124. -/
theorem test_lMap : (after (exec .lMap { testState with line := 8 })).ofs = 128 := by decide

/-- 44_scanline_producer.md R212: the free buffer behind one in transport is taken. -/
theorem test_lAcq : (after (exec .lAcq { testState with own := [.transport, .free] })).own = [.transport, .held] ∧
    (after (exec .lAcq { testState with own := [.transport, .free] })).bufid = 1 := by decide

/-- 44_scanline_producer.md R212: with no free buffer the step holds. -/
theorem test_lAcq_holds :
    (after (exec .lAcq { testState with st := .lAcq, own := [.transport, .transport] })).st = .lAcq := by decide

/-- 44_scanline_producer.md R213. -/
theorem test_lMode : (after (exec .lMode { testState with w := 5, odd := true, j := 280 })).st = .cFetch ∧
    (after (exec .lMode { testState with w := 5, odd := true, j := 280 })).j = 0 := by decide

/-- 42_dot_window_decoder.md R153. -/
theorem test_cSeed : (after (exec .cSeed { testState with byte := 0x7F })).w = 0x1FFF8000 ∧
    (after (exec .cSeed { testState with byte := 0x40 })).w = 0x00018000 := by decide +kernel

/-- 41_memory_address_mapper.md R126. -/
theorem test_cFetch :
    (after (exec .cFetch { testState with ofs := 0x400, i := 3, bitmap := [(0x403, 0xD5)] })).byte = 0xD5 ∧
    (after (exec .cFetch { testState with ofs := 0x400, i := 3, bitmap := [(0x403, 0xD5)] })).history =
      [.read 0 0x403 0xD5] := by decide

/-- 41_memory_address_mapper.md R126: the synthetic byte reads nothing. -/
theorem test_cFetch_synthetic : (after (exec .cFetch { testState with i := 40, byte := 1 })).byte = 0 ∧
    (after (exec .cFetch { testState with i := 40, byte := 1 })).history = [] := by decide

/-- 42_dot_window_decoder.md R154. -/
theorem test_cBleed : (after (exec .cBleed { testState with w := 0x00018000, byte := 0x80 })).w = 0x0001C000 ∧
    (after (exec .cBleed { testState with w := 0x00018000, byte := 0x00 })).w = 0x00018000 := by decide

/-- 42_dot_window_decoder.md R155. -/
theorem test_cMerge : (after (exec .cMerge { testState with w := 0x1FFF8000, byte := 0x7F })).w = 0x1FFFFFFE := by
  decide +kernel

/-- 43_lut_indexer.md R192: `CIDX = 0x01F`. -/
theorem test_cEmit :
    ((after (exec .cEmit { lineState .cEmit with w := 0x1FFFFFFE })).buf[0]?.map (fun l => l.tripleAt 0)) =
      some ⟨0x01F, 0x01F, 0x01F⟩ ∧
    (after (exec .cEmit { lineState .cEmit with w := 0x1FFFFFFE })).j = 1 := by decide +kernel

/-- 42_dot_window_decoder.md R156. -/
theorem test_cShift : (after (exec .cShift { testState with w := 0x1FFFFFFE })).w = 0x7FFFFFF8 ∧
    (after (exec .cShift { testState with w := 0x1FFFFFFE })).odd = true := by decide

/-- 44_scanline_producer.md R214: the last group of the last round. -/
theorem test_cShift_last : (after (exec .cShift { testState with k := 6, i := 40 })).st = .lSubmit ∧
    (after (exec .cShift { testState with k := 6, i := 40 })).i = 41 := by decide

/-- 41_memory_address_mapper.md R122. -/
theorem test_qMap : (after (exec .qMap { testState with line := 191 })).result = 0x1FD0 := by decide

/-- 45_frame_orchestrator.md R260, R251. -/
theorem test_qPsel : (after (exec .qPsel { testState with mode := 0b0110, result := 1 })).result = 0 ∧
    (after (exec .qPsel { testState with mode := 0b0010 })).result = 1 := by decide

/-- 41_memory_address_mapper.md R127: page 2 starts at cell 8192. -/
theorem test_mFetch :
    (after (exec .mFetch { testState with psel := 1, ofs := 0x28, bitmap := [(8192 + 0x28, 0x7F)] })).byte = 0x7F ∧
    (after (exec .mFetch { testState with psel := 1, ofs := 0x28, bitmap := [(8192 + 0x28, 0x7F)] })).history =
      [.read 1 0x28 0x7F] := by decide

/-- 42_dot_window_decoder.md R159. -/
theorem test_mInject :
    (after (exec .mInject { testState with w := 0x3000, dotc := 14, byte := 0xC0 })).w = 0x7000 ∧
    (after (exec .mInject { testState with w := 0, byte := 0xC0, i := 2, lastdot := true })).w = 0 := by decide

/-- 42_dot_window_decoder.md R159: mode `EVERY` injects the last drained dot. -/
theorem test_mInject_every : (after (exec .mInject { testState with
    cfg := { testConfig with monoBleedMode := .every }, byte := 0xC0, i := 2, lastdot := true })).w = 1 := by decide

/-- 42_dot_window_decoder.md R160. -/
theorem test_mMerge : (after (exec .mMerge { testState with w := 0x3000, dotc := 14, byte := 0xFF })).w = 0x0FFFB000 ∧
    (after (exec .mMerge { testState with w := 0x3000, dotc := 14, byte := 0xFF })).dotc = 28 := by decide +kernel

/-- 43_lut_indexer.md R195. -/
theorem test_mEmit :
    ((after (exec .mEmit { lineState .mEmit with w := 0x0FFFB000 })).buf[0]?.map (fun l => l.tripleAt 0)) =
      some ⟨512, 512, 512⟩ ∧
    (after (exec .mEmit { lineState .mEmit with w := 0x0FFFB000 })).j = 1 := by decide +kernel

/-- 42_dot_window_decoder.md R161. -/
theorem test_mDrain : (after (exec .mDrain { testState with w := 0x0FFFB000, dotc := 28 })).w = 0x03FFEC00 ∧
    (after (exec .mDrain { testState with w := 0x0FFFB000, dotc := 28, lastdot := true })).lastdot = false := by decide

/-- 44_scanline_producer.md R216: after `LINE 5` the buffer is in transport and the block is idle. -/
theorem test_lSubmit : (after (exec .lSubmit { lineState .lSubmit with j := 280, line := 5 })).own = [.transport, .free] ∧
    (after (exec .lSubmit { lineState .lSubmit with j := 280, line := 5 })).st = .idle := by decide

/-- 44_scanline_producer.md R216: 279 symbols are a `SYM_COUNT` fault, and the buffer stays held. -/
theorem test_lSubmit_symCount : (after (exec .lSubmit { lineState .lSubmit with j := 279 })).fcode = 6 ∧
    (after (exec .lSubmit { lineState .lSubmit with j := 279 })).own = [.held, .free] := by decide

/-- 45_frame_orchestrator.md R258: the renderer takes no step in `FAULT`, and the command stays in the mailbox. -/
theorem test_faultHalt : (after (step { testState with st := .fault, cmdValid := true })).st = .fault ∧
    (after (step { testState with st := .fault, cmdValid := true })).cmdValid = true := by decide

/-! ## The environment -/

/-- 70_reset_and_hazards.md R325: the transport reads no buffer that is held. -/
theorem test_transportRead_refused :
    step { lineState .cEmit with schedule := [.transportRead 0] } = .refused .bufferNotTransports := by rfl


/-- 20_memory.md R75: a read returns the last write; writing what an unlisted byte reads as removes the cell. -/
theorem test_writer :
    (after (step { testState with schedule := [.writerByte 1 5 0xAB] })).bitmap = [(8197, 0xAB)] ∧
    (after (step { testState with schedule := [.writerByte 1 5 0], bitmap := [(8197, 0xAB)] })).bitmap = [] := by decide

/-- 60_exceptions.md R296 duty 1: the host waits for an empty mailbox. -/
theorem test_host_refused :
    step { testState with schedule := [.hostIssue 0x0000], cmdValid := true } = .refused .hostIssueWhilePending := by
  rfl

/-- 10_state.md R39: bits of `STATUS` after `LINE 200` (45_frame_orchestrator.md R258). -/
theorem test_status : (after (step { testState with cmdValid := true, cmd := 0x20C8 })).status = 0x00C80022 := by decide

/-! ## How the host places a word -/

/-- `LINE 5` and `C_SHIFT`, placed from reset, run by the next step. -/
theorem test_withFetchWord :
    (after (step (testState.withFetchWord 16 0x2005))).st = .lPsel ∧
    (after (step (testState.withFetchWord 8 0x0D))).odd = true := by decide

/-! ## Witnesses: states and operands that meet the hypotheses of each obligation that has some -/

theorem witness_StepRunsTheInstructionThatStNames :
    (∃ s : State, s.schedule = []) ∧ ∃ s : State, ∃ rest, s.schedule = .renderer :: rest :=
  ⟨⟨testState, rfl⟩, { testState with schedule := [.renderer] }, [], rfl⟩

theorem witness_DecodeStepRunsTheDecodedCommand :
    (∃ s : State, s.st = .idle ∧ s.cmdValid = true ∧ decode (.cmd16 s.cmd) = .ok (.line 255)) ∧
    ∃ s : State, s.st = .idle ∧ s.cmdValid = true ∧ decode (.cmd16 s.cmd) = .error .illegalCmd :=
  ⟨⟨{ testState with cmdValid := true, cmd := 0x20FF }, by decide⟩,
    { testState with cmdValid := true, cmd := 0x20FF + 0x100 }, by decide⟩

theorem witness_PlacedWordIsRunByTheNextStep :
    decodeTableWord 8 0x1F = some .faultHalt ∧ decodeTableWord 16 0x20BF = some (.line 191) := by decide

theorem witness_LineAndMapqTakeTheirLineOrFault :
    (∃ s : State, s.st = .idle ∧ imm8Of s.cmd = 191 ∧ (191 : BitVec 8).toNat < 192) ∧
    ∃ s : State, s.st = .idle ∧ imm8Of s.cmd = 192 ∧ 192 ≤ (192 : BitVec 8).toNat :=
  ⟨⟨{ testState with cmd := 0x20BF }, by decide⟩, { testState with cmd := 0x30C0 }, by decide⟩

theorem witness_IdleDecodesOneCommandOrHolds :
    (∃ s : State, s.cmdValid = false) ∧
    (∃ s : State, s.st = .idle ∧ s.cmdValid = true) ∧
    ∃ s t : State, s.st ≠ .idle ∧ rendererStep s = .next t :=
  ⟨⟨testState, by decide⟩, ⟨{ testState with cmdValid := true }, by decide⟩,
    { testState with st := .lPsel }, _, by decide, rfl⟩

theorem witness_MapOffsetInterleavesTheLines :
    ∃ l m8 m64 m1 : BitVec 8, l.toNat < 192 ∧ m1.toNat < 192 ∧ l ≠ m1 ∧
      (m1.toNat = l.toNat + 1 ∧ l.toNat / 8 = m1.toNat / 8) ∧
      (m8.toNat = l.toNat + 8 ∧ l.toNat / 64 = m8.toNat / 64) ∧ m64.toNat = l.toNat + 64 :=
  ⟨118, 126, 182, 119, by decide⟩

theorem witness_LinesReadExactlyTheVisibleBytes :
    ∃ (l m : BitVec 8) (x y a : Nat), l.toNat < 192 ∧ m.toNat < 192 ∧ x < 40 ∧ y < 40 ∧
      (mapOffset l).toNat + x = (mapOffset m).toNat + y ∧ (mapOffset l).toNat + x = 8183 ∧ a < 8192 ∧ a % 128 < 120 :=
  ⟨191, 191, 39, 39, 8183, by decide⟩

theorem witness_FetchReadsOneByteOrTheSyntheticOne :
    (∃ s : State, s.i = 40) ∧
    (∃ s : State, s.i.toNat < 40 ∧ s.ofs.toNat + s.i.toNat < 8192 ∧ s.ofs.toNat + s.i.toNat = 8191) ∧
    ∃ s : State, s.i.toNat < 40 ∧ 8192 ≤ s.ofs.toNat + s.i.toNat ∧ s.ofs.toNat + s.i.toNat = 8192 ∧ s.st ≠ .idle :=
  ⟨⟨{ testState with i := 40 }, by decide⟩, ⟨{ testState with i := 39, ofs := 8152 }, by decide⟩,
    { testState with i := 39, ofs := 8153, st := .cFetch }, by decide⟩

theorem witness_CShiftConsumesOneGroup :
    (∃ s : State, s.k.toNat ≤ 6 ∧ s.i.toNat ≤ 40 ∧ s.k.toNat < 6 ∧ s.k = 5) ∧
    ∃ s : State, s.k.toNat ≤ 6 ∧ s.i.toNat ≤ 40 ∧ s.k.toNat = 6 ∧ s.i = 40 :=
  ⟨⟨{ testState with k := 5 }, by decide⟩, { testState with k := 6, i := 40 }, by decide⟩

theorem witness_MInject_and_MMerge_and_MDrain :
    (∃ s : State, s.dotc.toNat ≤ 32 ∧ s.i.toNat ≤ 40 ∧ s.dotc = 32 ∧ s.i = 40) ∧
    ∃ s : State, 2 ≤ s.dotc.toNat ∧ s.dotc = 2 :=
  ⟨⟨{ testState with dotc := 32, i := 40 }, by decide⟩, { testState with dotc := 2 }, by decide⟩

theorem witness_DefaultDotPatternsDoubleAndDelay :
    (0x7F : Byte).getLsbD 7 = false ∧ (0x80 : Byte).getLsbD 7 = true ∧ 6 < 7 ∧ 13 < 14 := by decide

theorem witness_CEmit_and_MEmit_write :
    ∃ (s : State) (l : LineBuf), s.own[s.bufid]? = some .held ∧ s.buf[s.bufid]? = some l ∧ s.j.toNat < 280 ∧
      s.j = 279 :=
  ⟨{ lineState .cEmit with j := 279 }, LineBuf.any 0 0, by decide, rfl, by decide, by decide⟩

theorem witness_EmitGuardsFaultInOrder :
    (∃ s : State, s.st ≠ .idle ∧ s.own[s.bufid]? ≠ some .held) ∧
    ∃ s : State, s.st ≠ .idle ∧ s.own[s.bufid]? = some .held ∧ 280 ≤ s.j.toNat ∧ s.j = 280 :=
  ⟨⟨{ testState with st := .cEmit }, by decide⟩, { lineState .mEmit with j := 280 }, by decide⟩

/-- No buffer is free in a list of two that are not. -/
theorem noneFree (o o' : Own) (h : o ≠ .free) (h' : o' ≠ .free) : ∀ b : Nat, [o, o'][b]? ≠ some .free
  | 0 => by simpa using h
  | 1 => by simpa using h'
  | b + 2 => by simp

theorem witness_LAcqTakesTheLowestFreeBufferOrHolds :
    (∃ (s : State) (b : Nat), s.own[b]? = some .free ∧ (∀ b' : Nat, b' < b → s.own[b']? ≠ some .free) ∧ b = 1) ∧
    ∃ s : State, ∀ b : Nat, s.own[b]? ≠ some .free :=
  ⟨⟨{ testState with own := [.transport, .free] }, 1, by decide, by decide, rfl⟩,
    { testState with own := [.transport, .transport] }, noneFree _ _ (by decide) (by decide)⟩

theorem witness_LSubmitHandsTheBufferOver :
    (∃ (s : State) (l : LineBuf), s.own[s.bufid]? = some .held ∧ s.buf[s.bufid]? = some l ∧ s.j.toNat = 280) ∧
    (∃ s : State, s.st ≠ .idle ∧ s.own[s.bufid]? ≠ some .held) ∧
    ∃ (s : State) (l : LineBuf), s.st ≠ .idle ∧ s.own[s.bufid]? = some .held ∧ s.buf[s.bufid]? = some l ∧
      s.j.toNat ≠ 280 ∧ s.j = 279 :=
  ⟨⟨{ lineState .lSubmit with j := 280 }, LineBuf.any 0 0, by decide, rfl, by decide⟩,
    ⟨{ testState with st := .lSubmit }, by decide⟩,
    { lineState .lSubmit with j := 279 }, LineBuf.any 0 0, by decide, by decide, rfl, by decide⟩

theorem witness_FNextDispatchesTheNextLine :
    (∃ s : State, s.line.toNat < s.nl.toNat ∧ s.line = 191) ∧
    (∃ s : State, s.nl.toNat ≤ s.line.toNat ∧ s.mixedL = true ∧ s.txtAck = true) ∧
    (∃ s : State, s.nl.toNat ≤ s.line.toNat ∧ s.mixedL = true ∧ s.txtAck = false) ∧
    ∃ s : State, s.nl.toNat ≤ s.line.toNat ∧ s.mixedL = false ∧ s.line = 192 :=
  ⟨⟨{ testState with line := 191 }, by decide⟩,
    ⟨{ testState with nl := 160, line := 160, mixedL := true, txtAck := true }, by decide⟩,
    ⟨{ testState with nl := 160, line := 160, mixedL := true }, by decide⟩,
    { testState with line := 192 }, by decide⟩

theorem witness_FTextWaitsForTheAcknowledge :
    (∃ s : State, s.txtAck = false) ∧ ∃ s : State, s.txtAck = true :=
  ⟨⟨testState, rfl⟩, { testState with txtAck := true }, rfl⟩

theorem witness_OnlyAResetLeavesTheFaultState :
    (∃ s t : State, s.st = .fault ∧ step s = .next t) ∧
    ∃ s t : State, s.st = .fault ∧ s.schedule = [.reset] ∧ step s = .next t :=
  ⟨⟨{ testState with st := .fault }, _, rfl, rfl⟩,
    { testState with st := .fault, schedule := [.reset] }, _, rfl, rfl, rfl⟩

theorem witness_FaultsArePrecise :
    (∃ s t : State, s.st ≠ .fault ∧ rendererStep s = .next t ∧ t.st = .fault ∧ s.st = .idle) ∧
    ∃ s t : State, s.st ≠ .fault ∧ rendererStep s = .next t ∧ t.st = .fault ∧ s.st ≠ .idle :=
  ⟨⟨{ testState with cmdValid := true, cmd := 0x20C0 }, _, by decide, rfl, rfl, rfl⟩,
    { testState with st := .cEmit }, _, by decide, rfl, rfl, by decide⟩

theorem testConfig_wf : testConfig.wf = true := by decide +kernel

theorem witness_NoDefectFaultIsEverRaised :
    ∃ (c : Config) (bitmap : Memory) (n : Nat) (t u : State), c.wf = true ∧ bitmap.wf = true ∧
      runSteps n (powerOn c 0 bitmap [.hostIssue 0x20C0]) = .next t ∧ t.st ≠ .fault ∧ rendererStep t = .next u ∧
      u.st = .fault :=
  ⟨testConfig, [], 1, _, _, testConfig_wf, by decide, rfl, by decide, rfl, rfl⟩

/-- The frames over all instructions, and the three statements over the steps of a reset machine. -/
theorem witness_frames : (∃ (i : Instr) (s t : State), exec i s = .next t) ∧
    (∃ (s t : State) (m : BitVec 4), exec .lMode s = .next t ∧ m.getLsbD 0 = s.mode.getLsbD 0 ∧ m ≠ s.mode) ∧
    (∃ (s t : State) (m : BitVec 4), exec .lPsel s = .next t ∧
      m.getLsbD 1 = s.mode.getLsbD 1 ∧ m.getLsbD 2 = s.mode.getLsbD 2 ∧ m ≠ s.mode) ∧
    ∃ (s t : State) (m : BitVec 4), exec .fStart s = .next t ∧ m.getLsbD 3 = s.mode.getLsbD 3 ∧ m ≠ s.mode :=
  ⟨⟨.cShift, testState, _, rfl⟩, ⟨testState, _, 0xE, rfl, by decide⟩, ⟨testState, _, 0x9, rfl, by decide⟩,
    testState, _, 0x7, rfl, by decide⟩

theorem witness_ControlRegistersHaveTheirWriters :
    (∃ (i : Instr) (s t : State), exec i s = .next t ∧ t.st ≠ .fault ∧ i ≠ .lMap ∧ i ≠ .qMap) ∧
    ∃ (s t : State), exec .faultHalt s = .next t ∧ s.st = .fault :=
  ⟨⟨.cShift, testState, _, rfl, by decide, by decide, by decide⟩, { testState with st := .fault }, _, rfl, rfl⟩

theorem witness_OwnershipMovesOnlyInItsOrder :
    (∃ s t : State, step s = .next t ∧ s.own[0]? = some .free ∧ t.own[0]? = some .held) ∧
    (∃ s t : State, step s = .next t ∧ s.own[0]? = some .held ∧ t.own[0]? = some .transport) ∧
    (∃ s t : State, step s = .next t ∧ s.own[0]? = some .transport ∧ t.own[0]? = some .free) ∧
    ∃ s t : State, step s = .next t ∧ s.schedule = [.reset] ∧ s.own[0]? = some .held ∧ t.own[0]? = some .free :=
  ⟨⟨{ testState with st := .lAcq }, _, rfl, rfl, rfl⟩,
    ⟨{ lineState .lSubmit with j := 280 }, _, rfl, rfl, rfl⟩,
    ⟨{ testState with own := [.transport, .free], schedule := [.transportRelease 0] }, _, rfl, rfl, rfl⟩,
    { lineState .cFetch with schedule := [.reset] }, _, rfl, rfl, rfl, rfl⟩

theorem witness_OnlyTheQueriesWriteResult :
    (∃ s t : State, exec .qMap s = .next t) ∧ (∃ s t : State, exec .qPsel s = .next t) ∧
    (∃ s t : State, step s = .next t ∧ s.schedule = [] ∧ s.st ≠ .qMap ∧ s.st ≠ .qPsel) ∧
    ∃ s t : State, step s = .next t ∧ s.schedule = [.writerMode 2] ∧ s.st = .qPsel :=
  ⟨⟨testState, _, rfl⟩, ⟨testState, _, rfl⟩, ⟨{ testState with st := .lMap }, _, rfl, rfl, by decide, by decide⟩,
    { testState with st := .qPsel, schedule := [.writerMode 2] }, _, rfl, rfl, rfl⟩

theorem witness_AgentsKeepTheirDuties :
    (∃ s : State, s.schedule = [.hostIssue 0] ∧ s.cmdValid = false) ∧
    (∃ s : State, s.schedule = [.hostIssue 0] ∧ s.cmdValid = true) ∧
    (∃ s : State, s.schedule = [.transportRelease 1] ∧ s.own[1]? = some .transport) ∧
    (∃ s : State, s.schedule = [.transportRelease 2] ∧ s.own[2]? ≠ some .transport) ∧
    (∃ s : State, s.schedule = [.transportRead 1] ∧ s.own[1]? = some .transport) ∧
    (∃ s : State, s.schedule = [.transportRead 0] ∧ s.own[0]? ≠ some .transport) ∧
    (∃ s : State, s.schedule = [.textAck true] ∧ s.txtReq = true) ∧
    (∃ s : State, s.schedule = [.textAck true] ∧ s.txtReq ≠ true) ∧
    (∃ s : State, s.schedule = [.writerMode 15]) ∧ (∃ s : State, s.schedule = [.writerByte 1 8191 0]) ∧
    (∃ s : State, s.schedule = [.hostReadResult] ∧ s.cmdValid = false ∧ s.st = .idle ∧ s.fvalid = false) ∧
    ∃ s : State, s.schedule = [.hostReadResult] ∧ s.st = .qMap :=
  ⟨⟨{ testState with schedule := [.hostIssue 0] }, by decide⟩,
    ⟨{ testState with schedule := [.hostIssue 0], cmdValid := true }, by decide⟩,
    ⟨{ testState with schedule := [.transportRelease 1], own := [.free, .transport] }, by decide⟩,
    ⟨{ testState with schedule := [.transportRelease 2] }, by decide⟩,
    ⟨{ testState with schedule := [.transportRead 1], own := [.free, .transport] }, by decide⟩,
    ⟨{ testState with schedule := [.transportRead 0] }, by decide⟩,
    ⟨{ testState with schedule := [.textAck true], txtReq := true }, by decide⟩,
    ⟨{ testState with schedule := [.textAck true] }, by decide⟩,
    ⟨{ testState with schedule := [.writerMode 15] }, by decide⟩,
    ⟨{ testState with schedule := [.writerByte 1 8191 0] }, by decide⟩,
    ⟨{ testState with schedule := [.hostReadResult] }, by decide⟩,
    { testState with schedule := [.hostReadResult], st := .qMap }, by decide⟩

theorem witness_ResetSetsTheStatedValues : ∃ s : State, s.schedule = [.reset] ∧ s.st = .cShift :=
  ⟨{ lineState .cShift with schedule := [.reset] }, by decide⟩

theorem witness_WriterChangesExactlyOneByte :
    ∃ s : State, s.bitmap.wf = true ∧ s.schedule = [.writerByte 1 8191 0xFF] ∧ s.bitmap = [(8191, 1)] :=
  ⟨{ testState with bitmap := [(8191, 1)], schedule := [.writerByte 1 8191 0xFF] }, by decide⟩

theorem witness_ResetMeetsTheInvariants : ∃ (c : Config) (bitmap : Memory), c.wf = true ∧ bitmap.wf = true :=
  ⟨testConfig, [(16383, 0xFF)], testConfig_wf, by decide⟩

/-- Only buffer 0 of two is held. -/
theorem onlyFirstHeld (b : Nat) (h : b ≠ 0) : [Own.held, Own.free][b]? ≠ some .held :=
  match b, h with
  | 0, h => absurd rfl h
  | 1, _ => by simp
  | b + 2, _ => by simp

/-- The invariant of a state that differs from `lineState` only in what each premise below names. -/
theorem inv_of_held {s : State} (hc : s.cfg = testConfig) (ho : s.own = [.held, .free]) (hb : s.buf.length = 2)
    (hid : s.bufid = 0) (hm : s.bitmap.wf = true) (hn : s.nl = if s.mixedL then 160 else 192)
    (ht : s.txtReq = false) (hf : s.fvalid = false ∧ s.fcode = 0 ∧ s.fst = 0 ∧ s.fline = 0)
    (hl : s.line.toNat < 192) (hr : s.ret = false) (hof : s.ofs = mapOffset s.line) (hst : holding s.st = true)
    (hp : PathRegs s) : Inv s := by
  have hne : ∀ x : St, holding x = false → s.st ≠ x := fun x hx h => by rw [h, hx] at hst; cases hst
  refine ⟨hc ▸ testConfig_wf, by rw [ho, hc]; rfl, by rw [hb, hc]; rfl, by rw [hid, hc]; decide, hm, hn, ?_, ?_, ?_, ?_, hp⟩
  · rw [ht]
    simp [hne .fText rfl]
  · rw [FaultRegs, if_neg (hne .fault rfl)]
    exact hf
  · exact ⟨fun _ => ⟨hl, fun h => by rw [hr] at h; cases h⟩, fun h => absurd h (hne .qMap rfl),
      fun h => absurd h (hne .fNext rfl), fun h => absurd h (hne .fText rfl), fun _ => hof⟩
  · rw [OwnRegs, if_pos hst, ho, hid]
    exact ⟨rfl, onlyFirstHeld⟩

/-- A color line about to fetch its first byte. -/
def lineStart : State := { lineState .cFetch with history := [.acquire 0] }

theorem lineStart_inv : Inv lineStart :=
  inv_of_held rfl rfl rfl rfl rfl rfl rfl (by decide) (by decide) rfl (by decide) rfl
    ⟨⟨rfl, rfl, by decide, by decide, by decide, by decide⟩, fun m _ => by simp [lineStart, lineState, testState, State.resetWith]⟩

theorem lineStart_data : LineData lineStart :=
  ⟨rfl, fun _ _ n h => absurd h (by simp [lineStart, lineState, testState, State.resetWith]), fun h => absurd rfl h⟩

theorem lineStart_order : ReadsInOrder lineStart := fun _ => rfl
theorem lineStart_current : ReadsAreCurrent lineStart := fun _ r h => by cases h

/-- For the statements over a step from an invariant state: the registers, the data, the frame, the reads, the path. -/
theorem witness_steps_from_invariant_states :
    (∃ s t : State, Inv s ∧ LineData s ∧ FrameSoFar s ∧ ReadsInOrder s ∧ ReadsAreCurrent s ∧
      (∀ p a v rest, s.schedule ≠ .writerByte p a v :: rest) ∧ step s = .next t) ∧
    (∃ s t : State, s.st = .lMode ∧ rendererStep s = .next t) ∧
    ∃ s t : State, Inv s ∧ holding s.st = true ∧ s.st ≠ .lMode ∧ rendererStep s = .next t :=
  ⟨⟨lineStart, _, lineStart_inv, lineStart_data, ⟨by decide, by decide, by decide⟩, lineStart_order, lineStart_current,
    fun _ _ _ _ => (List.cons_ne_nil _ _).symm, rfl⟩, ⟨lineState .lMode, _, rfl, rfl⟩,
    lineStart, _, lineStart_inv, rfl, by decide, rfl⟩

theorem witness_OneBufferIsHeldExactlyDuringALine :
    (∃ t : State, runSteps 6 (powerOn testConfig 0 [] [.hostIssue 0x2005]) = .next t ∧ holding t.st = true) ∧
    (∃ t : State, runSteps 1 (powerOn testConfig 0 [] []) = .next t ∧ holding t.st = false ∧ t.st ≠ .fault) ∧
    ∃ t : State, runSteps 2 (powerOn testConfig 0 [] [.hostIssue 0x5000]) = .next t ∧ t.st = .fault :=
  ⟨⟨_, rfl, rfl⟩, ⟨_, rfl, rfl, by decide⟩, _, rfl, rfl⟩

/-- The 40 bytes of an empty line. -/
def zeroBytes : List Byte := List.replicate 40 0

/-- Buffer contents that are the color line of those bytes. -/
def zeroLine : LineBuf where
  ch0 := tableOf 280 (fun n => (lineTriple testConfig false zeroBytes n).s0)
  ch1 := tableOf 280 (fun n => (lineTriple testConfig false zeroBytes n).s1)
  ch2 := tableOf 280 (fun n => (lineTriple testConfig false zeroBytes n).s2)

/-- A color line about to be submitted. -/
def lineEnd : State := { lineState .lSubmit with
  i := 41, j := 280, buf := [zeroLine, LineBuf.any 0 1]
  history := .acquire 0 :: (List.range 40).map (fun x => .read 0 x 0) }

theorem lineEnd_reads : lineReads lineEnd.history = zeroBytes := by decide

theorem witness_SubmitCarriesTheReferenceLine :
    ∃ s : State, Inv s ∧ LineData s ∧ s.st = .lSubmit ∧ ReadsInOrder s ∧ ReadsAreCurrent s := by
  refine ⟨lineEnd, inv_of_held rfl rfl rfl rfl rfl rfl rfl (by decide) (by decide) rfl (by decide) rfl
    ⟨by decide, by decide, by decide⟩, ⟨by rw [lineEnd_reads]; decide, ?_⟩, rfl, fun _ => by decide, ?_⟩
  · intro l hl n hn
    have e : zeroLine = l := Option.some.inj hl
    have hn' : n < 280 := hn
    rw [← e, lineEnd_reads, LineBuf.tripleAt, zeroLine, tableOf_get?, tableOf_get?, tableOf_get?, if_pos hn', if_pos hn',
      if_pos hn']
    have hs : lineEnd.cfg = testConfig ∧ lineEnd.monoL = false := ⟨rfl, rfl⟩
    rw [hs.1, hs.2]
    generalize lineTriple testConfig false zeroBytes n = t
    rfl
  · intro _
    decide

theorem witness_closed_forms : testConfig.wf = true ∧ zeroBytes.length = 40 ∧ 559 < 560 := 
  ⟨testConfig_wf, by decide, by decide⟩

theorem witness_ModeSwitchChangesEveryTriple :
    ∃ c : Config, c.wf = true ∧ c.clut = clutId ∧ c.mlut = mlutId ∧ zeroBytes.length = 40 ∧ 279 < 280 :=
  ⟨testConfig, testConfig_wf, rfl, rfl, by decide, by decide⟩

/-- The history of a frame whose first `n` lines are submitted. -/
def submitted (n : Nat) : List Event :=
  (List.range n).map (fun k => .submit 0 (BitVec.ofNat 8 k) false zeroLine.ch0 zeroLine.ch1 zeroLine.ch2)

/-- The end of a full frame, and of a mixed one. -/
theorem witness_AFrameEndsWithAllItsLines :
    (∃ s t : State, Inv s ∧ FrameSoFar s ∧ rendererStep s = .next t ∧ t.st = .idle ∧ s.st = .fNext) ∧
    ∃ s t : State, Inv s ∧ FrameSoFar s ∧ rendererStep s = .next t ∧ t.st = .idle ∧ s.st = .fText := by
  refine ⟨⟨{ testState with st := .fNext, line := 192, ret := true, history := submitted 192 }, _, ?_, ?_, rfl, rfl, rfl⟩,
    { testState with st := .fText, line := 160, nl := 160, mixedL := true, ret := true, txtReq := true, txtAck := true
                     history := submitted 160 ++ [.textReq] }, _, ?_, ?_, rfl, rfl, rfl⟩
  · exact ⟨testConfig_wf, rfl, rfl, by decide, by decide, by decide, by decide,
      by simp [FaultRegs, testState, State.resetWith], ⟨by decide, by decide, by decide, by decide, by decide⟩,
      fun b => by rcases b with _ | _ | b <;> simp [testState, State.resetWith, testConfig, List.replicate], trivial⟩
  · exact ⟨by decide, fun _ => by decide +kernel, by decide⟩
  · exact ⟨testConfig_wf, rfl, rfl, by decide, by decide, by decide, by decide,
      by simp [FaultRegs, testState, State.resetWith], ⟨by decide, by decide, by decide, by decide, by decide⟩,
      fun b => by rcases b with _ | _ | b <;> simp [testState, State.resetWith, testConfig, List.replicate], trivial⟩
  · exact ⟨by decide, by decide, fun _ => by decide +kernel⟩

end Sys2Proof.Tests
end

section
/-! PROOFS. The state's registers and views (10_state.md): what each agent's step does, which steps write `RESULT`, and
the fields of `STATUS`. -/

namespace Sys2Proof.Machine

/-! ## The agents' steps -/

/-- Everything a step of an agent can do (00_scope.md R14, 60_exceptions.md R296): the renderer's micro-operation, a
reset, or the one small change of an environment agent that keeps its duties. -/
theorem agentStep_cases {a : Agent} {s t : State} (h : agentStep a s = .next t) :
    (a = .renderer ∧ rendererStep s = .next t) ∨
    (∃ w, a = .hostIssue w ∧ s.cmdValid = false ∧ t = { s with cmd := w, cmdValid := true }) ∨
    (a = .hostReadResult ∧ s.resultReadable = true ∧ t = s) ∨
    (∃ p x v, a = .writerByte p x v ∧ t = { s with bitmap := s.bitmap.write (cellAddr p x.toNat) v }) ∨
    (∃ m, a = .writerMode m ∧ t = { s with mode := m }) ∨
    (∃ b, a = .transportRead b ∧ s.own[b]? = some .transport ∧ t = s) ∨
    (∃ b, a = .transportRelease b ∧ s.own[b]? = some .transport ∧ t = { s with own := s.own.set b .free }) ∨
    (∃ v, a = .textAck v ∧ s.txtReq = v ∧ t = { s with txtAck := v }) ∨
    (a = .reset ∧ t = systemReset s) := by
  cases a with
  | renderer => exact .inl ⟨rfl, h⟩
  | hostIssue w =>
    simp only [agentStep, hostIssue] at h
    split_ifs at h with hv
    exact .inr (.inl ⟨w, rfl, by simpa using hv, by simpa using h.symm⟩)
  | hostReadResult =>
    simp only [agentStep, hostReadResult] at h
    split_ifs at h with hr
    exact .inr (.inr (.inl ⟨rfl, hr, by simpa using h.symm⟩))
  | writerByte p x v => exact .inr (.inr (.inr (.inl ⟨p, x, v, rfl, (Host.Outcome.next.inj h).symm⟩)))
  | writerMode m => exact .inr (.inr (.inr (.inr (.inl ⟨m, rfl, (Host.Outcome.next.inj h).symm⟩))))
  | transportRead b =>
    simp only [agentStep, transportRead] at h
    split_ifs at h with ho
    exact .inr (.inr (.inr (.inr (.inr (.inl ⟨b, rfl, ho, by simpa using h.symm⟩)))))
  | transportRelease b =>
    simp only [agentStep, transportRelease] at h
    split_ifs at h with ho
    exact .inr (.inr (.inr (.inr (.inr (.inr (.inl ⟨b, rfl, ho, by simpa using h.symm⟩))))))
  | textAck v =>
    simp only [agentStep, textAck] at h
    split_ifs at h with hr
    exact .inr (.inr (.inr (.inr (.inr (.inr (.inr (.inl ⟨v, rfl, hr, by simpa using h.symm⟩)))))))
  | reset => exact .inr (.inr (.inr (.inr (.inr (.inr (.inr (.inr ⟨rfl, (Host.Outcome.next.inj h).symm⟩)))))))

/-! ## `RESULT` (R37) -/

/-- Only the two query steps write `RESULT`. -/
theorem exec_result {i : Instr} {s t : State} (hmap : i ≠ .qMap) (hpsel : i ≠ .qPsel) (h : exec i s = .next t) :
    t.result = s.result := by
  cases i with
  | qMap => exact absurd rfl hmap
  | qPsel => exact absurd rfl hpsel
  | nop | frame | pselq | fStart | lPsel | lMap | lMode | cSeed | cBleed | cMerge | cShift | mInject | mMerge | mDrain
  | faultHalt => cases h; rfl
  | line n => rcases line_cases h with ⟨-, rfl⟩ | ⟨-, rfl⟩ <;> rfl
  | mapq n => rcases mapq_cases h with ⟨-, rfl⟩ | ⟨-, rfl⟩ <;> rfl
  | idleDecode =>
    rcases idleDecode_cases h with ⟨-, rfl⟩ | ⟨-, ⟨c, -, rfl⟩ | ⟨-, rfl⟩ | ⟨-, rfl⟩ | ⟨n, -, -, rfl⟩ | ⟨n, -, -, rfl⟩ |
      ⟨-, rfl⟩⟩ <;> rfl
  | fNext => rcases fNext_cases h with ⟨-, rfl⟩ | ⟨-, -, -, rfl⟩ | ⟨-, -, -, rfl⟩ | ⟨-, -, rfl⟩ <;> rfl
  | fText => rcases fText_cases h with ⟨-, rfl⟩ | ⟨-, rfl⟩ <;> rfl
  | lAcq => rcases lAcq_cases h with ⟨-, rfl⟩ | ⟨b, -, -, rfl⟩ <;> rfl
  | cFetch =>
    rcases fetch_cases (.inl ⟨rfl, rfl⟩) h with ⟨-, rfl⟩ | ⟨-, -, v, -, rfl⟩ | ⟨-, -, rfl⟩ <;> rfl
  | mFetch =>
    rcases fetch_cases (.inr ⟨rfl, rfl⟩) h with ⟨-, rfl⟩ | ⟨-, -, v, -, rfl⟩ | ⟨-, -, rfl⟩ <;> rfl
  | cEmit | mEmit => rcases emitTriple_cases h with ⟨-, -, rfl⟩ | ⟨-, rfl⟩ | ⟨-, -, rfl⟩ <;> rfl
  | lSubmit => rcases lSubmit_cases h with ⟨l, -, -, -, rfl⟩ | ⟨-, rfl⟩ | ⟨-, -, rfl⟩ <;> rfl

/-- `Q_MAP` runs only in its own state (30_encoding.md R101). -/
theorem uop_eq_qMap_iff (x : St) : x.uop = .qMap ↔ x = .qMap := by
  cases x <;> decide

/-- `Q_PSEL` runs only in its own state (30_encoding.md R101). -/
theorem uop_eq_qPsel_iff (x : St) : x.uop = .qPsel ↔ x = .qPsel := by
  cases x <;> decide

/-- A renderer step outside the two query states leaves `RESULT`. -/
theorem rendererStep_result {s t : State} (hq : s.st ≠ .qMap ∧ s.st ≠ .qPsel) (h : rendererStep s = .next t) :
    t.result = s.result :=
  exec_result (mt (uop_eq_qMap_iff s.st).mp hq.1) (mt (uop_eq_qPsel_iff s.st).mp hq.2) h

/-- An agent's step other than a reset or the renderer's query step leaves `RESULT`. -/
theorem agentStep_result {a : Agent} {s t : State} (hreset : a ≠ .reset)
    (hq : a = .renderer → s.st ≠ .qMap ∧ s.st ≠ .qPsel) (h : agentStep a s = .next t) : t.result = s.result := by
  rcases agentStep_cases h with ⟨ha, hr⟩ | ⟨w, -, -, rfl⟩ | ⟨-, -, rfl⟩ | ⟨p, x, v, -, rfl⟩ | ⟨m, -, rfl⟩ |
    ⟨b, -, -, rfl⟩ | ⟨b, -, -, rfl⟩ | ⟨v, -, -, rfl⟩ | ⟨ha, -⟩
  · exact rendererStep_result (hq ha) hr
  · rfl
  · rfl
  · rfl
  · rfl
  · rfl
  · rfl
  · rfl
  · exact absurd ha hreset

/-- Settles O41: the queries by their exact next states, every other step by the frame of `RESULT`. -/
theorem onlyTheQueriesWriteResult : Obligations.OnlyTheQueriesWriteResult := by
  refine ⟨fun s t h => ?_, fun s t h => ?_, fun s t h hreset hq => ?_⟩
  · cases h
    exact BitVec.toNat_setWidth_of_le (by decide)
  · cases h
    exact BitVec.toNat_setWidth_of_le (by decide)
  · rcases step_cases h with ⟨hs, hr⟩ | ⟨a, rest, hs, ha⟩
    · exact rendererStep_result (hq (.inl hs)) hr
    · have hne : a ≠ .reset := fun e => hreset rest (e ▸ hs)
      have hst : a = .renderer → s.st ≠ .qMap ∧ s.st ≠ .qPsel := fun e => hq (.inr ⟨rest, e ▸ hs⟩)
      exact agentStep_result (s := { s with schedule := rest }) hne hst ha

/-! ## `STATUS` (R39) -/

/-- `BUSY` is 1 exactly outside `IDLE` and `FAULT`. -/
theorem busy_iff (s : State) : s.busy = true ↔ s.st ≠ .idle ∧ s.st ≠ .fault := by
  simp [State.busy]

/-- A field of `STATUS`, by its number. -/
theorem status_field {s : State} {start len : Nat} {x : BitVec len}
    (h : s.status.toNat / 2 ^ start % 2 ^ len = x.toNat) : s.status.extractLsb' start len = x :=
  BitVec.eq_of_toNat_eq (by rw [BitVec.extractLsb'_toNat, Nat.shiftRight_eq_div_pow, h])

/-- A bit of `STATUS`, by its number. -/
theorem status_bit {s : State} {n : Nat} {b : Bool} (h : s.status.toNat / 2 ^ n % 2 = b.toNat) :
    s.status.getLsbD n = b := by
  rw [BitVec.getLsbD, Nat.testBit_eq_decide_div_mod_eq, h]
  cases b <;> rfl

/-- Settles O46: `STATUS` as a number is the sum of its fields at their places (`status_toNat`), so each field is read
back by a division and a remainder. -/
theorem statusShowsItsFields : Obligations.StatusShowsItsFields := by
  intro s
  have hsum := status_toNat s
  have hline := s.fline.isLt
  have hst := s.fst.isLt
  have hcode := s.fcode.isLt
  have hpend := s.cmdValid.toNat_lt
  have htxt := s.txtReq.toNat_lt
  have hfaulted := s.fvalid.toNat_lt
  have hbusy := s.busy.toNat_lt
  refine ⟨?_, status_bit (by omega), status_bit (by omega), status_bit (by omega), status_field (by omega),
    status_field (by omega), status_field (by omega), status_field ?_, status_field ?_⟩
  · rw [status_bit (b := s.busy) (by omega), busy_iff]
  · change _ = 0
    omega
  · change _ = 0
    omega

end Sys2Proof.Machine
end

section
/-! PROOFS. The command words (30_encoding.md R91 to R95): the fields of a word as numbers, and `decodeCmd` by them. -/

namespace Sys2Proof.Machine

/-! ## The fields of a word, by division and remainder (R91) -/

theorem opcOf_toNat (w : BitVec 16) : (opcOf w).toNat = w.toNat / 4096 := by
  have := toNat_fields w
  have := (rsvOf w).isLt
  have := (imm8Of w).isLt
  omega

theorem rsvOf_toNat (w : BitVec 16) : (rsvOf w).toNat = w.toNat / 256 % 16 := by
  have := toNat_fields w
  have := (rsvOf w).isLt
  have := (imm8Of w).isLt
  omega

theorem imm8Of_toNat (w : BitVec 16) : (imm8Of w).toNat = w.toNat % 256 := by
  have := toNat_fields w
  have := (imm8Of w).isLt
  omega

theorem opcOf_eq_iff (w : BitVec 16) (o : BitVec 4) : opcOf w = o ↔ w.toNat / 4096 = o.toNat := by
  rw [← BitVec.toNat_inj, opcOf_toNat]

theorem rsvOf_eq_zero_iff (w : BitVec 16) : rsvOf w = 0 ↔ w.toNat / 256 % 16 = 0 := by
  rw [← BitVec.toNat_inj, rsvOf_toNat]
  rfl

theorem imm8Of_eq_zero_iff (w : BitVec 16) : imm8Of w = 0 ↔ w.toNat % 256 = 0 := by
  rw [← BitVec.toNat_inj, imm8Of_toNat]
  rfl

theorem imm8Of_eq_ofNat (w : BitVec 16) : imm8Of w = BitVec.ofNat 8 (w.toNat % 256) := by
  rw [← imm8Of_toNat, BitVec.ofNat_toNat, BitVec.setWidth_eq]

/-! ## What `decodeCmd` adds to the command a word names (R95) -/

/-- The checks of `decodeCmd` after the command is read: no command is illegal, and a line has its range. -/
def checkCmd : Option Cmd → Except FaultCode Cmd
  | none => .error .illegalCmd
  | some c => if c.toInstr.wellFormed then .ok c else .error .lineRange

theorem decodeCmd_eq_checkCmd (w : BitVec 16) : decodeCmd w = checkCmd (readCmd w) := by
  unfold decodeCmd
  cases readCmd w <;> rfl

@[simp] theorem checkCmd_none : checkCmd none = .error .illegalCmd := rfl

@[simp] theorem checkCmd_nop : checkCmd (some .nop) = .ok .nop := rfl

@[simp] theorem checkCmd_frame : checkCmd (some .frame) = .ok .frame := rfl

@[simp] theorem checkCmd_pselq : checkCmd (some .pselq) = .ok .pselq := rfl

@[simp] theorem checkCmd_line (n : BitVec 8) :
    checkCmd (some (.line n)) = if n.toNat < 192 then .ok (.line n) else .error .lineRange := by
  simp only [checkCmd, Cmd.toInstr, Instr.wellFormed, decide_eq_true_eq]

@[simp] theorem checkCmd_mapq (n : BitVec 8) :
    checkCmd (some (.mapq n)) = if n.toNat < 192 then .ok (.mapq n) else .error .lineRange := by
  simp only [checkCmd, Cmd.toInstr, Instr.wellFormed, decide_eq_true_eq]

/-- `decodeCmd` by the fields of the word: the check is taken into each branch of `readCmd`, where it is about one
command. -/
theorem decodeCmd_eq_byFields (w : BitVec 16) : decodeCmd w =
    if rsvOf w ≠ 0 then .error .illegalCmd
    else if opcOf w = 0 then (if imm8Of w = 0 then .ok .nop else .error .illegalCmd)
    else if opcOf w = 1 then (if imm8Of w = 0 then .ok .frame else .error .illegalCmd)
    else if opcOf w = 2 then (if (imm8Of w).toNat < 192 then .ok (.line (imm8Of w)) else .error .lineRange)
    else if opcOf w = 3 then (if (imm8Of w).toNat < 192 then .ok (.mapq (imm8Of w)) else .error .lineRange)
    else if opcOf w = 4 then (if imm8Of w = 0 then .ok .pselq else .error .illegalCmd)
    else .error .illegalCmd := by
  rw [decodeCmd_eq_checkCmd, readCmd]
  simp only [apply_ite checkCmd, checkCmd_none, checkCmd_nop, checkCmd_frame, checkCmd_pselq, checkCmd_line,
    checkCmd_mapq]

/-- Settles O2: `decodeCmd` by the fields of the word, where each check of a field is a check of its division and
remainder. -/
theorem decodeCmdFollowsItsCaseTable : Obligations.DecodeCmdFollowsItsCaseTable := by
  intro w
  rw [decodeCmd_eq_byFields]
  simp only [ne_eq, rsvOf_eq_zero_iff, opcOf_eq_iff, imm8Of_eq_zero_iff, imm8Of_toNat, BitVec.reduceToNat]
  rw [imm8Of_eq_ofNat]

end Sys2Proof.Machine
end

section
/-! PROOFS. The mapper (41_memory_address_mapper.md): `MapOffset` as a number, and the steps that map a line and fetch a
byte. -/

namespace Sys2Proof.Machine

/-! ## `MapOffset` as a number (R120, R121) -/

/-- Bits 5 to 3 of a number, in place. -/
theorem and_groupMask (x : Nat) : x &&& 0x38 = 8 * (x / 8 % 8) := by
  have hhigh : (x &&& 0x38) / 8 = x / 8 % 8 := by
    rw [Nat.and_div_two_pow (n := 3)]
    exact Nat.and_two_pow_sub_one_eq_mod (x / 8) 3
  have hlow : (x &&& 0x38) % 8 = 0 := by
    rw [Nat.and_mod_two_pow (n := 3)]
    exact Nat.and_zero _
  omega

/-- A line keeps its number at the width of an offset. -/
theorem toNat_widenedLine (l : BitVec 8) : (l.setWidth 13).toNat = l.toNat := BitVec.toNat_setWidth_of_le (by decide)

/-- The row in a group, bits 2 to 0 of the line, at place 10. -/
theorem rowField_toNat (l : BitVec 8) : ((l.setWidth 13 &&& 7) <<< 10).toNat = 1024 * (l.toNat % 8) := by
  have hmask : l.toNat &&& 7 = l.toNat % 8 := Nat.and_two_pow_sub_one_eq_mod l.toNat 3
  simp only [BitVec.toNat_shiftLeft, BitVec.toNat_and, BitVec.reduceToNat, toNat_widenedLine, hmask, Nat.shiftLeft_eq]
  omega

/-- The group in a band, bits 5 to 3 of the line, at place 7. -/
theorem groupField_toNat (l : BitVec 8) :
    ((l.setWidth 13 &&& 0x38) <<< 4).toNat = 128 * (l.toNat / 8 % 8) := by
  simp only [BitVec.toNat_shiftLeft, BitVec.toNat_and, BitVec.reduceToNat, toNat_widenedLine, and_groupMask,
    Nat.shiftLeft_eq]
  omega

/-- The band, bits 7 and 6 of the line, times the 40 bytes of a line. -/
theorem bandField_toNat (l : BitVec 8) : ((l.setWidth 13 >>> 6) * 40).toNat = 40 * (l.toNat / 64) := by
  have := l.isLt
  simp only [BitVec.toNat_mul, BitVec.toNat_ushiftRight, BitVec.reduceToNat, toNat_widenedLine,
    Nat.shiftRight_eq_div_pow]
  omega

/-- The three fields have no bit in common, so their union is their sum (R121 item 1). -/
theorem mapOffset_toNat (l : BitVec 8) :
    (mapOffset l).toNat = 1024 * (l.toNat % 8) + 128 * (l.toNat / 8 % 8) + 40 * (l.toNat / 64) := by
  have := l.isLt
  have hgroup : 128 * (l.toNat / 8 % 8) < 2 ^ 10 := by omega
  have hband : 40 * (l.toNat / 64) < 2 ^ 7 := by omega
  calc (mapOffset l).toNat
      = (1024 * (l.toNat % 8) ||| 128 * (l.toNat / 8 % 8)) ||| 40 * (l.toNat / 64) := by
        rw [mapOffset, BitVec.toNat_or, BitVec.toNat_or, rowField_toNat, groupField_toNat, bandField_toNat]
    _ = 128 * (8 * (l.toNat % 8) + l.toNat / 8 % 8) ||| 40 * (l.toNat / 64) := by
        rw [← Nat.two_pow_add_eq_or_of_lt hgroup (l.toNat % 8)]
        congr 1
        omega
    _ = 1024 * (l.toNat % 8) + 128 * (l.toNat / 8 % 8) + 40 * (l.toNat / 64) := by
        rw [← Nat.two_pow_add_eq_or_of_lt hband]
        omega

/-- Settles O13: the written offset is `mapOffset` of the line, whose number is R121's sum. -/
theorem qMapAndLMapWriteTheOffset : Obligations.QMapAndLMapWriteTheOffset := fun s =>
  ⟨mapOffset s.line, mapOffset_toNat s.line, by rw [BitVec.ofNat_toNat]; rfl, rfl⟩

/-! ## The fetch (R125 to R127) -/

/-- Outside `IDLE` the line of a fault is `LINE` (60_exceptions.md R283). -/
theorem faultLine_of_ne_idle {s : State} (h : s.st ≠ .idle) : s.faultLine = s.line := if_neg h

/-- A step that may fault answers a next state either way. -/
theorem settle_eq_next (s : State) (r : Except FaultCode State) : ∃ t, settle s r = .next t := by
  cases r with
  | ok t => exact ⟨t, settle_ok s t⟩
  | error c => exact ⟨raiseFault c s, settle_error s c⟩

/-- A fetch instruction answers a next state. -/
theorem fetch_eq_next {i : Instr} (s : State) (hi : i = .cFetch ∨ i = .mFetch) : ∃ t, exec i s = .next t := by
  rcases hi with rfl | rfl <;> exact settle_eq_next s _

/-- Settles O14: a fetch has the three endings of `fetch_cases`, and `I` and the offset say which one it is. -/
theorem fetchReadsOneByteOrTheSyntheticOne : Obligations.FetchReadsOneByteOrTheSyntheticOne := by
  intro s i hi next a v
  have hnext : i = .cFetch ∧ next = afterCFetch s.i ∨ i = .mFetch ∧ next = .mInject := by
    rcases hi with rfl | rfl
    · exact .inl ⟨rfl, rfl⟩
    · exact .inr ⟨rfl, rfl⟩
  have hlt : s.i.toNat < 40 → s.i ≠ 40 := fun h e => absurd (e ▸ h) (by decide)
  obtain ⟨t, ht⟩ := fetch_eq_next s hi
  rw [ht]
  rcases fetch_cases hnext ht with ⟨h40, rfl⟩ | ⟨hne, ha, v', rfl, rfl⟩ | ⟨hne, ha, rfl⟩
  · exact ⟨fun _ => rfl, fun h => absurd h40 (hlt h), fun h => absurd h40 (hlt h)⟩
  · exact ⟨fun h => absurd h hne, fun _ _ => rfl, fun _ h => absurd ha (Nat.not_lt.mpr h)⟩
  · refine ⟨fun h => absurd h hne, fun _ h => absurd h (Nat.not_lt.mpr ha), fun _ _ hst => ?_⟩
    rw [raiseFault, faultLine_of_ne_idle hst]
    rfl

end Sys2Proof.Machine
end

section
/-! PROOFS. The window and the accumulator (42_dot_window_decoder.md): what each step does to a bit of `W`, what it does
to the counters, and its next state. -/

namespace Sys2Proof.Machine

/-! ## The color window (R153 to R156) -/

/-- A dot pattern at place `k` fills the 14 bits from `k` on and no other. -/
theorem getLsbD_pattern_shiftLeft_bounded (p : BitVec 14) {k m : Nat} (hm : m < 32) :
    (p.setWidth 32 <<< k).getLsbD m = (decide (k ≤ m) && decide (m < k + 14) && p.getLsbD (m - k)) := by
  rw [getLsbD_pattern_shiftLeft p hm]
  by_cases hk : m < k + 14
  · simp [hk]
  · simp [hk, BitVec.getLsbD_of_ge p (m - k) (by omega)]

/-- Settles O15: the window is the pattern at place `CSEED_SHIFT`, which is 15. -/
theorem cSeedLoadsTheFirstByte : Obligations.CSeedLoadsTheFirstByte := by
  refine fun s => ⟨(dotpatC s.cfg s.byte).setWidth 32 <<< s.cfg.cseedShift.val, fun m hm => ?_, rfl⟩
  rw [Fixed.val_eq, getLsbD_pattern_shiftLeft_bounded _ hm]

/-- The mask of the bleed is bit 14. -/
theorem getLsbD_bleedMask {m : Nat} (hm : m < 32) : (0x00004000 : BitVec 32).getLsbD m = decide (m = 14) := by
  revert m
  decide

/-- The bleed changes bit 14 only, to its union with bit 15 for a delayed byte. -/
theorem getLsbD_bleedWindow (b : Byte) (w : BitVec 32) {m : Nat} (hm : m < 32) :
    (bleedWindow b w).getLsbD m = (w.getLsbD m || (decide (m = 14) && b.getLsbD 7 && w.getLsbD 15)) := by
  unfold bleedWindow
  split_ifs with hb
  · rw [BitVec.getLsbD_or, BitVec.getLsbD_and, BitVec.getLsbD_ushiftRight, getLsbD_bleedMask hm, hb]
    by_cases h14 : m = 14 <;> simp [h14]
  · rw [Bool.eq_false_iff.mpr hb, Bool.and_false, Bool.false_and, Bool.or_false]

/-- Settles O16: `C_BLEED` is the bleed of the window. -/
theorem cBleedReplicatesTheTrailingDot : Obligations.CBleedReplicatesTheTrailingDot := fun s =>
  ⟨bleedWindow s.byte s.w, fun _ hm => getLsbD_bleedWindow s.byte s.w hm, rfl⟩

/-- Settles O17: the merged pattern stands at place `CMERGE_SHIFT`, which is 1. -/
theorem cMergeOrsThePatternIntoTheLowPart : Obligations.CMergeOrsThePatternIntoTheLowPart := by
  refine fun s => ⟨s.w ||| ((dotpatC s.cfg s.byte).setWidth 32 <<< s.cfg.cmergeShift.val), fun m hm => ?_, rfl⟩
  rw [BitVec.getLsbD_or, Fixed.val_eq, getLsbD_pattern_shiftLeft_bounded _ hm]

/-- A shift by one group moves every bit up by two places, with zeros below. -/
theorem getLsbD_shiftGroup (w : BitVec 32) {m : Nat} (hm : m < 32) :
    (w <<< 2).getLsbD m = (decide (2 ≤ m) && w.getLsbD (m - 2)) := by
  rw [BitVec.getLsbD_shiftLeft, decide_eq_true hm, Bool.true_and, ← decide_not, decide_eq_decide.mpr Nat.not_lt]

/-- The next group's number, below the last of the seven groups (R156). -/
theorem toNat_nextGroup {k : BitVec 3} (h : k.toNat < 6) : (k + 1).toNat = k.toNat + 1 := by
  bv_omega

/-- The next byte's index: `I` stays in its 6 bits, up to the 41 of 10_state.md R26. -/
theorem toNat_nextByte {i : BitVec 6} (h : i.toNat ≤ 40) : (i + 1).toNat = i.toNat + 1 := by
  bv_omega

/-- Settles O18: `K` and `I` are taken by the cases of R156, `K` below 6 and `K` equal to 6. -/
theorem cShiftConsumesOneGroup : Obligations.CShiftConsumesOneGroup := by
  intro s _ hi
  refine ⟨s.w <<< 2, if s.k = 6 then 0 else s.k + 1, if s.k = 6 then s.i + 1 else s.i,
    fun m hm => getLsbD_shiftGroup s.w hm, fun hk => ?_, fun hk => ?_, rfl⟩
  · have hne : s.k ≠ 6 := fun e => absurd (e ▸ hk) (by decide)
    rw [if_neg hne, if_neg hne]
    exact ⟨toNat_nextGroup hk, rfl⟩
  · have he : s.k = 6 := BitVec.eq_of_toNat_eq hk
    rw [if_pos he, if_pos he]
    exact ⟨rfl, toNat_nextByte hi⟩

/-! ## The mono accumulator (R159, R160) -/

/-- The injection changes bit `DOTC` only: it copies the bit below, or, into an empty accumulator in mode `EVERY`, the
last drained bit. -/
theorem getLsbD_injectWindow (mode : BleedMode) (b : Byte) (w : BitVec 32) (dotc i : BitVec 6) (last : Bool) {m : Nat}
    (hm : m < 32) : (injectWindow mode b w dotc i last).getLsbD m =
      (w.getLsbD m || (decide (m = dotc.toNat) && b.getLsbD 7 &&
        (if dotc.toNat > 0 then w.getLsbD (dotc.toNat - 1)
         else decide (mode = .every) && decide (i.toNat > 0) && last))) := by
  unfold injectWindow
  cases b.getLsbD 7 with
  | false => rw [if_neg Bool.false_ne_true, Bool.and_false, Bool.false_and, Bool.or_false]
  | true =>
    rw [if_pos rfl, Bool.and_true]
    split_ifs with hdotc hevery
    · rw [BitVec.getLsbD_or, getLsbD_ofBool_shiftLeft _ hm]
    · rw [BitVec.getLsbD_or, getLsbD_ofBool_shiftLeft _ hm, ← Bool.decide_and, decide_eq_true hevery, Bool.true_and]
    · rw [← Bool.decide_and, decide_eq_false hevery, Bool.false_and, Bool.and_false, Bool.or_false]

/-- Settles O19: `M_INJECT` is the injection into the accumulator. -/
theorem mInjectCopiesThePreviousDot : Obligations.MInjectCopiesThePreviousDot := fun s _ =>
  ⟨injectWindow s.cfg.monoBleedMode s.byte s.w s.dotc s.i s.lastdot,
    fun _ hm => getLsbD_injectWindow _ s.byte s.w s.dotc s.i s.lastdot hm, rfl⟩

/-- The dots buffered after a merge, for the legal values of `DOTC` (10_state.md R23). -/
theorem toNat_mergedDots {dotc : BitVec 6} (h : dotc.toNat ≤ 32) : (dotc + 14).toNat = dotc.toNat + 14 := by
  bv_omega

/-- With at least two buffered dots after the merge, what does not fetch emits. -/
theorem afterMMerge_of_two_le (limit : Nat) (i : BitVec 6) {dotc : BitVec 6} (h : 2 ≤ dotc.toNat) :
    afterMMerge limit i dotc = if i.toNat < 40 ∧ dotc.toNat ≤ limit then .mFetch else .mEmit := by
  rw [afterMMerge, if_pos h]

/-- Settles O20: neither counter wraps on its legal values, and the 14 merged dots are enough to emit. -/
theorem mMergeAppendsThePattern : Obligations.MMergeAppendsThePattern := by
  intro s hd hi
  have hdotc := toNat_mergedDots hd
  have hindex := toNat_nextByte hi
  refine ⟨s.w ||| ((dotpatM s.cfg s.byte).setWidth 32 <<< s.dotc.toNat), s.dotc + 14, s.i + 1, fun m hm => ?_,
    hdotc, hindex, ?_⟩
  · rw [BitVec.getLsbD_or, getLsbD_pattern_shiftLeft _ hm]
  · rw [← hdotc, ← hindex, ← afterMMerge_of_two_le s.cfg.monoLoadLimit (s.i + 1) (by omega)]
    rfl

end Sys2Proof.Machine
end

section
/-! PROOFS. The producer (44_scanline_producer.md): the steps that open a line and hand its buffer over. -/

namespace Sys2Proof.Machine

/-! ## Opening the line (R213) -/

/-- Settles O28: `L_MODE` writes what R213 says by definition, and `ODD` starts a line at `ODD_INIT`, which is 0. -/
theorem lModeClearsTheDatapath : Obligations.LModeClearsTheDatapath := by
  intro s
  change execLMode s = _
  rw [execLMode, oddAtLineStart_eq]
  rfl

/-! ## Handing the buffer over (R216) -/

/-- `L_SUBMIT` answers a next state. -/
theorem lSubmit_eq_next (s : State) : ∃ t, exec .lSubmit s = .next t := settle_eq_next s _

/-- Outside `IDLE` a fault records the state and `LINE` (60_exceptions.md R283). -/
theorem raiseFault_of_ne_idle {s : State} (c : FaultCode) (h : s.st ≠ .idle) : raiseFault c s = { s with
    fvalid := true, fcode := c.code, fst := s.st.code, fline := s.line, st := .fault,
    history := s.history ++ [.fault c.code s.st.code s.line] } := by
  rw [raiseFault, faultLine_of_ne_idle h]

/-- The next line's number, at the width of `LINE`. -/
theorem nextLine_eq_ofNat (l : BitVec 8) : l + 1 = BitVec.ofNat 8 (l.toNat + 1) := by
  rw [BitVec.ofNat_add, BitVec.ofNat_toNat, BitVec.setWidth_eq]
  rfl

/-- A position equals 280 exactly when its number does. -/
theorem position_eq_280_iff (j : BitVec 9) : j = 280 ↔ j.toNat = 280 := BitVec.toNat_inj.symm

/-- Settles O29: `L_SUBMIT` has the three endings of `lSubmit_cases`, and the buffer's owner and `J` say which one it
is. -/
theorem lSubmitHandsTheBufferOver : Obligations.LSubmitHandsTheBufferOver := by
  refine ⟨fun s l hown hbuf hj => ?_, fun s hst hown => ?_, fun s l hst hown hbuf hj => ?_⟩ <;>
    obtain ⟨t, ht⟩ := lSubmit_eq_next s <;> rw [ht]
  · refine ⟨t, rfl, ?_⟩
    rcases lSubmit_cases ht with ⟨l', -, hbuf', -, rfl⟩ | ⟨hnone, -⟩ | ⟨-, hne, -⟩
    · obtain rfl : l = l' := Option.some.inj (hbuf.symm.trans hbuf')
      rw [nextLine_eq_ofNat]
    · simp [hown, hbuf] at hnone
    · exact absurd ((position_eq_280_iff s.j).mpr hj) hne
  · rcases lSubmit_cases ht with ⟨-, hheld, -⟩ | ⟨-, rfl⟩ | ⟨hheld, -⟩
    · exact absurd hheld hown
    · rw [raiseFault_of_ne_idle _ hst]
      rfl
    · exact absurd hheld hown
  · rcases lSubmit_cases ht with ⟨-, -, -, h280, -⟩ | ⟨hnone, -⟩ | ⟨-, -, rfl⟩
    · exact absurd ((position_eq_280_iff s.j).mp h280) hj
    · simp [hown, hbuf] at hnone
    · rw [raiseFault_of_ne_idle _ hst]
      rfl

end Sys2Proof.Machine
end

section
/-! PROOFS. The orchestrator (45_frame_orchestrator.md): the page selection and the start of a frame. -/

namespace Sys2Proof.Machine

/-! ## The page selection (R250) -/

/-- The truth table of R250: page 2 needs `PAGE2` set and `EXTMEM` clear. -/
theorem pageSel_eq_one_iff (page2 ext : Bool) : pageSel page2 ext = 1 ↔ page2 = true ∧ ext = false := by
  cases page2 <;> cases ext <;> decide

/-- Settles O26: both steps write `pageSel` of the two mode bits, and `RESULT` holds it at its own width. -/
theorem pageTwoNeedsPage2SetAndExtmemClear : Obligations.PageTwoNeedsPage2SetAndExtmemClear := fun s =>
  ⟨pageSel s.modePage2 s.modeExtmem, pageSel_eq_one_iff s.modePage2 s.modeExtmem, rfl,
    by rw [BitVec.ofNat_toNat]; rfl⟩

/-! ## The start of a frame (R253) -/

/-- Settles O30: `F_START` writes what R253 says by definition, and the split line of a mixed frame is fixed at 160
(00_scope.md R8). -/
theorem fStartLatchesTheLineCount : Obligations.FStartLatchesTheLineCount := by
  intro s
  change execFStart s = _
  rw [execFStart, Fixed.val_eq]
  rfl

end Sys2Proof.Machine
end

section
/-! PROOFS. The faults (60_exceptions.md): how a step that ends in `FAULT` ends, and what fault entry writes (R283). -/

namespace Sys2Proof.Machine

/-! ## Which next states are never `FAULT` (R214, R215) -/

theorem afterCFetch_ne_fault (i : BitVec 6) : afterCFetch i ≠ .fault := by
  unfold afterCFetch
  split_ifs <;> decide

theorem afterCShift_ne_fault (k : BitVec 3) (i : BitVec 6) : afterCShift k i ≠ .fault := by
  unfold afterCShift
  split_ifs <;> decide

theorem afterMMerge_ne_fault (limit : Nat) (i dotc : BitVec 6) : afterMMerge limit i dotc ≠ .fault := by
  unfold afterMMerge
  split_ifs <;> decide

theorem afterMDrain_ne_fault (i dotc : BitVec 6) : afterMDrain i dotc ≠ .fault := by
  unfold afterMDrain
  split_ifs <;> decide

/-! ## Where a fault is entered from (R283) -/

/-- The state to which an instruction applies fault entry: a DECODE step keeps the consumption of its command (R257),
and every other step starts again from its own start state, so its writes are discarded. -/
def faultBase (i : Instr) (s : State) : State :=
  match i with
  | .nop | .frame | .line _ | .mapq _ | .pselq | .idleDecode => acceptCmd s
  | _ => s

/-- The micro-operation of `IDLE` has consumed its command. -/
theorem faultBase_of_idle {s : State} (h : s.st = .idle) : faultBase s.st.uop s = acceptCmd s := by
  rw [h]
  rfl

/-- Every other micro-operation enters a fault from the state it started in. -/
theorem faultBase_of_ne_idle {s : State} (h : s.st ≠ .idle) : faultBase s.st.uop s = s := by
  cases hst : s.st with
  | idle => exact absurd hst h
  | _ => rfl

/-- An instruction that moves to `FAULT` ends by fault entry, with none of its own writes. -/
theorem exec_entersFault {i : Instr} {s t : State} (hs : s.st ≠ .fault) (h : exec i s = .next t) (ht : t.st = .fault) :
    ∃ c, t = raiseFault c (faultBase i s) := by
  cases i with
  | nop | frame | pselq | fStart | lPsel | lMap | cSeed | cBleed | cMerge | qMap | qPsel | mInject => cases h; cases ht
  | faultHalt => cases h; exact absurd ht hs
  | lMode =>
    cases h
    simp only at ht
    split_ifs at ht
  | cShift => cases h; exact absurd ht (afterCShift_ne_fault _ _)
  | mMerge => cases h; exact absurd ht (afterMMerge_ne_fault _ _ _)
  | mDrain => cases h; exact absurd ht (afterMDrain_ne_fault _ _)
  | line n =>
    rcases line_cases h with ⟨-, rfl⟩ | ⟨-, hfault⟩
    · cases ht
    · exact ⟨.lineRange, hfault⟩
  | mapq n =>
    rcases mapq_cases h with ⟨-, rfl⟩ | ⟨-, hfault⟩
    · cases ht
    · exact ⟨.lineRange, hfault⟩
  | idleDecode =>
    rcases idleDecode_cases h with ⟨-, rfl⟩ | ⟨-, ⟨c, -, hfault⟩ | ⟨-, rfl⟩ | ⟨-, rfl⟩ | ⟨n, -, -, rfl⟩ |
      ⟨n, -, -, rfl⟩ | ⟨-, rfl⟩⟩
    · exact absurd ht hs
    · exact ⟨c, hfault⟩
    all_goals cases ht
  | fNext =>
    rcases fNext_cases h with ⟨-, rfl⟩ | ⟨-, -, -, rfl⟩ | ⟨-, -, -, rfl⟩ | ⟨-, -, rfl⟩
    · cases ht
    · exact absurd ht hs
    · cases ht
    · cases ht
  | fText =>
    rcases fText_cases h with ⟨-, rfl⟩ | ⟨-, rfl⟩
    · cases ht
    · exact absurd ht hs
  | lAcq =>
    rcases lAcq_cases h with ⟨-, rfl⟩ | ⟨b, -, -, rfl⟩
    · exact absurd ht hs
    · cases ht
  | cFetch =>
    rcases fetch_cases (.inl ⟨rfl, rfl⟩) h with ⟨-, rfl⟩ | ⟨-, -, v, -, rfl⟩ | ⟨-, -, hfault⟩
    · exact absurd ht (afterCFetch_ne_fault _)
    · exact absurd ht (afterCFetch_ne_fault _)
    · exact ⟨.addrRange, hfault⟩
  | mFetch =>
    rcases fetch_cases (.inr ⟨rfl, rfl⟩) h with ⟨-, rfl⟩ | ⟨-, -, v, -, rfl⟩ | ⟨-, -, hfault⟩
    · cases ht
    · cases ht
    · exact ⟨.addrRange, hfault⟩
  | cEmit | mEmit =>
    rcases emitTriple_cases h with ⟨-, -, rfl⟩ | ⟨-, hfault⟩ | ⟨-, -, hfault⟩
    · cases ht
    · exact ⟨.bufOwnership, hfault⟩
    · exact ⟨.indexRange, hfault⟩
  | lSubmit =>
    rcases lSubmit_cases h with ⟨l, -, -, -, rfl⟩ | ⟨-, hfault⟩ | ⟨-, -, hfault⟩
    · simp only at ht
      split_ifs at ht
    · exact ⟨.bufOwnership, hfault⟩
    · exact ⟨.symCount, hfault⟩

/-! ## What fault entry writes (R283) -/

/-- In `IDLE` a fault consumes the command, and records the code 0 of `IDLE` and the command's low byte. -/
theorem raiseFault_acceptCmd_of_idle {s : State} (c : FaultCode) (h : s.st = .idle) :
    raiseFault c (acceptCmd s) = { s with
      cmdValid := false, fvalid := true, fcode := c.code, fst := 0, fline := s.cmd.extractLsb' 0 8, st := .fault,
      history := s.history ++ [.accept s.cmd, .fault c.code 0 (s.cmd.extractLsb' 0 8)] } := by
  have hline : (acceptCmd s).faultLine = s.cmd.extractLsb' 0 8 := if_pos h
  have hcode : (acceptCmd s).st.code = 0 := by rw [acceptCmd_st, h]; rfl
  rw [raiseFault, hline, hcode, acceptCmd_history, List.append_assoc]
  rfl

/-- Settles O34: a faulting renderer step ends by fault entry (`exec_entersFault`), in `IDLE` after the command is
consumed and elsewhere from the state it started in. -/
theorem faultsArePrecise : Obligations.FaultsArePrecise := by
  refine ⟨by decide, fun s t hs h ht => ?_⟩
  obtain ⟨c, rfl⟩ := exec_entersFault hs h ht
  refine ⟨c, fun hidle => ?_, fun hne => ?_⟩
  · rw [faultBase_of_idle hidle, raiseFault_acceptCmd_of_idle c hidle]
  · rw [faultBase_of_ne_idle hne, raiseFault_of_ne_idle c hne]

end Sys2Proof.Machine
end

section
/-! PROOFS. Reset (70_reset_and_hazards.md section 1): the step of a reset at the head of the schedule, and the buffers
it leaves. -/

namespace Sys2Proof.Machine

/-! ## The reset step (R310, R313) -/

/-- A reset is never refused and never faults: it runs from whatever state it meets. -/
theorem step_of_reset {s : State} {rest : List Agent} (h : s.schedule = .reset :: rest) :
    step s = .next (systemReset { s with schedule := rest }) := by
  rw [step, h]
  rfl

/-! ## The buffers after a reset (R310) -/

theorem systemReset_own_length (s : State) : (systemReset s).own.length = s.cfg.nbuf := by
  rw [systemReset_own, List.length_replicate]

theorem systemReset_buf_length (s : State) : (systemReset s).buf.length = s.cfg.nbuf := by
  rw [systemReset_buf, buffersAny_length]

/-- A held buffer and a buffer in transport are freed alike (log 25). -/
theorem systemReset_own_free {s : State} {b : Nat} (h : b < s.cfg.nbuf) : (systemReset s).own[b]? = some .free := by
  rw [systemReset_own, List.getElem?_replicate_of_lt h]

/-- Settles O45: the step is `systemReset` (`step_of_reset`), which sets each register by definition; the buffers are
counted, and all free, by the three lemmas above. -/
theorem resetSetsTheStatedValues : Obligations.ResetSetsTheStatedValues := by
  intro s rest h
  refine ⟨_, step_of_reset h, rfl, rfl, rfl, rfl, rfl, rfl, rfl, rfl, rfl, rfl, rfl, rfl, rfl, rfl, rfl, rfl, rfl, rfl, rfl,
    rfl, rfl, rfl, rfl, rfl, rfl, rfl, ?ownCount, ?ownFree, ?bufCount, rfl, rfl, rfl⟩
  case ownCount => exact systemReset_own_length _
  case ownFree => exact fun b hb => systemReset_own_free hb
  case bufCount => exact systemReset_buf_length _

end Sys2Proof.Machine
end

section
/-! PROOFS. The decoder and the encoder (30_encoding.md): each format reads exactly the words it writes, and a placed
word is the one that the next step runs. -/

namespace Sys2Proof
open Machine

/-! ## Command words (R93) -/

/-- The word of a command. -/
def Cmd.word : Cmd → BitVec 16
  | .nop => cmdWord 0 0
  | .frame => cmdWord 1 0
  | .line n => cmdWord 2 n
  | .mapq n => cmdWord 3 n
  | .pselq => cmdWord 4 0

theorem encode_toInstr (c : Cmd) : encode c.toInstr = .cmd16 c.word := by
  cases c <;> rfl

theorem rsvOf_word (c : Cmd) : rsvOf c.word = 0 := by
  cases c <;> exact ((eq_cmdWord_iff _ _ _).mp rfl).1

/-- A word is read as a command exactly when it is that command's word: the three fields determine the word. -/
theorem readCmd_eq_some_iff (w : BitVec 16) (c : Cmd) : readCmd w = some c ↔ w = c.word := by
  unfold readCmd
  split_ifs with hrsv hopc himm hopc himm hopc hopc hopc himm
  · exact iff_of_false nofun fun h => hrsv (h ▸ rsvOf_word c)
  all_goals cases c <;> simp_all [Cmd.word, eq_cmdWord_iff]

/-! ## State codes (R101, R102) -/

theorem encode_uop (x : St) : encode x.uop = .uop5 x.code := by
  cases x <;> rfl

theorem ofCode_code (x : St) : St.ofCode x.code = some x := by
  cases x <;> rfl

/-- No two states share a code. -/
theorem code_injective : Function.Injective St.code := fun x y h =>
  Option.some.inj ((ofCode_code x).symm.trans (h ▸ ofCode_code y))

/-- No two states name the same micro-operation: their encodings differ. -/
theorem uop_injective : Function.Injective St.uop := fun x y h =>
  code_injective (Encoded.uop5.inj ((encode_uop x).symm.trans (h ▸ encode_uop y)))

/-- A micro-operation is no command: they are encoded in different formats. -/
theorem uop_ne_toInstr (x : St) (c : Cmd) : x.uop ≠ c.toInstr := fun h =>
  nomatch (encode_uop x).symm.trans ((congrArg encode h).trans (encode_toInstr c))

/-- The states that have a code, looked up in the table. -/
theorem code_of_ofCode (k : BitVec 5) : ∀ x, St.ofCode k = some x → x.code = k := by
  revert k
  decide

/-! ## Both formats (R90) -/

/-- What `decode` reads is what `encode` writes. -/
theorem encode_of_decode {e : Encoded} {i : Instr} (h : decode e = .ok i) : encode i = e := by
  cases e with
  | cmd16 w =>
    cases hr : readCmd w with
    | none => simp [decode, hr] at h
    | some c =>
      obtain rfl : c.toInstr = i := by simpa [decode, hr] using h
      rw [encode_toInstr, (readCmd_eq_some_iff w c).mp hr]
  | uop5 k =>
    cases hr : St.ofCode k with
    | none => simp [decode, hr] at h
    | some x =>
      obtain rfl : x.uop = i := by simpa [decode, hr] using h
      rw [encode_uop, code_of_ofCode k x hr]

theorem decode_word (c : Cmd) : decode (.cmd16 c.word) = .ok c.toInstr := by
  rw [decode, (readCmd_eq_some_iff c.word c).mpr rfl]

/-- The decoder reads back every word the encoder writes. -/
theorem decode_encode (i : Instr) : decode (encode i) = .ok i := by
  cases i with
  | nop => exact decode_word .nop
  | frame => exact decode_word .frame
  | line n => exact decode_word (.line n)
  | mapq n => exact decode_word (.mapq n)
  | pselq => exact decode_word .pselq
  | _ => rfl

/-- Settles O1: what is decoded is what was encoded (`encode_of_decode`), and every encoding is read back
(`decode_encode`). -/
theorem decodeReadsExactlyWhatEncodeWrites : Obligations.DecodeReadsExactlyWhatEncodeWrites := fun _ i =>
  ⟨encode_of_decode, fun h => h ▸ decode_encode i⟩

/-- Exactly the codes 0x16 to 0x1E name no state (R102). -/
theorem decode_uop5_unused_iff (k : BitVec 5) :
    decode (.uop5 k) = .error .unusedState ↔ 0x16 ≤ k.toNat ∧ k.toNat ≤ 0x1E := by
  revert k
  decide

/-- Settles O3: the words are read one by one, and the unused codes by `decode_uop5_unused_iff`. -/
theorem wordsOfTheSpecDecode : Obligations.WordsOfTheSpecDecode :=
  ⟨rfl, rfl, rfl, rfl, rfl, rfl, rfl, rfl, rfl, rfl, rfl, rfl, rfl, rfl, rfl, decode_uop5_unused_iff⟩

/-! ## The word that the next step runs (R100, log 14) -/

theorem step_of_schedule_nil {s : State} (h : s.schedule = []) : step s = exec s.st.uop s := by
  rw [step, h]
  rfl

theorem step_of_schedule_cons {s : State} {a : Agent} {rest : List Agent} (h : s.schedule = a :: rest) :
    step s = agentStep a { s with schedule := rest } := by
  rw [step, h]

/-- Settles O4: the code of `ST` is read back (`ofCode_code`), and the renderer's step is `exec` by definition. -/
theorem stepRunsTheInstructionThatStNames : Obligations.StepRunsTheInstructionThatStNames := fun s =>
  ⟨by rw [← encode_uop, decode_encode], step_of_schedule_nil, fun _ h => step_of_schedule_cons h⟩

/-! ## The DECODE step (45_frame_orchestrator.md R257) -/

/-- DECODE holds without a command. -/
theorem idleDecode_of_not_valid {s : State} (h : s.cmdValid = false) : exec .idleDecode s = .next s := if_pos h

/-- DECODE takes the fault of a refused word. -/
theorem idleDecode_of_error {s : State} {c : FaultCode} (hv : s.cmdValid = true) (h : decodeCmd s.cmd = .error c) :
    exec .idleDecode s = .next (raiseFault c (acceptCmd s)) := by
  simp only [exec, execIdleDecode, hv, h, Bool.true_eq_false, if_false]

/-- DECODE performs an accepted command. -/
theorem idleDecode_of_ok {s : State} {c : Cmd} (hv : s.cmdValid = true) (h : decodeCmd s.cmd = .ok c) :
    exec .idleDecode s = exec c.toInstr s := by
  simp only [exec, execIdleDecode, hv, h, Bool.true_eq_false, if_false]
  cases c <;> rfl

/-- A command with a line out of range takes `LINE_RANGE` as DECODE does. -/
theorem exec_of_not_wellFormed {c : Cmd} (s : State) (h : ¬ c.toInstr.wellFormed = true) :
    exec c.toInstr s = .next (raiseFault .lineRange (acceptCmd s)) := by
  cases c with
  | nop | frame | pselq => exact absurd rfl h
  | line n | mapq n => exact if_pos (by simpa [Cmd.toInstr, Instr.wellFormed] using h)

/-- DECODE runs the command that the waiting word is, in range or not. -/
theorem idleDecode_of_readCmd {s : State} {c : Cmd} (hv : s.cmdValid = true) (h : readCmd s.cmd = some c) :
    exec .idleDecode s = exec c.toInstr s := by
  by_cases hw : c.toInstr.wellFormed = true
  · exact idleDecode_of_ok hv (by rw [decodeCmd_eq_checkCmd, h, checkCmd, if_pos hw])
  · rw [exec_of_not_wellFormed s hw]
    exact idleDecode_of_error hv (by rw [decodeCmd_eq_checkCmd, h, checkCmd, if_neg hw])

/-- The word of a command decodes to the command. -/
theorem decode_cmd16_eq_ok {w : BitVec 16} {i : Instr} (h : decode (.cmd16 w) = .ok i) :
    ∃ c, readCmd w = some c ∧ i = c.toInstr := by
  cases hr : readCmd w with
  | none => simp [decode, hr] at h
  | some c => exact ⟨c, rfl, by simpa [decode, hr] using h.symm⟩

/-- A word that decodes to nothing is illegal. -/
theorem decode_cmd16_eq_error {w : BitVec 16} {e : DecodeError} (h : decode (.cmd16 w) = .error e) :
    decodeCmd w = .error .illegalCmd := by
  rw [decodeCmd_eq_checkCmd]
  cases hr : readCmd w with
  | none => rfl
  | some c => simp [decode, hr] at h

/-- Settles O5: a word that is a command is run (`idleDecode_of_readCmd`), and any other takes `ILLEGAL_CMD`. -/
theorem decodeStepRunsTheDecodedCommand : Obligations.DecodeStepRunsTheDecodedCommand := by
  refine fun s hst hv => ⟨fun i h => ?_, fun e h => ?_⟩
  · obtain ⟨c, hr, rfl⟩ := decode_cmd16_eq_ok h
    exact idleDecode_of_readCmd hv hr
  · rw [idleDecode_of_error hv (decode_cmd16_eq_error h), raiseFault_acceptCmd_of_idle _ hst]
    rfl

/-- A number that decodes stands for its format's word. -/
theorem decodeTableWord_eq_some {nbits w : Nat} {i : Instr} (h : decodeTableWord nbits w = some i) :
    decode (if nbits ≤ 8 then .uop5 (BitVec.ofNat 5 w) else .cmd16 (BitVec.ofNat 16 w)) = .ok i := by
  unfold decodeTableWord at h
  split_ifs at h ⊢
  all_goals
    split at h
    · rwa [← Option.some.inj h]
    · cases h

/-- Settles O6: a placed code is the code of `ST`, and a placed word waits in `IDLE` for DECODE. -/
theorem placedWordIsRunByTheNextStep : Obligations.PlacedWordIsRunByTheNextStep := by
  intro s nbits w i hbits h
  have hdec := decodeTableWord_eq_some h
  unfold State.withFetchWord
  rcases hbits with rfl | rfl
  · obtain ⟨x, hx, rfl⟩ : ∃ x, St.ofCode (BitVec.ofNat 5 w) = some x ∧ x.uop = i := by
      cases hx : St.ofCode (BitVec.ofNat 5 w) with
      | none => simp [decode, hx] at hdec
      | some x => exact ⟨x, rfl, by simpa [decode, hx] using hdec⟩
    simp only [hx]
    rfl
  · obtain ⟨c, hr, rfl⟩ := decode_cmd16_eq_ok hdec
    rw [if_neg (by decide), step_of_schedule_nil rfl]
    exact idleDecode_of_readCmd rfl hr

end Sys2Proof
end

section
/-! PROOFS. The commands (45_frame_orchestrator.md section 1): the whole effect of each, and what DECODE makes of a
word. -/

namespace Sys2Proof.Machine

/-- Settles O8: the three commands do what the statement says by definition. -/
theorem nopFrameAndPselqConsumeTheirWord : Obligations.NopFrameAndPselqConsumeTheirWord := fun _ =>
  ⟨rfl, rfl, rfl⟩

/-- A line below 192 is taken. -/
theorem line_of_lt {n : BitVec 8} (s : State) (h : n.toNat < 192) :
    exec (.line n) s = .next { acceptCmd s with line := n, ret := false, st := .lPsel } := if_neg (Nat.not_le.mpr h)

theorem mapq_of_lt {n : BitVec 8} (s : State) (h : n.toNat < 192) :
    exec (.mapq n) s = .next { acceptCmd s with line := n, st := .qMap } := if_neg (Nat.not_le.mpr h)

/-- Settles O9: a line below 192 is taken, and any other takes `LINE_RANGE` with the line that `IMM8` holds. -/
theorem lineAndMapqTakeTheirLineOrFault : Obligations.LineAndMapqTakeTheirLineOrFault := by
  rintro s n hst rfl
  refine ⟨fun h => ⟨line_of_lt s h, mapq_of_lt s h⟩, fun h i hi => ?_⟩
  have hfault : exec i s = .next (raiseFault .lineRange (acceptCmd s)) := by
    rcases hi with rfl | rfl <;> exact if_pos h
  rw [hfault, raiseFault_acceptCmd_of_idle _ hst]
  rfl

end Sys2Proof.Machine
end

section
/-! PROOFS. The mapper's offsets as a set (20_memory.md R65, 41_memory_address_mapper.md R121). -/

namespace Sys2Proof.Machine

/-- A multiple of a power of two has no bit in common with a number below it. -/
theorem and_eq_zero_of_mul_of_lt {n : Nat} {x y : BitVec n} (k a : Nat) (hx : x.toNat = 2 ^ k * a)
    (hy : y.toNat < 2 ^ k) : x &&& y = 0#n := by
  apply BitVec.eq_of_getLsbD_eq
  intro m _
  rw [BitVec.getLsbD_and, BitVec.getLsbD_zero, BitVec.getLsbD, BitVec.getLsbD, hx, Nat.testBit_two_pow_mul]
  by_cases hm : k ≤ m
  · rw [Nat.testBit_lt_two_pow (hy.trans_le (Nat.pow_le_pow_right (by decide) hm)), Bool.and_false]
  · rw [decide_eq_false hm, Bool.false_and, Bool.false_and]

/-- The offset of position `x` of line `l` gives back the row, the group, the band and the position: the band and the
position together stay below 120. -/
theorem fetchOffset_fields {l : BitVec 8} {x a : Nat} (hl : l.toNat < 192) (hx : x < 40)
    (ha : (mapOffset l).toNat + x = a) :
    a / 1024 = l.toNat % 8 ∧ a / 128 % 8 = l.toNat / 8 % 8 ∧ a % 128 = 40 * (l.toNat / 64) + x := by
  rw [mapOffset_toNat] at ha
  have hrow : l.toNat % 8 < 8 := Nat.mod_lt _ (by decide)
  have hgroup : l.toNat / 8 % 8 < 8 := Nat.mod_lt _ (by decide)
  have hband : l.toNat / 64 < 3 := by omega
  generalize l.toNat % 8 = row at *
  generalize l.toNat / 8 % 8 = group at *
  generalize l.toNat / 64 = band at *
  have hgroups : a / 128 = 8 * row + group := by omega
  refine ⟨?_, ?_, ?_⟩ <;> omega

/-- No two lines below 192 share an offset, and no line reads one twice. -/
theorem fetchOffset_injective {l m : BitVec 8} {x y : Nat} (hl : l.toNat < 192) (hm : m.toNat < 192) (hx : x < 40)
    (hy : y < 40) (h : (mapOffset l).toNat + x = (mapOffset m).toNat + y) : l = m ∧ x = y := by
  obtain ⟨hrow, hgroup, hband⟩ := fetchOffset_fields hl hx h
  obtain ⟨hrow', hgroup', hband'⟩ := fetchOffset_fields hm hy rfl
  exact ⟨BitVec.eq_of_toNat_eq (by omega), by omega⟩

/-- Only line 255 ends past the page, from position 8 on. -/
theorem fetchOffset_past_page_iff (l : BitVec 8) {x : Nat} (hx : x < 40) :
    (mapOffset l).toNat + x ≥ 8192 ↔ l = 255 ∧ 8 ≤ x := by
  have hl := l.isLt
  have h255 : l = 255 ↔ l.toNat = 255 := BitVec.toNat_inj.symm
  rw [mapOffset_toNat, h255]
  have hline : l.toNat = 64 * (l.toNat / 64) + 8 * (l.toNat / 8 % 8) + l.toNat % 8 := by omega
  have hrow : l.toNat % 8 < 8 := Nat.mod_lt _ (by decide)
  have hgroup : l.toNat / 8 % 8 < 8 := Nat.mod_lt _ (by decide)
  generalize l.toNat % 8 = row at *
  generalize l.toNat / 8 % 8 = group at *
  have hband : l.toNat / 64 < 4 := by omega
  generalize l.toNat / 64 = band at *
  refine ⟨fun h => ?_, fun _ => by omega⟩
  obtain ⟨rfl, rfl, rfl⟩ : row = 7 ∧ group = 7 ∧ band = 3 := by omega
  omega

/-- Settles O11: the value of R121 item 1 (`mapOffset_toNat`) gives every other item by arithmetic. -/
theorem mapOffsetInterleavesTheLines : Obligations.MapOffsetInterleavesTheLines := by
  refine ⟨fun l => ?_, by decide, fun l m hl hm hne x y hx hy h => hne (fetchOffset_injective hl hm hx hy h).1,
    ?_, ?_, ?_⟩
  · have hl := l.isLt
    have hrow := rowField_toNat l
    have hgroup := groupField_toNat l
    have hband := bandField_toNat l
    have hvalue := mapOffset_toNat l
    exact ⟨hvalue, and_eq_zero_of_mul_of_lt 10 _ hrow (by omega), and_eq_zero_of_mul_of_lt 10 _ hrow (by omega),
      and_eq_zero_of_mul_of_lt 7 _ hgroup (by omega), fun _ => by omega, by omega⟩
  all_goals
    intro l m
    simp only [mapOffset_toNat]
    omega

/-- Every row, group and band is that of a line. -/
theorem exists_line_of_fields {row group band : Nat} (hrow : row < 8) (hgroup : group < 8) (hband : band < 3) :
    ∃ l : BitVec 8, l.toNat < 192 ∧ (mapOffset l).toNat = 1024 * row + 128 * group + 40 * band := by
  have hline : (BitVec.ofNat 8 (64 * band + 8 * group + row)).toNat = 64 * band + 8 * group + row :=
    Nat.mod_eq_of_lt (by omega)
  refine ⟨BitVec.ofNat 8 (64 * band + 8 * group + row), by omega, ?_⟩
  rw [mapOffset_toNat, hline]
  have hgroups : (64 * band + 8 * group + row) / 8 = 8 * band + group := by omega
  omega

/-- Settles O12: an offset names its line and position, and one with `a mod 128` below 120 is read by the line whose
row, group and band it shows. -/
theorem linesReadExactlyTheVisibleBytes : Obligations.LinesReadExactlyTheVisibleBytes := by
  refine ⟨fun l x hl hx => ?_, fun l m x y hl hm hx hy h => fetchOffset_injective hl hm hx hy h,
    fun a ha => ⟨?_, fun h => ?_⟩, fun l x hx => fetchOffset_past_page_iff l hx⟩
  · rw [mapOffset_toNat]
    omega
  · rintro ⟨l, x, hl, hx, h⟩
    obtain ⟨-, -, hband⟩ := fetchOffset_fields hl hx h
    omega
  · obtain ⟨l, hl, ho⟩ := exists_line_of_fields (row := a / 1024) (group := a / 128 % 8) (band := a % 128 / 40)
      (by omega) (by omega) (by omega)
    exact ⟨l, a % 128 % 40, hl, by omega, by omega⟩

end Sys2Proof.Machine
end

section
/-! PROOFS. The steps that wait: the acquire of a buffer, the end of a frame, the text wait and the fault state
(44_scanline_producer.md R212, 45_frame_orchestrator.md R254, R255, R258). -/

namespace Sys2Proof.Machine

/-- Settles O27: `lowestFree` answers exactly the lowest free buffer, or none. -/
theorem lAcqTakesTheLowestFreeBufferOrHolds : Obligations.LAcqTakesTheLowestFreeBufferOrHolds := by
  refine ⟨fun s b hb hlow => ?_, fun s hnone => ?_⟩
  · rw [exec, execLAcq, lowestFree_some.mpr ⟨hb, hlow⟩]
  · rw [exec, execLAcq, lowestFree_none.mpr hnone]
    rfl

/-- Settles O31: the four cases are the branches of `F_NEXT`. -/
theorem fNextDispatchesTheNextLine : Obligations.FNextDispatchesTheNextLine := by
  intro s
  simp only [exec, execFNext, hold]
  refine ⟨fun hl => if_pos hl, fun hn hm ha => ?_, fun hn hm ha => ?_, fun hn hm => ?_⟩
  · rw [if_neg (Nat.not_lt.mpr hn), if_pos hm, if_pos ha]
  · rw [if_neg (Nat.not_lt.mpr hn), if_pos hm, if_neg (ne_true_of_eq_false ha)]
  · rw [if_neg (Nat.not_lt.mpr hn), if_neg (ne_true_of_eq_false hm)]

/-- Settles O32: the two cases are the branches of `F_TEXT`. -/
theorem fTextWaitsForTheAcknowledge : Obligations.FTextWaitsForTheAcknowledge := fun _ =>
  ⟨fun ha => if_neg (ne_true_of_eq_false ha), fun ha => if_pos ha⟩

/-- In `FAULT` the renderer holds. -/
theorem rendererStep_of_fault {s : State} (h : s.st = .fault) : rendererStep s = .next s := by
  rw [rendererStep, h]
  rfl

/-- Settles O33: in `FAULT` the renderer holds, and no agent but a reset writes `ST` or the fault registers. -/
theorem onlyAResetLeavesTheFaultState : Obligations.OnlyAResetLeavesTheFaultState := by
  refine ⟨fun s => rfl, fun s t hst h => ?_⟩
  rcases step_cases h with ⟨-, hr⟩ | ⟨a, rest, hs, ha⟩
  · cases (rendererStep_of_fault hst).symm.trans hr
    exact .inr ⟨hst, rfl, rfl, rfl, rfl⟩
  · rcases agentStep_cases ha with ⟨-, hr⟩ | ⟨w, -, -, rfl⟩ | ⟨-, -, rfl⟩ | ⟨p, x, v, -, rfl⟩ | ⟨m, -, rfl⟩ |
      ⟨b, -, -, rfl⟩ | ⟨b, -, -, rfl⟩ | ⟨v, -, -, rfl⟩ | ⟨rfl, rfl⟩
    · cases (rendererStep_of_fault (s := { s with schedule := rest }) hst).symm.trans hr
      exact .inr ⟨hst, rfl, rfl, rfl, rfl⟩
    on_goal 8 => exact .inl ⟨rest, hs, rfl⟩
    all_goals exact .inr ⟨hst, rfl, rfl, rfl, rfl⟩

end Sys2Proof.Machine
end

section
/-! PROOFS. The environment agents (60_exceptions.md R296): what each action does, and the writer's byte. -/

namespace Sys2Proof.Machine

/-- When the host may read `RESULT`, by the registers. -/
theorem resultReadable_iff (s : State) :
    s.resultReadable = true ↔ s.cmdValid = false ∧ (s.st = .idle ∨ s.st = .fault) ∧ s.fvalid = false := by
  have hbusy : s.busy = false ↔ s.st = .idle ∨ s.st = .fault := by
    rw [← Bool.not_eq_true, busy_iff]
    tauto
  simp only [State.resultReadable, State.complete, Bool.and_eq_true, Bool.not_eq_true', hbusy, and_assoc]

/-- Settles O44: each action is a branch on its duty. -/
theorem agentsKeepTheirDuties : Obligations.AgentsKeepTheirDuties := by
  refine fun s rest => ⟨fun w hs => ?_, fun b hs => ?_, fun b hs => ?_, fun v hs => ?_, fun m hs => ?_,
    fun p a v hs => ?_, fun hs => ?_⟩ <;> rw [step_of_schedule_cons hs]
  · exact ⟨fun h => if_neg (ne_true_of_eq_false h), fun h => if_pos h⟩
  · exact ⟨fun h => if_pos h, fun h => if_neg h⟩
  · exact ⟨fun h => if_pos h, fun h => if_neg h⟩
  · exact ⟨fun h => if_pos h, fun h => if_neg h⟩
  · rfl
  · rfl
  · rw [← resultReadable_iff]
    exact ⟨fun h => if_pos h, fun h => if_neg h⟩

/-- Settles O47: the write keeps the canonical form, and is read back at its own cell only. -/
theorem writerChangesExactlyOneByte : Obligations.WriterChangesExactlyOneByte := by
  intro s rest p a v hwf hs
  refine ⟨s.bitmap.write (cellAddr p a.toNat) v, step_of_schedule_cons hs, Memory.write_wf hwf p a v, fun q x hx => ?_⟩
  have hx' : (BitVec.ofNat 13 x).toNat = x := Nat.mod_eq_of_lt hx
  have hread := Memory.read_write_cell hwf p q a (BitVec.ofNat 13 x) v
  have hcond : (p = q ∧ a = BitVec.ofNat 13 x) ↔ (q = p ∧ x = a.toNat) := by
    rw [← BitVec.toNat_inj (x := a), hx', eq_comm (a := p), eq_comm (a := a.toNat)]
  rwa [hx', if_congr hcond rfl rfl] at hread

end Sys2Proof.Machine
end

section
/-! PROOFS. The emits and the drain (43_lut_indexer.md R190 to R195, 42_dot_window_decoder.md R161). -/

namespace Sys2Proof.Machine

/-! ## The emits -/

/-- An emit answers a next state. -/
theorem emitTriple_eq_next (s : State) (tr : Triple) (next : St) : ∃ t, emitTriple tr next s = .next t :=
  settle_eq_next s _

/-- With the guards met, an emit writes its triple at position `J` of the held buffer. -/
theorem emitTriple_of_held {s : State} {l : LineBuf} (tr : Triple) (next : St) (ho : s.own[s.bufid]? = some .held)
    (hb : s.buf[s.bufid]? = some l) (hj : s.j.toNat < 280) :
    emitTriple tr next s = .next { s with
      buf := s.buf.set s.bufid (l.put s.j.toNat tr), j := s.j + 1, st := next } := by
  obtain ⟨t, ht⟩ := emitTriple_eq_next s tr next
  rcases emitTriple_cases ht with ⟨-, -, rfl⟩ | ⟨hne, -⟩ | ⟨-, hge, -⟩
  · rw [ht, modify_eq_set _ _ _ hb]
  · exact absurd ho hne
  · exact absurd hj (Nat.not_lt.mpr hge)

/-- The index of the color table as a number (R190). -/
theorem cidx_toNat (c : Config) (odd : Bool) (w : BitVec 32) :
    (cidx c odd w).toNat = odd.toNat * 256 + w.toNat / 2 ^ 24 := by
  have hw := w.isLt
  rw [cidx, contextField_eq]
  refine (toNat_append_eq _ _).trans ?_
  rw [BitVec.toNat_ofBool, BitVec.extractLsb'_toNat, Nat.shiftRight_eq_div_pow]
  omega

/-- The index of the mono table as a number (R193). -/
theorem midx_toNat (w : BitVec 32) : (midx w).toNat = w.toNat % 4 := BitVec.extractLsb'_toNat ..

/-- Settles O23: the triple is the table's entry at `CIDX`. -/
theorem cEmitWritesTheColorTriple : Obligations.CEmitWritesTheColorTriple := fun s l ho hb hj =>
  ⟨(cidx s.cfg s.odd s.w).toFin, l.put s.j.toNat (clut s.cfg (cidx s.cfg s.odd s.w)), cidx_toNat .., fun n _ =>
    l.tripleAt_put _ n _ hj, emitTriple_of_held _ _ ho hb hj⟩

/-- Settles O24: the triple is the table's entry at `MIDX`. -/
theorem mEmitWritesTheMonoTriple : Obligations.MEmitWritesTheMonoTriple := fun s l ho hb hj =>
  ⟨(midx s.w).toFin, l.put s.j.toNat (mlut s.cfg (midx s.w)), midx_toNat s.w, fun n _ =>
    l.tripleAt_put _ n _ hj, emitTriple_of_held _ _ ho hb hj⟩

/-- Settles O25: both emits check the owner first and the position second, and a fault is entered outside `IDLE`. -/
theorem emitGuardsFaultInOrder : Obligations.EmitGuardsFaultInOrder := by
  intro s i hi hst
  obtain ⟨tr, next, he⟩ : ∃ tr next, exec i s = emitTriple tr next s := by
    rcases hi with rfl | rfl <;> exact ⟨_, _, rfl⟩
  obtain ⟨t, ht⟩ := emitTriple_eq_next s tr next
  rw [he, ht]
  refine ⟨fun hown => ?_, fun hown hj => ?_⟩
  · rcases emitTriple_cases ht with ⟨hheld, -⟩ | ⟨-, rfl⟩ | ⟨hheld, -⟩
    · exact absurd hheld hown
    · rw [raiseFault_of_ne_idle _ hst]
      rfl
    · exact absurd hheld hown
  · rcases emitTriple_cases ht with ⟨-, hlt, -⟩ | ⟨hne, -⟩ | ⟨-, -, rfl⟩
    · exact absurd hlt (Nat.not_lt.mpr hj)
    · exact absurd hown hne
    · rw [raiseFault_of_ne_idle _ hst]
      rfl

/-! ## The drain -/

/-- The dots left after a drain. -/
theorem toNat_drainedDots {dotc : BitVec 6} (h : 2 ≤ dotc.toNat) : (dotc - 2).toNat = dotc.toNat - 2 := by
  bv_omega

/-- Settles O21: the accumulator moves down by two places, and `DOTC` of at least 2 does not wrap. -/
theorem mDrainDropsTheEmittedPair : Obligations.MDrainDropsTheEmittedPair := by
  intro s hd
  have hdotc := toNat_drainedDots hd
  have hmore : (s.dotc - 2).toNat ≥ 2 ↔ 4 ≤ s.dotc.toNat := by omega
  refine ⟨s.w >>> 2, s.dotc - 2, fun m _ => ?_, by omega, ?_⟩
  · rw [BitVec.getLsbD_ushiftRight, Nat.add_comm]
  · rw [← if_congr hmore rfl rfl]
    rfl

end Sys2Proof.Machine
end

section
/-! PROOFS. The default dot patterns (42_dot_window_decoder.md R150, R151), bit by bit. -/

namespace Sys2Proof.Machine

/-- A bit of the patterns that double the pixels of a list. -/
theorem getLsbD_foldl_double (b : Byte) (ks : List Nat) (v : BitVec 14) {n : Nat} :
    (ks.foldl (fun v k => if b.getLsbD k then v ||| (0b11#14 <<< (12 - 2 * k)) else v) v).getLsbD n =
      (v.getLsbD n || ks.any fun k => b.getLsbD k && (0b11#14 <<< (12 - 2 * k)).getLsbD n) := by
  induction ks generalizing v with
  | nil => simp
  | cons k ks ih =>
    rw [List.foldl_cons, ih, List.any_cons]
    cases hb : b.getLsbD k <;> simp [Bool.or_assoc]

/-- A bit of the reversed pattern, for the places of a list. -/
theorem getLsbD_foldl_reverse (p : BitVec 14) (ts : List Nat) (v : BitVec 14) {n : Nat} :
    (ts.foldl (fun v t => if p.getLsbD (13 - t) then v ||| (1#14 <<< t) else v) v).getLsbD n =
      (v.getLsbD n || ts.any fun t => p.getLsbD (13 - t) && (1#14 <<< t).getLsbD n) := by
  induction ts generalizing v with
  | nil => simp
  | cons t ts ih =>
    rw [List.foldl_cons, ih, List.any_cons]
    cases hp : p.getLsbD (13 - t) <;> simp [Bool.or_assoc]

/-- Dots 13 and 12 are pixel 0, and so on down to pixel 6 (R150). -/
theorem getLsbD_pixelsDoubled (b : Byte) {n : Nat} (hn : n < 14) :
    (pixelsDoubled b).getLsbD n = b.getLsbD ((13 - n) / 2) := by
  rw [pixelsDoubled, getLsbD_foldl_double]
  interval_cases n <;> simp [List.range_succ]

theorem getLsbD_rev14 (p : BitVec 14) {n : Nat} (hn : n < 14) : (rev14 p).getLsbD n = p.getLsbD (13 - n) := by
  rw [rev14, getLsbD_foldl_reverse]
  interval_cases n <;> simp [List.range_succ]

/-- The default mono pattern is the color pattern read backwards (R151). -/
theorem getLsbD_defaultDotpatM (b : Byte) {n : Nat} (hn : n < 14) :
    (defaultDotpatM b).getLsbD n = (defaultDotpatC b).getLsbD (13 - n) := getLsbD_rev14 _ hn

/-- Bit 7 is no pixel. -/
theorem pixelsDoubled_and_0x7F (b : Byte) : pixelsDoubled (b &&& 0x7F) = pixelsDoubled b := by
  have hmask : ∀ k < 7, (0x7F : Byte).getLsbD k = true := by decide
  apply BitVec.eq_of_getLsbD_eq
  intro n hn
  rw [getLsbD_pixelsDoubled _ hn, getLsbD_pixelsDoubled _ hn, BitVec.getLsbD_and, hmask _ (by omega), Bool.and_true]

theorem defaultDotpatC_of_plain {b : Byte} (h : b.getLsbD 7 = false) : defaultDotpatC b = pixelsDoubled b :=
  if_neg (ne_true_of_eq_false h)

theorem defaultDotpatC_of_delayed {b : Byte} (h : b.getLsbD 7 = true) : defaultDotpatC b = pixelsDoubled b >>> 1 :=
  if_pos h

theorem defaultDotpatC_and_0x7F (b : Byte) : defaultDotpatC (b &&& 0x7F) = pixelsDoubled b := by
  rw [defaultDotpatC_of_plain (by simp), pixelsDoubled_and_0x7F]

/-- Settles O22: each dot of a plain byte is a pixel (`getLsbD_pixelsDoubled`), a delayed byte is moved by one dot, and
the mono pattern is the color pattern read backwards. -/
theorem defaultDotPatternsDoubleAndDelay : Obligations.DefaultDotPatternsDoubleAndDelay := by
  intro b
  have hC : ∀ x, dotpatC State.reset.cfg x = defaultDotpatC x := dotpatC_default
  have hM : ∀ x, dotpatM State.reset.cfg x = defaultDotpatM x := dotpatM_default
  simp only [hC, hM]
  refine ⟨fun h k hk => ?_, fun h => ⟨?_, ?_⟩, fun t ht => getLsbD_defaultDotpatM b ht⟩
  · rw [getLsbD_defaultDotpatM b (by omega), getLsbD_defaultDotpatM b (by omega), defaultDotpatC_of_plain h]
    refine ⟨?_, ?_, ?_, ?_⟩ <;> rw [getLsbD_pixelsDoubled b (by omega)] <;> congr 1 <;> omega
  · rw [defaultDotpatC_of_delayed h, defaultDotpatC_and_0x7F]
  · apply BitVec.eq_of_getLsbD_eq
    intro n hn
    rw [getLsbD_defaultDotpatM b hn, defaultDotpatC_of_delayed h, BitVec.getLsbD_ushiftRight, BitVec.getLsbD_shiftLeft]
    by_cases h0 : n < 1
    · rw [BitVec.getLsbD_of_ge _ _ (by omega), decide_eq_true h0, Bool.not_true, Bool.and_false, Bool.false_and]
    · rw [getLsbD_defaultDotpatM _ (by omega), defaultDotpatC_and_0x7F]
      rw [decide_eq_true hn, decide_eq_false h0, Bool.not_false, Bool.true_and, Bool.true_and]
      congr 1
      omega

end Sys2Proof.Machine
end

section
/-! PROOFS. The endings of an instruction: everything `exec` can do, stated once for every instruction, with the
registers each one leaves unchanged (10_state.md) and the holds (60_exceptions.md R290). -/

namespace Sys2Proof.Machine

/-! ## The endings -/

/-- When an instruction leaves the state as it is (60_exceptions.md R290). -/
def Holds (s : State) : Instr → Prop
  | .idleDecode => s.cmdValid = false
  | .lAcq => ∀ b : Nat, s.own[b]? ≠ some .free
  | .fNext => s.nl.toNat ≤ s.line.toNat ∧ s.mixedL = true ∧ s.txtAck = true
  | .fText => s.txtAck = false
  | .faultHalt => True
  | _ => False

/-- When an instruction refuses a command, and with which fault (60_exceptions.md R282: a command fault). -/
def Refuses (s : State) (c : FaultCode) : Instr → Prop
  | .line n | .mapq n => c = .lineRange ∧ 192 ≤ n.toNat
  | .idleDecode => s.cmdValid = true ∧ decodeCmd s.cmd = .error c
  | _ => False

/-- When a guard of an instruction fails, and with which fault (60_exceptions.md R282: a defect fault). -/
def GuardFails (s : State) (c : FaultCode) : Instr → Prop
  | .cFetch | .mFetch => c = .addrRange ∧ s.i ≠ 40 ∧ 8192 ≤ s.ofs.toNat + s.i.toNat
  | .cEmit | .mEmit => c = .bufOwnership ∧ s.own[s.bufid]? ≠ some .held ∨ c = .indexRange ∧ 280 ≤ s.j.toNat
  | .lSubmit => c = .bufOwnership ∧ (s.own[s.bufid]? ≠ some .held ∨ s.buf[s.bufid]? = none) ∨
      c = .symCount ∧ s.j ≠ 280
  | _ => False

/-- The state after a command is accepted and performed (45_frame_orchestrator.md R257). -/
def performed (s : State) : Cmd → State
  | .nop => { acceptCmd s with st := .idle }
  | .frame => { acceptCmd s with st := .fStart }
  | .line n => { acceptCmd s with line := n, ret := false, st := .lPsel }
  | .mapq n => { acceptCmd s with line := n, st := .qMap }
  | .pselq => { acceptCmd s with st := .qPsel }

/-- The next states of each instruction. -/
inductive Ending (s : State) : Instr → State → Prop
  | hold {i : Instr} (h : Holds s i) : Ending s i s
  | refuse {i : Instr} {c : FaultCode} (h : Refuses s c i) : Ending s i (raiseFault c (acceptCmd s))
  | defect {i : Instr} {c : FaultCode} (h : GuardFails s c i) : Ending s i (raiseFault c s)
  | command {i : Instr} (c : Cmd) (hw : c.toInstr.wellFormed = true)
      (h : i = c.toInstr ∨ i = .idleDecode ∧ s.cmdValid = true ∧ decodeCmd s.cmd = .ok c) : Ending s i (performed s c)
  | fStart : Ending s .fStart { s with
      mixedL := s.modeMixed, nl := if s.modeMixed then 160 else 192, line := 0, ret := true, st := .fNext }
  | nextLine (h : s.line.toNat < s.nl.toNat) : Ending s .fNext { s with st := .lPsel }
  | textReq (hn : s.nl.toNat ≤ s.line.toNat) (hm : s.mixedL = true) (ha : s.txtAck = false) :
      Ending s .fNext { s with txtReq := true, history := s.history ++ [.textReq], st := .fText }
  | frameEnd (hn : s.nl.toNat ≤ s.line.toNat) (hm : s.mixedL = false) : Ending s .fNext { s with st := .idle }
  | textDone (ha : s.txtAck = true) :
      Ending s .fText { s with txtReq := false, history := s.history ++ [.textDone], st := .idle }
  | lPsel : Ending s .lPsel { s with psel := pageSel s.modePage2 s.modeExtmem, st := .lMap }
  | lMap : Ending s .lMap { s with ofs := mapOffset s.line, st := .lAcq }
  | lAcq (b : Nat) (hb : s.own[b]? = some .free) : Ending s .lAcq { s with
      own := s.own.set b .held, bufid := b, history := s.history ++ [.acquire b], st := .lMode }
  | lMode : Ending s .lMode { s with
      monoL := s.modeMono, w := 0, odd := false, dotc := 0, lastdot := false, i := 0, k := 0, j := 0,
      st := if s.modeMono then .mFetch else .cFetch }
  | cSeed : Ending s .cSeed { s with
      w := (dotpatC s.cfg s.byte).setWidth 32 <<< 15, i := 1, st := .cFetch }
  | cSynthetic (hi : s.i = 40) : Ending s .cFetch { s with byte := 0, st := afterCFetch s.i }
  | cRead (v : Byte) (hi : s.i ≠ 40) (ha : s.ofs.toNat + s.i.toNat < 8192)
      (hv : v = s.bitmap.read (cellAddr s.psel (s.ofs.toNat + s.i.toNat))) : Ending s .cFetch { s with
        byte := v, history := s.history ++ [.read s.psel (s.ofs.toNat + s.i.toNat) v], st := afterCFetch s.i }
  | cBleed : Ending s .cBleed { s with w := bleedWindow s.byte s.w, st := .cMerge }
  | cMerge : Ending s .cMerge { s with
      w := s.w ||| ((dotpatC s.cfg s.byte).setWidth 32 <<< 1), st := .cEmit }
  | cEmit (ho : s.own[s.bufid]? = some .held) (hj : s.j.toNat < 280) : Ending s .cEmit { s with
      buf := s.buf.modify s.bufid (fun l => l.put s.j.toNat (clut s.cfg (cidx s.cfg s.odd s.w)))
      j := s.j + 1, st := .cShift }
  | cShift : Ending s .cShift { s with
      w := s.w <<< 2, odd := !s.odd, k := if s.k = 6 then 0 else s.k + 1,
      i := if s.k = 6 then s.i + 1 else s.i, st := afterCShift s.k s.i }
  | mSynthetic (hi : s.i = 40) : Ending s .mFetch { s with byte := 0, st := .mInject }
  | mRead (v : Byte) (hi : s.i ≠ 40) (ha : s.ofs.toNat + s.i.toNat < 8192)
      (hv : v = s.bitmap.read (cellAddr s.psel (s.ofs.toNat + s.i.toNat))) : Ending s .mFetch { s with
        byte := v, history := s.history ++ [.read s.psel (s.ofs.toNat + s.i.toNat) v], st := .mInject }
  | mInject : Ending s .mInject { s with
      w := injectWindow s.cfg.monoBleedMode s.byte s.w s.dotc s.i s.lastdot, st := .mMerge }
  | mMerge : Ending s .mMerge { s with
      w := s.w ||| ((dotpatM s.cfg s.byte).setWidth 32 <<< s.dotc.toNat), dotc := s.dotc + 14, i := s.i + 1,
      st := afterMMerge s.cfg.monoLoadLimit (s.i + 1) (s.dotc + 14) }
  | mEmit (ho : s.own[s.bufid]? = some .held) (hj : s.j.toNat < 280) : Ending s .mEmit { s with
      buf := s.buf.modify s.bufid (fun l => l.put s.j.toNat (mlut s.cfg (midx s.w)))
      j := s.j + 1, st := .mDrain }
  | mDrain : Ending s .mDrain { s with
      lastdot := s.w.getLsbD 1, w := s.w >>> 2, dotc := s.dotc - 2, st := afterMDrain s.i (s.dotc - 2) }
  | lSubmit (l : LineBuf) (ho : s.own[s.bufid]? = some .held) (hb : s.buf[s.bufid]? = some l) (hj : s.j = 280) :
      Ending s .lSubmit { s with
        own := s.own.set s.bufid .transport
        history := s.history ++ [.submit s.bufid s.line s.monoL l.ch0 l.ch1 l.ch2]
        line := if s.ret then s.line + 1 else s.line
        st := if s.ret then .fNext else .idle }
  | qMap : Ending s .qMap { s with
      ofs := mapOffset s.line, result := (mapOffset s.line).setWidth 16, st := .idle }
  | qPsel : Ending s .qPsel { s with
      psel := pageSel s.modePage2 s.modeExtmem, result := (pageSel s.modePage2 s.modeExtmem).setWidth 16, st := .idle }

/-- Every next state of an instruction is one of its endings. -/
theorem exec_ending {i : Instr} {s t : State} (h : exec i s = .next t) : Ending s i t := by
  cases i with
  | nop => cases h; exact .command .nop rfl (.inl rfl)
  | frame => cases h; exact .command .frame rfl (.inl rfl)
  | pselq => cases h; exact .command .pselq rfl (.inl rfl)
  | line n =>
    rcases line_cases h with ⟨hn, rfl⟩ | ⟨hn, rfl⟩
    · exact .command (.line n) (decide_eq_true hn) (.inl rfl)
    · exact .refuse ⟨rfl, hn⟩
  | mapq n =>
    rcases mapq_cases h with ⟨hn, rfl⟩ | ⟨hn, rfl⟩
    · exact .command (.mapq n) (decide_eq_true hn) (.inl rfl)
    · exact .refuse ⟨rfl, hn⟩
  | idleDecode =>
    rcases idleDecode_cases h with ⟨hv, rfl⟩ | ⟨hv, ⟨c, hc, rfl⟩ | ⟨hd, rfl⟩ | ⟨hd, rfl⟩ | ⟨n, hd, hn, rfl⟩ |
      ⟨n, hd, hn, rfl⟩ | ⟨hd, rfl⟩⟩
    · exact .hold hv
    · exact .refuse ⟨hv, hc⟩
    · exact .command .nop rfl (.inr ⟨rfl, hv, hd⟩)
    · exact .command .frame rfl (.inr ⟨rfl, hv, hd⟩)
    · exact .command (.line n) (decide_eq_true hn) (.inr ⟨rfl, hv, hd⟩)
    · exact .command (.mapq n) (decide_eq_true hn) (.inr ⟨rfl, hv, hd⟩)
    · exact .command .pselq rfl (.inr ⟨rfl, hv, hd⟩)
  | fStart =>
    rw [show exec .fStart s = _ from fStartLatchesTheLineCount s] at h
    cases h
    exact .fStart
  | fNext =>
    rcases fNext_cases h with ⟨hl, rfl⟩ | hhold | ⟨hn, hm, ha, rfl⟩ | ⟨hn, hm, rfl⟩
    · exact .nextLine hl
    · obtain ⟨hn, hm, ha, rfl⟩ := hhold
      exact .hold ⟨hn, hm, ha⟩
    · exact .textReq hn hm ha
    · exact .frameEnd hn hm
  | fText =>
    rcases fText_cases h with ⟨ha, rfl⟩ | ⟨ha, rfl⟩
    · exact .textDone ha
    · exact .hold ha
  | lPsel => cases h; exact .lPsel
  | lMap => cases h; exact .lMap
  | lAcq =>
    rcases lAcq_cases h with ⟨hb, rfl⟩ | ⟨b, hb, -, rfl⟩
    · exact .hold hb
    · exact .lAcq b hb
  | lMode =>
    rw [show exec .lMode s = _ from lModeClearsTheDatapath s] at h
    cases h
    exact .lMode
  | cSeed =>
    simp only [exec, execCSeed, Fixed.val_eq] at h
    cases h
    exact .cSeed
  | cFetch =>
    rcases fetch_cases (.inl ⟨rfl, rfl⟩) h with ⟨hi, rfl⟩ | ⟨hi, ha, v, hv, rfl⟩ | ⟨hi, ha, rfl⟩
    · exact .cSynthetic hi
    · exact .cRead v hi ha hv
    · exact .defect ⟨rfl, hi, ha⟩
  | cBleed => cases h; exact .cBleed
  | cMerge =>
    simp only [exec, execCMerge, Fixed.val_eq] at h
    cases h
    exact .cMerge
  | cEmit =>
    rcases emitTriple_cases h with ⟨ho, hj, rfl⟩ | ⟨ho, rfl⟩ | ⟨-, hj, rfl⟩
    · exact .cEmit ho hj
    · exact .defect (.inl ⟨rfl, ho⟩)
    · exact .defect (.inr ⟨rfl, hj⟩)
  | cShift => cases h; exact .cShift
  | mFetch =>
    rcases fetch_cases (.inr ⟨rfl, rfl⟩) h with ⟨hi, rfl⟩ | ⟨hi, ha, v, hv, rfl⟩ | ⟨hi, ha, rfl⟩
    · exact .mSynthetic hi
    · exact .mRead v hi ha hv
    · exact .defect ⟨rfl, hi, ha⟩
  | mInject => cases h; exact .mInject
  | mMerge => cases h; exact .mMerge
  | mEmit =>
    rcases emitTriple_cases h with ⟨ho, hj, rfl⟩ | ⟨ho, rfl⟩ | ⟨-, hj, rfl⟩
    · exact .mEmit ho hj
    · exact .defect (.inl ⟨rfl, ho⟩)
    · exact .defect (.inr ⟨rfl, hj⟩)
  | mDrain => cases h; exact .mDrain
  | lSubmit =>
    rcases lSubmit_cases h with ⟨l, ho, hb, hj, rfl⟩ | ⟨ho, rfl⟩ | ⟨-, hj, rfl⟩
    · exact .lSubmit l ho hb hj
    · exact .defect (.inl ⟨rfl, ho⟩)
    · exact .defect (.inr ⟨rfl, hj⟩)
  | qMap => cases h; exact .qMap
  | qPsel => cases h; exact .qPsel
  | faultHalt => cases h; exact .hold trivial

/-- A renderer step ends as the micro-operation that `ST` names. -/
theorem rendererStep_ending {s t : State} (h : rendererStep s = .next t) : Ending s s.st.uop t := exec_ending h

/-! ## What no instruction writes -/

/-- Settles O37: none of the endings writes the environment's part of the state. -/
theorem noInstructionWritesTheEnvironment : Obligations.NoInstructionWritesTheEnvironment := by
  intro i s t h
  cases exec_ending h with
  | command c => cases c <;> exact ⟨rfl, rfl, rfl, rfl, rfl, rfl, rfl⟩
  | _ => exact ⟨rfl, rfl, rfl, rfl, rfl, rfl, rfl⟩

/-! ## The writers of each register -/

/-- Settles O42: the endings that write a control register are those of the instructions named for it. -/
theorem controlRegistersHaveTheirWriters : Obligations.ControlRegistersHaveTheirWriters := by
  intro i s t h
  cases exec_ending h with
  | command c hw hi =>
    rcases hi with rfl | ⟨rfl, -⟩ <;> cases c <;> simp [performed, Cmd.toInstr]
  | refuse hr => cases i <;> simp_all [Refuses]
  | defect hg => cases i <;> simp_all [GuardFails]
  | _ => simp

/-- Settles O43: the endings that write a datapath register are those of the micro-operations named for it. -/
theorem datapathRegistersHaveTheirWriters : Obligations.DatapathRegistersHaveTheirWriters := by
  intro i s t h
  cases exec_ending h with
  | command c => cases c <;> simp [performed]
  | _ => simp

/-- A put into one buffer leaves every other buffer. -/
theorem getElem?_modify_of_ne_or {own : List Own} {buf : List LineBuf} {k b : Nat} (f : LineBuf → LineBuf)
    (ho : own[k]? = some .held) (h : b ≠ k ∨ own[b]? ≠ some .held) : (buf.modify k f)[b]? = buf[b]? := by
  have hne : k ≠ b := by
    rintro rfl
    exact h.elim (fun hb => hb rfl) fun hb => hb ho
  exact List.getElem?_modify_ne f buf hne

/-- Settles O40: only the two emits touch the buffers, and their ending needs the buffer `BUFID` to be held. -/
theorem onlyEmitsWriteTheHeldBuffer : Obligations.OnlyEmitsWriteTheHeldBuffer := by
  intro i s t h
  cases exec_ending h with
  | cEmit ho hj =>
    exact ⟨fun hi => absurd rfl hi, fun b hb => getElem?_modify_of_ne_or _ ho hb, List.length_modify ..⟩
  | mEmit ho hj =>
    exact ⟨fun _ hi => absurd rfl hi, fun b hb => getElem?_modify_of_ne_or _ ho hb, List.length_modify ..⟩
  | command c => cases c <;> exact ⟨fun _ _ => rfl, fun _ _ => rfl, rfl⟩
  | _ => exact ⟨fun _ _ => rfl, fun _ _ => rfl, rfl⟩

/-! ## Every instruction answers (60_exceptions.md R283, R290) -/

/-- Settles O7: an instruction answers its next state by definition, on each branch where it has some. -/
theorem everyInstructionAnswersANextState : Obligations.EveryInstructionAnswersANextState := by
  intro i s
  cases i with
  | line n | mapq n =>
    by_cases hn : n.toNat < 192
    · exact ⟨_, if_neg (Nat.not_le.mpr hn)⟩
    · exact ⟨_, if_pos (Nat.not_lt.mp hn)⟩
  | idleDecode =>
    cases hv : s.cmdValid with
    | false => exact ⟨s, idleDecode_of_not_valid hv⟩
    | true =>
      cases hd : decodeCmd s.cmd with
      | error c => exact ⟨_, idleDecode_of_error hv hd⟩
      | ok c =>
        rw [idleDecode_of_ok hv hd]
        cases c with
        | line n => exact ⟨_, line_of_lt s (of_decide_eq_true (decodeCmd_ok hd))⟩
        | mapq n => exact ⟨_, mapq_of_lt s (of_decide_eq_true (decodeCmd_ok hd))⟩
        | _ => exact ⟨_, rfl⟩
  | fNext =>
    simp only [exec, execFNext, hold]
    split_ifs <;> exact ⟨_, rfl⟩
  | fText =>
    simp only [exec, execFText, hold]
    split_ifs <;> exact ⟨_, rfl⟩
  | lAcq =>
    simp only [exec, execLAcq, hold]
    split <;> exact ⟨_, rfl⟩
  | cFetch | mFetch | cEmit | mEmit | lSubmit => exact settle_eq_next s _
  | _ => exact ⟨_, rfl⟩

/-! ## The mode inputs (10_state.md R40, R41) -/

/-- An outcome with the mode inputs of its next state changed. -/
def withMode (m : BitVec 4) : Result → Result
  | .next t => .next { t with mode := m }
  | .fault r => .fault r
  | .refused r => .refused r

/-- An accepted command does not read the mode inputs. -/
theorem exec_command_withMode (c : Cmd) (s : State) (m : BitVec 4) :
    exec c.toInstr { s with mode := m } = withMode m (exec c.toInstr s) := by
  cases c with
  | nop | frame | pselq => rfl
  | line n =>
    simp only [Cmd.toInstr, exec, execLine]
    split_ifs <;> rfl
  | mapq n =>
    simp only [Cmd.toInstr, exec, execMapq]
    split_ifs <;> rfl

theorem idleDecode_withMode (s : State) (m : BitVec 4) :
    exec .idleDecode { s with mode := m } = withMode m (exec .idleDecode s) := by
  rcases Bool.eq_false_or_eq_true s.cmdValid with hv | hv
  · cases hd : decodeCmd s.cmd with
    | error c =>
      rw [idleDecode_of_error hv hd, idleDecode_of_error (s := { s with mode := m }) hv hd]
      rfl
    | ok c =>
      rw [idleDecode_of_ok hv hd, idleDecode_of_ok (s := { s with mode := m }) hv hd, exec_command_withMode]
  · rw [idleDecode_of_not_valid hv, idleDecode_of_not_valid (s := { s with mode := m }) hv, withMode]

theorem emitTriple_withMode (s : State) (m : BitVec 4) (tr : Triple) (next : St) :
    emitTriple tr next { s with mode := m } = withMode m (emitTriple tr next s) := by
  simp only [emitTriple, bufWrite]
  split_ifs <;> rfl

/-- An instruction that is given the mode bits it samples does the same with any other mode inputs. -/
theorem exec_withMode (i : Instr) (s : State) (m : BitVec 4) (hmono : i = .lMode → m.getLsbD 0 = s.modeMono)
    (hpage : i = .lPsel ∨ i = .qPsel → m.getLsbD 1 = s.modePage2 ∧ m.getLsbD 2 = s.modeExtmem)
    (hmixed : i = .fStart → m.getLsbD 3 = s.modeMixed) :
    exec i { s with mode := m } = withMode m (exec i s) := by
  cases i with
  | line n => exact exec_command_withMode (.line n) s m
  | mapq n => exact exec_command_withMode (.mapq n) s m
  | idleDecode => exact idleDecode_withMode s m
  | fStart =>
    have h : ({ s with mode := m } : State).modeMixed = s.modeMixed := hmixed rfl
    simp only [exec, execFStart, h]
    rfl
  | fNext =>
    simp only [exec, execFNext, hold]
    split_ifs <;> rfl
  | fText =>
    simp only [exec, execFText, hold]
    split_ifs <;> rfl
  | lPsel =>
    have h : ({ s with mode := m } : State).modePage2 = s.modePage2 := (hpage (.inl rfl)).1
    have h' : ({ s with mode := m } : State).modeExtmem = s.modeExtmem := (hpage (.inl rfl)).2
    simp only [exec, execLPsel, h, h']
    rfl
  | lAcq =>
    simp only [exec, execLAcq, hold]
    split <;> rfl
  | lMode =>
    have h : ({ s with mode := m } : State).modeMono = s.modeMono := hmono rfl
    simp only [exec, execLMode, h]
    rfl
  | cFetch =>
    simp only [exec, execCFetch, fetchByte, bitmapRead]
    split_ifs <;> rfl
  | cEmit => exact emitTriple_withMode s m _ _
  | qPsel =>
    have h : ({ s with mode := m } : State).modePage2 = s.modePage2 := (hpage (.inr rfl)).1
    have h' : ({ s with mode := m } : State).modeExtmem = s.modeExtmem := (hpage (.inr rfl)).2
    simp only [exec, execQPsel, h, h']
    rfl
  | mFetch =>
    simp only [exec, execMFetch, fetchByte, bitmapRead]
    split_ifs <;> rfl
  | mEmit => exact emitTriple_withMode s m _ _
  | lSubmit =>
    simp only [exec, execLSubmit]
    split
    · split_ifs <;> rfl
    · rfl
  | _ => rfl

/-- Settles O38: with the sampled bits equal, the next states differ in the mode inputs only. -/
theorem modeInputsAreReadOnlyWhereSampled : Obligations.ModeInputsAreReadOnlyWhereSampled := by
  intro i s t m hmono hpage hmixed h
  rw [exec_withMode i s m hmono hpage hmixed, h, withMode]

/-! ## Consuming a word (45_frame_orchestrator.md R257) -/

/-- Only a command consumes a word, and no instruction writes `CMD`. -/
theorem exec_keeps_cmd {i : Instr} {s t : State} (hc : ∀ c : Cmd, i ≠ c.toInstr) (hd : i ≠ .idleDecode)
    (h : exec i s = .next t) : t.cmdValid = s.cmdValid ∧ t.cmd = s.cmd := by
  cases exec_ending h with
  | command c hw hi => exact hi.elim (fun e => absurd e (hc c)) fun e => absurd e.1 hd
  | refuse hr =>
    cases i with
    | line n => exact absurd rfl (hc (.line n))
    | mapq n => exact absurd rfl (hc (.mapq n))
    | idleDecode => exact absurd rfl hd
    | _ => exact hr.elim
  | _ => exact ⟨rfl, rfl⟩

/-- Outside `IDLE` a renderer step leaves the mailbox. -/
theorem rendererStep_keeps_cmd {s t : State} (hst : s.st ≠ .idle) (h : rendererStep s = .next t) :
    t.cmdValid = s.cmdValid ∧ t.cmd = s.cmd :=
  exec_keeps_cmd (uop_ne_toInstr s.st) (fun e => hst (uop_injective e)) h

/-- The fault entry of a refused word in `IDLE`, its two events appended one after the other. -/
theorem raiseFault_acceptCmd_append {s : State} (c : FaultCode) (h : s.st = .idle) :
    raiseFault c (acceptCmd s) = { s with
      cmdValid := false, fvalid := true, fcode := c.code, fst := 0, fline := s.cmd.extractLsb' 0 8, st := .fault,
      history := s.history ++ [.accept s.cmd] ++ [.fault c.code 0 (s.cmd.extractLsb' 0 8)] } := by
  rw [raiseFault_acceptCmd_of_idle c h, List.append_assoc]
  rfl

/-- Settles O10: DECODE holds, takes the fault of a refused word, or runs the command of an accepted one. -/
theorem idleDecodesOneCommandOrHolds : Obligations.IdleDecodesOneCommandOrHolds := by
  refine ⟨fun s => idleDecode_of_not_valid, fun s hst hv => ?_, fun s t hst h => rendererStep_keeps_cmd hst h⟩
  intro u
  cases hd : decodeCmd s.cmd with
  | error c => rw [idleDecode_of_error hv hd, raiseFault_acceptCmd_append c hst]
  | ok c =>
    rw [idleDecode_of_ok hv hd]
    cases c with
    | line n => exact line_of_lt s (of_decide_eq_true (decodeCmd_ok hd))
    | mapq n => exact mapq_of_lt s (of_decide_eq_true (decodeCmd_ok hd))
    | _ => rfl

/-! ## The holds (60_exceptions.md R290) -/

theorem afterCFetch_ne_cFetch (i : BitVec 6) : afterCFetch i ≠ .cFetch := by
  unfold afterCFetch
  split_ifs <;> decide

theorem afterCShift_ne_cShift (k : BitVec 3) (i : BitVec 6) : afterCShift k i ≠ .cShift := by
  unfold afterCShift
  split_ifs <;> decide

theorem afterMMerge_ne_mMerge (limit : Nat) (i dotc : BitVec 6) : afterMMerge limit i dotc ≠ .mMerge := by
  unfold afterMMerge
  split_ifs <;> decide

theorem afterMDrain_ne_mDrain (i dotc : BitVec 6) : afterMDrain i dotc ≠ .mDrain := by
  unfold afterMDrain
  split_ifs <;> decide

/-- A step that does not hold leaves its state, or consumes a word. -/
theorem holds_of_same {x : St} {s t : State} (he : Ending s x.uop t) (hst : t.st = x) (hv : t.cmdValid = s.cmdValid) :
    Holds s x.uop := by
  generalize hi : x.uop = i at he
  cases he with
  | hold h => exact h
  | refuse | defect => cases hst; cases hi; contradiction
  | command c hw h =>
    obtain h | ⟨-, htrue, -⟩ := h
    · exact absurd (hi.trans h) (uop_ne_toInstr x c)
    · cases c <;> exact absurd (hv.trans htrue) Bool.false_ne_true
  | cSynthetic | cRead => exact absurd (hst.trans (uop_injective (a₂ := .cFetch) hi)) (afterCFetch_ne_cFetch _)
  | cShift => exact absurd (hst.trans (uop_injective (a₂ := .cShift) hi)) (afterCShift_ne_cShift _ _)
  | mMerge => exact absurd (hst.trans (uop_injective (a₂ := .mMerge) hi)) (afterMMerge_ne_mMerge _ _ _)
  | mDrain => exact absurd (hst.trans (uop_injective (a₂ := .mDrain) hi)) (afterMDrain_ne_mDrain _ _)
  | lMode =>
    have hne := hst.trans (uop_injective (a₂ := .lMode) hi)
    simp only at hne
    split_ifs at hne
  | lSubmit =>
    have hne := hst.trans (uop_injective (a₂ := .lSubmit) hi)
    simp only at hne
    split_ifs at hne
  | _ => cases hst; cases hi

/-- Settles O35: a step that leaves the state leaves `ST` and the mailbox, so it holds, and each hold is one of the
five cases. -/
theorem theRendererHoldsExactlyInTheFiveCases : Obligations.TheRendererHoldsExactlyInTheFiveCases := by
  intro s
  constructor
  · intro h
    have hholds : Holds s s.st.uop := holds_of_same (rendererStep_ending h) rfl rfl
    cases hst : s.st <;> rw [hst] at hholds
    case idle => exact .inl ⟨rfl, hholds⟩
    case lAcq => exact .inr (.inl ⟨rfl, hholds⟩)
    case fNext => exact .inr (.inr (.inl ⟨rfl, hholds⟩))
    case fText => exact .inr (.inr (.inr (.inl ⟨rfl, hholds⟩)))
    case fault => exact .inr (.inr (.inr (.inr rfl)))
    all_goals exact hholds.elim
  · rintro (⟨hst, hv⟩ | ⟨hst, hnone⟩ | ⟨hst, hn, hm, ha⟩ | ⟨hst, ha⟩ | hst) <;> rw [rendererStep, hst]
    · exact idleDecode_of_not_valid hv
    · exact lAcqTakesTheLowestFreeBufferOrHolds.2 s hnone
    · exact (fNextDispatchesTheNextLine s).2.1 hn hm ha
    · exact (fTextWaitsForTheAcknowledge s).1 ha
    · rfl

/-! ## The ownership (10_state.md R46) -/

/-- A renderer step changes one owner at most: `L_ACQ` takes a free buffer, and `L_SUBMIT` hands the held one over. -/
theorem rendererStep_own {s t : State} (h : rendererStep s = .next t) :
    t.own = s.own ∨
    (s.st = .lAcq ∧ s.own[t.bufid]? = some .free ∧ t.own = s.own.set t.bufid .held) ∨
    (s.st = .lSubmit ∧ s.own[s.bufid]? = some .held ∧ t.own = s.own.set s.bufid .transport) := by
  have he := rendererStep_ending h
  generalize hi : s.st.uop = i at he
  cases he with
  | command c => cases c <;> exact .inl rfl
  | lAcq b hb => exact .inr (.inl ⟨uop_injective hi, hb, rfl⟩)
  | lSubmit l ho => exact .inr (.inr ⟨uop_injective hi, ho, rfl⟩)
  | _ => exact .inl rfl

/-- A set entry that changed is the set one. -/
theorem eq_of_getElem?_set {own : List Own} {k b : Nat} {o o' v : Own} (hs : own[b]? = some o)
    (ht : (own.set k v)[b]? = some o') (hne : o ≠ o') : k = b ∧ o' = v := by
  by_cases hkb : k = b
  · subst hkb
    rw [List.getElem?_set_self (List.getElem?_eq_some_iff.mp hs).1] at ht
    exact ⟨rfl, (Option.some.inj ht).symm⟩
  · rw [List.getElem?_set_ne hkb, hs] at ht
    exact absurd (Option.some.inj ht) hne

/-- A renderer step moves an owner from `FREE` to `HELD` or from `HELD` to `TRANSPORT`. -/
theorem rendererStep_own_order {s t : State} {b : Nat} {o o' : Own} (h : rendererStep s = .next t)
    (hs : s.own[b]? = some o) (ht : t.own[b]? = some o') (hne : o ≠ o') :
    (o = .free ∧ o' = .held ∧ s.st = .lAcq ∧ t.bufid = b) ∨
    (o = .held ∧ o' = .transport ∧ s.st = .lSubmit ∧ s.bufid = b) := by
  rcases rendererStep_own h with hown | ⟨hst, hold, hown⟩ | ⟨hst, hold, hown⟩ <;> rw [hown] at ht
  · exact absurd (Option.some.inj (hs.symm.trans ht)) hne
  · obtain ⟨rfl, rfl⟩ := eq_of_getElem?_set hs ht hne
    exact .inl ⟨Option.some.inj (hs.symm.trans hold), rfl, hst, rfl⟩
  · obtain ⟨rfl, rfl⟩ := eq_of_getElem?_set hs ht hne
    exact .inr ⟨Option.some.inj (hs.symm.trans hold), rfl, hst, rfl⟩

/-- Settles O39: the renderer moves owners in their order, a release frees a buffer in transport, a reset frees all,
and no other agent writes one. -/
theorem ownershipMovesOnlyInItsOrder : Obligations.OwnershipMovesOnlyInItsOrder := by
  intro s t b o o' h hs ht hne
  have hsame : s.own = t.own → False := fun e => hne (Option.some.inj (hs.symm.trans (e ▸ ht)))
  have hrenderer : ∀ u : State, u.own = s.own → u.st = s.st → u.bufid = s.bufid → rendererStep u = .next t →
      (o = .free ∧ o' = .held ∧ s.st = .lAcq ∧ t.bufid = b) ∨
      (o = .held ∧ o' = .transport ∧ s.st = .lSubmit ∧ s.bufid = b) := by
    intro u hu hst hbuf hr
    rw [← hst, ← hbuf]
    exact rendererStep_own_order hr (hu ▸ hs) ht hne
  rcases step_cases h with ⟨-, hr⟩ | ⟨a, rest, hsched, ha⟩
  · rcases hrenderer s rfl rfl rfl hr with hmove | hmove
    · exact .inl hmove
    · exact .inr (.inl hmove)
  · rcases agentStep_cases ha with ⟨-, hr⟩ | ⟨w, -, -, rfl⟩ | ⟨-, -, rfl⟩ | ⟨p, x, v, -, rfl⟩ | ⟨m, -, rfl⟩ |
      ⟨k, -, -, rfl⟩ | ⟨k, rfl, hk, rfl⟩ | ⟨v, -, -, rfl⟩ | ⟨rfl, rfl⟩
    · rcases hrenderer { s with schedule := rest } rfl rfl rfl hr with hmove | hmove
      · exact .inl hmove
      · exact .inr (.inl hmove)
    on_goal 6 =>
      obtain ⟨rfl, rfl⟩ := eq_of_getElem?_set hs ht hne
      exact .inr (.inr (.inl ⟨Option.some.inj (hs.symm.trans hk), rfl, rest, hsched⟩))
    on_goal 7 =>
      rw [systemReset_own, List.getElem?_replicate] at ht
      split_ifs at ht
      exact .inr (.inr (.inr ⟨(Option.some.inj ht).symm, rest, hsched⟩))
    all_goals exact (hsame rfl).elim

end Sys2Proof.Machine
end

section
/-! PROOFS. The renderer's step in an invariant state: what each micro-operation of a line does, with its guards met,
so that no defect fault is raised (60_exceptions.md R282). -/

namespace Sys2Proof.Machine

/-! ## No guard fails -/

/-- The held buffer is `BUFID` in a state that holds one. -/
theorem Inv.held {s : State} (hI : Inv s) (hst : holding s.st = true) : s.own[s.bufid]? = some .held := by
  have h := hI.ownRegs
  rw [OwnRegs, if_pos hst] at h
  exact h.1

/-- The held buffer exists. -/
theorem Inv.buf_exists {s : State} (hI : Inv s) : ∃ l, s.buf[s.bufid]? = some l :=
  ⟨_, List.getElem?_eq_getElem (hI.bufLength ▸ hI.bufidLt)⟩

/-- The position of an emit of the color path is below 280. -/
theorem ColorGroup.position_lt {s : State} (h : ColorGroup s 0) : s.j.toNat < 280 := by
  obtain ⟨-, hk, -, hi, hj, -⟩ := h
  omega

/-- The position of an emit of the mono path is below 280. -/
theorem MonoDraining.position_lt {s : State} (h : MonoDraining s 0) : s.j.toNat < 280 := by
  obtain ⟨-, -, hi, -, hj, -, hd, -⟩ := h
  omega

/-- Every byte of the line lies in the page. -/
theorem Inv.fetch_in_page {s : State} (hI : Inv s) (hst : holding s.st = true) (hi : s.i.toNat ≤ 40) :
    s.i = 40 ∨ s.i.toNat < 40 ∧ s.ofs.toNat + s.i.toNat < 8192 := by
  obtain ⟨hline, -, -, -, hofs⟩ := hI.lineRegs
  have hlt := (hline (by simp [inLine, hst])).1
  by_cases h40 : s.i = 40
  · exact .inl h40
  · have hne : s.i.toNat ≠ 40 := fun e => h40 (BitVec.eq_of_toNat_eq e)
    have hbound := linesReadExactlyTheVisibleBytes.1 s.line s.i.toNat hlt (by omega)
    rw [← hofs (.inl hst)] at hbound
    exact .inr (by omega)

/-! ## The steps of a line -/

section
variable {s t : State}

theorem lMode_step (hst : s.st = .lMode) (h : rendererStep s = .next t) : t = { s with
    monoL := s.modeMono, w := 0, odd := false, dotc := 0, lastdot := false, i := 0, k := 0, j := 0,
    st := if s.modeMono then .mFetch else .cFetch } := by
  rw [rendererStep, hst] at h
  exact (Host.Outcome.next.inj ((lModeClearsTheDatapath s).symm.trans h)).symm

theorem cSeed_step (hst : s.st = .cSeed) (h : rendererStep s = .next t) : t = { s with
    w := (dotpatC s.cfg s.byte).setWidth 32 <<< 15, i := 1, st := .cFetch } := by
  rw [rendererStep, hst] at h
  simpa [St.uop, exec, execCSeed] using h.symm

theorem cBleed_step (hst : s.st = .cBleed) (h : rendererStep s = .next t) :
    t = { s with w := bleedWindow s.byte s.w, st := .cMerge } := by
  rw [rendererStep, hst] at h
  exact (Host.Outcome.next.inj h).symm

theorem cMerge_step (hst : s.st = .cMerge) (h : rendererStep s = .next t) :
    t = { s with w := s.w ||| ((dotpatC s.cfg s.byte).setWidth 32 <<< 1), st := .cEmit } := by
  rw [rendererStep, hst] at h
  simpa [St.uop, exec, execCMerge] using h.symm

/-- A shift leads to the round's next emit, and after the seventh to the next fetch or to the submit. -/
theorem cShift_step (hI : Inv s) (hst : s.st = .cShift) (h : rendererStep s = .next t) :
    (s.k.toNat < 6 ∧ t = { s with w := s.w <<< 2, odd := !s.odd, k := s.k + 1, st := .cEmit }) ∨
    (s.k = 6 ∧ s.i.toNat < 40 ∧
      t = { s with w := s.w <<< 2, odd := !s.odd, k := 0, i := s.i + 1, st := .cFetch }) ∨
    (s.k = 6 ∧ s.i = 40 ∧
      t = { s with w := s.w <<< 2, odd := !s.odd, k := 0, i := s.i + 1, st := .lSubmit }) := by
  have hpath := hI.pathRegs
  simp only [PathRegs, hst] at hpath
  obtain ⟨-, hk, -, hi, -⟩ := hpath
  rw [rendererStep, hst] at h
  obtain rfl := Host.Outcome.next.inj h
  by_cases h6 : s.k = 6
  · by_cases h40 : s.i.toNat < 40
    · exact .inr (.inl ⟨h6, h40, by simp [h6, afterCShift, h40, oddAfterGroup]⟩)
    · have hi40 : s.i = 40 := BitVec.eq_of_toNat_eq (hi.antisymm (Nat.not_lt.mp h40))
      exact .inr (.inr ⟨h6, hi40, by simp [h6, afterCShift, hi40, oddAfterGroup]⟩)
  · have hlt : s.k.toNat < 6 := lt_of_le_of_ne hk fun e => h6 (BitVec.eq_of_toNat_eq e)
    exact .inl ⟨hlt, by rw [if_neg h6, if_neg h6, afterCShift, if_pos hlt]; rfl⟩

theorem mInject_step (hst : s.st = .mInject) (h : rendererStep s = .next t) : t = { s with
    w := injectWindow s.cfg.monoBleedMode s.byte s.w s.dotc s.i s.lastdot, st := .mMerge } := by
  rw [rendererStep, hst] at h
  exact (Host.Outcome.next.inj h).symm

/-- A merge leads to the fetch of a pair's second byte, or to the drain of what is buffered. -/
theorem mMerge_step (hI : Inv s) (hst : s.st = .mMerge) (h : rendererStep s = .next t) :
    t = { s with
      w := s.w ||| ((dotpatM s.cfg s.byte).setWidth 32 <<< s.dotc.toNat), dotc := s.dotc + 14, i := s.i + 1,
      st := if s.i.toNat + 1 < 40 ∧ s.dotc.toNat + 14 ≤ s.cfg.monoLoadLimit then .mFetch else .mEmit } := by
  have hpath := hI.pathRegs
  simp only [PathRegs, hst] at hpath
  obtain ⟨⟨-, hi, -, hd⟩, -⟩ := hpath
  have hdotc := toNat_mergedDots (dotc := s.dotc) (by split_ifs at hd <;> omega)
  rw [rendererStep, hst] at h
  obtain rfl := Host.Outcome.next.inj h
  rw [afterMMerge_of_two_le _ _ (by omega), hdotc, toNat_nextByte hi.le]

/-- A drain leads to the next emit, and when nothing is left to the next fetch or to the submit. -/
theorem mDrain_step (hI : Inv s) (hst : s.st = .mDrain) (h : rendererStep s = .next t) :
    (4 ≤ s.dotc.toNat ∧
      t = { s with lastdot := s.w.getLsbD 1, w := s.w >>> 2, dotc := s.dotc - 2, st := .mEmit }) ∨
    (s.dotc = 2 ∧ s.i.toNat < 40 ∧
      t = { s with lastdot := s.w.getLsbD 1, w := s.w >>> 2, dotc := 0, st := .mFetch }) ∨
    (s.dotc = 2 ∧ s.i = 40 ∧
      t = { s with lastdot := s.w.getLsbD 1, w := s.w >>> 2, dotc := 0, st := .lSubmit }) := by
  have hpath := hI.pathRegs
  simp only [PathRegs, hst] at hpath
  obtain ⟨-, -, hi, -, -, -, hd, -, heven, -⟩ := hpath
  have hdotc := toNat_drainedDots hd
  rw [rendererStep, hst] at h
  obtain rfl := Host.Outcome.next.inj h
  by_cases h4 : 4 ≤ s.dotc.toNat
  · exact .inl ⟨h4, by rw [afterMDrain, if_pos (by omega)]⟩
  · have h2 : s.dotc = 2 := BitVec.eq_of_toNat_eq (by simp; omega)
    by_cases h40 : s.i.toNat < 40
    · exact .inr (.inl ⟨h2, h40, by simp [h2, afterMDrain, h40]⟩)
    · have hi40 : s.i = 40 := BitVec.eq_of_toNat_eq (hi.antisymm (Nat.not_lt.mp h40))
      exact .inr (.inr ⟨h2, hi40, by simp [h2, afterMDrain, hi40]⟩)

/-- A fetch of the color path reads byte 0 for the seed, a later byte for the bleed, or takes the synthetic byte. -/
theorem cFetch_step (hI : Inv s) (hst : s.st = .cFetch) (h : rendererStep s = .next t) :
    (s.i = 0 ∧ ∃ v, v = s.bitmap.read (cellAddr s.psel (s.ofs.toNat + s.i.toNat)) ∧ t = { s with
      byte := v, history := s.history ++ [.read s.psel (s.ofs.toNat + s.i.toNat) v], st := .cSeed }) ∨
    (1 ≤ s.i.toNat ∧ s.i.toNat < 40 ∧ ∃ v, v = s.bitmap.read (cellAddr s.psel (s.ofs.toNat + s.i.toNat)) ∧ t = { s with
      byte := v, history := s.history ++ [.read s.psel (s.ofs.toNat + s.i.toNat) v], st := .cBleed }) ∨
    (s.i = 40 ∧ t = { s with byte := 0, st := .cBleed }) := by
  have hpath := hI.pathRegs
  simp only [PathRegs, hst] at hpath
  have hpage := hI.fetch_in_page (by rw [hst]; rfl) hpath.1.2.2.2.1
  rw [rendererStep, hst] at h
  rcases fetch_cases (.inl ⟨rfl, rfl⟩) h with ⟨h40, rfl⟩ | ⟨hne, -, v, hv, rfl⟩ | ⟨hne, ha, -⟩
  · exact .inr (.inr ⟨h40, by rw [h40]; rfl⟩)
  · by_cases h0 : s.i = 0
    · exact .inl ⟨h0, v, hv, by simp only [afterCFetch, if_pos h0]⟩
    · have hpos : 1 ≤ s.i.toNat := Nat.one_le_iff_ne_zero.mpr fun e => h0 (BitVec.eq_of_toNat_eq e)
      exact .inr (.inl ⟨hpos, (hpage.resolve_left hne).1, v, hv, by simp only [afterCFetch, if_neg h0]⟩)
  · exact absurd (hpage.resolve_left hne).2 (Nat.not_lt.mpr ha)

/-- A fetch of the mono path reads a byte. -/
theorem mFetch_step (hI : Inv s) (hst : s.st = .mFetch) (h : rendererStep s = .next t) :
    ∃ v, v = s.bitmap.read (cellAddr s.psel (s.ofs.toNat + s.i.toNat)) ∧ t = { s with
      byte := v, history := s.history ++ [.read s.psel (s.ofs.toNat + s.i.toNat) v], st := .mInject } := by
  have hpath := hI.pathRegs
  simp only [PathRegs, hst] at hpath
  have hi : s.i.toNat < 40 := hpath.1.2.1
  have hne : s.i ≠ 40 := fun e => absurd (e ▸ hi) (by decide)
  have hpage := hI.fetch_in_page (by rw [hst]; rfl) hi.le
  rw [rendererStep, hst] at h
  rcases fetch_cases (.inr ⟨rfl, rfl⟩) h with ⟨h40, -⟩ | ⟨-, -, hread⟩ | ⟨-, ha, -⟩
  · exact absurd h40 hne
  · exact hread
  · exact absurd (hpage.resolve_left hne).2 (Nat.not_lt.mpr ha)

/-- An emit of the color path writes its triple into the held buffer. -/
theorem cEmit_step (hI : Inv s) (hst : s.st = .cEmit) (h : rendererStep s = .next t) :
    ∃ l, s.buf[s.bufid]? = some l ∧ t = { s with
      buf := s.buf.set s.bufid (l.put s.j.toNat (clut s.cfg (cidx s.cfg s.odd s.w)))
      j := s.j + 1, st := .cShift } := by
  have hpath := hI.pathRegs
  simp only [PathRegs, hst] at hpath
  obtain ⟨l, hl⟩ := hI.buf_exists
  rw [rendererStep, hst] at h
  have hemit := emitTriple_of_held (clut s.cfg (cidx s.cfg s.odd s.w)) .cShift (hI.held (by rw [hst]; rfl)) hl
    hpath.position_lt
  exact ⟨l, hl, (Host.Outcome.next.inj (hemit.symm.trans h)).symm⟩

/-- An emit of the mono path writes its triple into the held buffer. -/
theorem mEmit_step (hI : Inv s) (hst : s.st = .mEmit) (h : rendererStep s = .next t) :
    ∃ l, s.buf[s.bufid]? = some l ∧ t = { s with
      buf := s.buf.set s.bufid (l.put s.j.toNat (mlut s.cfg (midx s.w))), j := s.j + 1, st := .mDrain } := by
  have hpath := hI.pathRegs
  simp only [PathRegs, hst] at hpath
  obtain ⟨l, hl⟩ := hI.buf_exists
  rw [rendererStep, hst] at h
  have hemit := emitTriple_of_held (mlut s.cfg (midx s.w)) .mDrain (hI.held (by rw [hst]; rfl)) hl
    hpath.position_lt
  exact ⟨l, hl, (Host.Outcome.next.inj (hemit.symm.trans h)).symm⟩

/-- A submit hands the held buffer over. -/
theorem lSubmit_step (hI : Inv s) (hst : s.st = .lSubmit) (h : rendererStep s = .next t) :
    ∃ l, s.buf[s.bufid]? = some l ∧ t = { s with
      own := s.own.set s.bufid .transport
      history := s.history ++ [.submit s.bufid s.line s.monoL l.ch0 l.ch1 l.ch2]
      line := if s.ret then s.line + 1 else s.line
      st := if s.ret then .fNext else .idle } := by
  have hpath := hI.pathRegs
  simp only [PathRegs, hst] at hpath
  obtain ⟨l, hl⟩ := hI.buf_exists
  have hown := hI.held (by rw [hst]; rfl)
  rw [rendererStep, hst] at h
  rcases lSubmit_cases h with ⟨l', -, hl', -, ht⟩ | ⟨hnone | hnone, -⟩ | ⟨-, hj, -⟩
  · exact ⟨l', hl', ht⟩
  · exact absurd hown hnone
  · exact absurd (hl.symm.trans hnone) nofun
  · exact absurd hpath.1 hj

end

end Sys2Proof.Machine
end

section
/-! PROOFS. The datapath registers along a line (42_dot_window_decoder.md R157 item 1, R162 item 1,
44_scanline_producer.md R214, R215, R220): every step of a path leads to a state of the path whose registers it has. -/

namespace Sys2Proof.Machine

/-! ## Counters and low bits -/

/-- The next position in the buffer. -/
theorem toNat_nextPosition {j : BitVec 9} (h : j.toNat < 280) : (j + 1).toNat = j.toNat + 1 := by
  bv_omega

/-- A pattern at place `k` has no bit below. -/
theorem lowZero_pattern_shiftLeft (p : BitVec 14) {k n : Nat} (h : n ≤ k) (hk : k ≤ 32) :
    lowZero n (p.setWidth 32 <<< k) := by
  intro m hm
  rw [getLsbD_pattern_shiftLeft p (by omega), decide_eq_false (by omega), Bool.false_and]

theorem lowZero_or {n : Nat} {v w : BitVec 32} (hv : lowZero n v) (hw : lowZero n w) : lowZero n (v ||| w) := by
  intro m hm
  rw [BitVec.getLsbD_or, hv m hm, hw m hm, Bool.or_false]

theorem lowZero_of_le {k n : Nat} {w : BitVec 32} (h : lowZero n w) (hk : k ≤ n) : lowZero k w :=
  fun m hm => h m (by omega)

/-- A shift by one group clears two more bits. -/
theorem lowZero_shiftGroup {n : Nat} {w : BitVec 32} (h : lowZero n w) : lowZero (n + 2) (w <<< 2) := by
  intro m hm
  rw [BitVec.getLsbD_shiftLeft]
  by_cases h2 : m < 2
  · simp [h2]
  · rw [h (m - 2) (by omega), Bool.and_false]

/-- The bleed writes bit 14 and no lower one. -/
theorem lowZero_bleedWindow {w : BitVec 32} (b : Byte) (h : lowZero 15 w) : lowZero 14 (bleedWindow b w) := by
  intro m hm
  rw [getLsbD_bleedWindow b w (by omega), h m (by omega), decide_eq_false (by omega), Bool.false_and, Bool.false_and,
    Bool.or_false]

/-- The injection writes the bit above the buffered dots and no higher one. -/
theorem injectWindow_lt {w : BitVec 32} {dotc i : BitVec 6} (mode : BleedMode) (b : Byte) (last : Bool)
    (h : w.toNat < 2 ^ dotc.toNat) : (injectWindow mode b w dotc i last).toNat < 2 ^ (dotc.toNat + 1) := by
  apply toNat_lt_of_getLsbD
  intro m hm h32
  rw [getLsbD_injectWindow _ _ _ _ _ _ h32, getLsbD_of_toNat_lt h (by omega), decide_eq_false (by omega),
    Bool.false_and, Bool.false_and, Bool.or_false]

/-- The merged pattern stands above the buffered dots. -/
theorem mergeWindow_lt {w : BitVec 32} {d : Nat} (p : BitVec 14) (h : w.toNat < 2 ^ (d + 1)) :
    (w ||| (p.setWidth 32 <<< d)).toNat < 2 ^ (d + 14) := by
  apply toNat_lt_of_getLsbD
  intro m hm h32
  rw [BitVec.getLsbD_or, getLsbD_of_toNat_lt h (by omega), getLsbD_pattern_shiftLeft p h32,
    BitVec.getLsbD_of_ge p _ (by omega), Bool.and_false, Bool.or_false]

/-- The drain moves every dot down. -/
theorem drainWindow_lt {w : BitVec 32} {d : Nat} (h : w.toNat < 2 ^ d) (hd : 2 ≤ d) :
    (w >>> 2).toNat < 2 ^ (d - 2) := by
  rw [BitVec.toNat_ushiftRight, Nat.shiftRight_eq_div_pow]
  apply Nat.div_lt_of_lt_mul
  rwa [← Nat.pow_add, Nat.add_sub_cancel' hd]

/-! ## The path -/

section
variable {s t : State}

/-- A line starts on either path with empty registers. -/
theorem lMode_pathRegs (hst : s.st = .lMode) (h : rendererStep s = .next t) : holding t.st = true ∧ PathRegs t := by
  obtain rfl := lMode_step hst h
  cases hm : s.modeMono with
  | true => exact ⟨rfl, ⟨rfl, (by decide : (0 : BitVec 6).toNat < 40), rfl, by simp⟩,
      (by decide : (0 : BitVec 32).toNat < 2 ^ 0)⟩
  | false => exact ⟨rfl, ⟨rfl, rfl, Nat.zero_le _, Nat.zero_le _, rfl, rfl⟩, fun m _ => BitVec.getLsbD_zero⟩

theorem cSeed_pathRegs (hp : PathRegs s) (hst : s.st = .cSeed) (h : rendererStep s = .next t) :
    holding t.st = true ∧ PathRegs t := by
  simp only [PathRegs, hst] at hp
  obtain ⟨⟨hmono, hk, -, -, hj, hodd⟩, hi⟩ := hp
  obtain rfl := cSeed_step hst h
  rw [hi] at hj
  exact ⟨rfl, ⟨hmono, hk, Nat.zero_le _, (by decide : (1 : BitVec 6).toNat ≤ 40), hj, hodd⟩,
    lowZero_pattern_shiftLeft _ le_rfl (by decide)⟩

/-- A fetched byte seeds the line or merges into the window. -/
theorem cFetch_pathRegs (hI : Inv s) (hst : s.st = .cFetch) (h : rendererStep s = .next t) :
    holding t.st = true ∧ PathRegs t := by
  have hp := hI.pathRegs
  simp only [PathRegs, hst] at hp
  obtain ⟨⟨hmono, hk, -, hi, hj, hodd⟩, hw⟩ := hp
  rcases cFetch_step hI hst h with ⟨h0, v, -, rfl⟩ | ⟨hpos, -, v, -, rfl⟩ | ⟨h40, rfl⟩
  · exact ⟨rfl, ⟨hmono, hk, Nat.zero_le _, hi, hj, hodd⟩, h0⟩
  · exact ⟨rfl, ⟨hmono, hk, hpos, hi, hj, hodd⟩, hw⟩
  · exact ⟨rfl, ⟨hmono, hk, by rw [h40]; decide, hi, hj, hodd⟩, hw⟩

theorem cBleed_pathRegs (hp : PathRegs s) (hst : s.st = .cBleed) (h : rendererStep s = .next t) :
    holding t.st = true ∧ PathRegs t := by
  simp only [PathRegs, hst] at hp
  obtain rfl := cBleed_step hst h
  exact ⟨rfl, hp.1, lowZero_bleedWindow _ hp.2⟩

theorem cMerge_pathRegs (hp : PathRegs s) (hst : s.st = .cMerge) (h : rendererStep s = .next t) :
    holding t.st = true ∧ PathRegs t := by
  simp only [PathRegs, hst] at hp
  obtain ⟨⟨hmono, hk, hfirst, hi, hj, hodd⟩, hw⟩ := hp
  obtain rfl := cMerge_step hst h
  refine ⟨rfl, hmono, ?_, hfirst, hi, ?_, hodd, ?_⟩ <;> simp only [hk]
  · decide
  · exact hj
  · exact lowZero_or (lowZero_of_le hw (by decide)) (lowZero_pattern_shiftLeft _ (by decide) (by decide))

theorem cEmit_pathRegs (hI : Inv s) (hst : s.st = .cEmit) (h : rendererStep s = .next t) :
    holding t.st = true ∧ PathRegs t := by
  have hp := hI.pathRegs
  simp only [PathRegs, hst] at hp
  have hnext := toNat_nextPosition hp.position_lt
  obtain ⟨hmono, hk, hfirst, hi, hj, hodd, hw⟩ := hp
  obtain ⟨l, -, rfl⟩ := cEmit_step hI hst h
  refine ⟨rfl, hmono, hk, hfirst, hi, ?_, ?_, hw⟩ <;> simp only [hnext]
  · omega
  · exact hodd

/-- The flag alternates with the position. -/
theorem not_odd_eq {n : Nat} {odd : Bool} (h : odd = ((n - 1) % 2 == 1)) (hn : 1 ≤ n) : (!odd) = (n % 2 == 1) := by
  rcases Nat.mod_two_eq_zero_or_one n with h0 | h1
  · have hprev : (n - 1) % 2 = 1 := by omega
    rw [h, h0, hprev]
    rfl
  · have hprev : (n - 1) % 2 = 0 := by omega
    rw [h, h1, hprev]
    rfl

/-- A shift leads to the round's next emit, or ends the round. -/
theorem cShift_pathRegs (hI : Inv s) (hst : s.st = .cShift) (h : rendererStep s = .next t) :
    holding t.st = true ∧ PathRegs t := by
  have hp := hI.pathRegs
  simp only [PathRegs, hst] at hp
  obtain ⟨hmono, hk, hfirst, hi, hj, hodd, hw⟩ := hp
  have hodd' := not_odd_eq hodd (by omega)
  have hw' := lowZero_shiftGroup hw
  have hbyte := toNat_nextByte hi
  rcases cShift_step hI hst h with ⟨h6, rfl⟩ | ⟨h6, h40, rfl⟩ | ⟨h6, h40, rfl⟩
  · have hgroup := toNat_nextGroup h6
    refine ⟨rfl, hmono, ?_, hfirst, hi, ?_, hodd', ?_⟩ <;> simp only [hgroup]
    · omega
    · omega
    · exact lowZero_of_le hw' (by omega)
  · have hk6 : s.k.toNat = 6 := by rw [h6]; rfl
    refine ⟨rfl, ⟨hmono, rfl, Nat.zero_le _, ?_, ?_, hodd'⟩, lowZero_of_le hw' (by omega)⟩ <;>
      simp only [hbyte] <;> omega
  · have hk6 : s.k.toNat = 6 := by rw [h6]; rfl
    rw [h40] at hj
    have hj280 : s.j = 280 := BitVec.eq_of_toNat_eq (by rw [hj, hk6]; decide)
    refine ⟨rfl, hj280, ?_, fun e => absurd (hmono.symm.trans e) nofun⟩
    simp only [hmono, h40]
    decide

theorem mFetch_pathRegs (hI : Inv s) (hst : s.st = .mFetch) (h : rendererStep s = .next t) :
    holding t.st = true ∧ PathRegs t := by
  have hp := hI.pathRegs
  simp only [PathRegs, hst] at hp
  obtain ⟨v, -, rfl⟩ := mFetch_step hI hst h
  exact ⟨rfl, hp⟩

theorem mInject_pathRegs (hp : PathRegs s) (hst : s.st = .mInject) (h : rendererStep s = .next t) :
    holding t.st = true ∧ PathRegs t := by
  simp only [PathRegs, hst] at hp
  obtain rfl := mInject_step hst h
  exact ⟨rfl, hp.1, injectWindow_lt _ _ _ hp.2⟩

/-- The loading registers say whether the merged byte is the first of a pair. -/
theorem mMerge_pathRegs (hI : Inv s) (hst : s.st = .mMerge) (h : rendererStep s = .next t) :
    holding t.st = true ∧ PathRegs t := by
  have hp := hI.pathRegs
  have hlimit := (Config.wf_bounds hI.cfgWf).2
  simp only [PathRegs, hst] at hp
  obtain ⟨⟨hmono, hi, hj, hd⟩, hw⟩ := hp
  have hd14 : s.dotc.toNat = 0 ∨ s.dotc.toNat = 14 := by split_ifs at hd <;> simp [hd]
  have hw' := mergeWindow_lt (dotpatM s.cfg s.byte) hw
  have hdotc := toNat_mergedDots (dotc := s.dotc) (by omega)
  have hbyte := toNat_nextByte hi.le
  obtain rfl := mMerge_step hI hst h
  by_cases hmore : s.i.toNat + 1 < 40 ∧ s.dotc.toNat + 14 ≤ s.cfg.monoLoadLimit
  · rw [if_pos hmore]
    refine ⟨rfl, ⟨hmono, ?_, ?_, ?_⟩, ?_⟩ <;> simp only [hdotc, hbyte]
    · exact hmore.1
    · omega
    · split_ifs at hd ⊢ <;> omega
    · exact hw'
  · rw [if_neg hmore]
    refine ⟨rfl, hmono, ?_, ?_, ?_, ?_, Nat.zero_le _, ?_, ?_, ?_, ?_⟩ <;> simp only [hdotc, hbyte]
    · omega
    · omega
    · intro h14
      split_ifs at hd <;> omega
    · omega
    · omega
    · omega
    · omega
    · exact hw'

theorem mEmit_pathRegs (hI : Inv s) (hst : s.st = .mEmit) (h : rendererStep s = .next t) :
    holding t.st = true ∧ PathRegs t := by
  have hp := hI.pathRegs
  simp only [PathRegs, hst] at hp
  have hnext := toNat_nextPosition hp.position_lt
  obtain ⟨hmono, hfirst, hi, hpair, hj, -, hd, hd28, heven, hw⟩ := hp
  obtain ⟨l, -, rfl⟩ := mEmit_step hI hst h
  refine ⟨rfl, hmono, hfirst, hi, hpair, ?_, ?_, hd, hd28, heven, hw⟩ <;> simp only [hnext] <;> omega

/-- A drain leads to the next emit, or empties the accumulator. -/
theorem mDrain_pathRegs (hI : Inv s) (hst : s.st = .mDrain) (h : rendererStep s = .next t) :
    holding t.st = true ∧ PathRegs t := by
  have hp := hI.pathRegs
  simp only [PathRegs, hst] at hp
  obtain ⟨hmono, hfirst, hi, hpair, hj, hdone, hd, hd28, heven, hw⟩ := hp
  have hdotc := toNat_drainedDots hd
  have hw' := drainWindow_lt hw hd
  rcases mDrain_step hI hst h with ⟨h4, rfl⟩ | ⟨h2, h40, rfl⟩ | ⟨h2, h40, rfl⟩
  · refine ⟨rfl, hmono, hfirst, hi, hpair, ?_, Nat.zero_le _, ?_, ?_, ?_, ?_⟩ <;> simp only [hdotc]
    · omega
    · omega
    · omega
    · omega
    · exact hw'
  · have hd2 : s.dotc.toNat = 2 := by rw [h2]; rfl
    refine ⟨rfl, ⟨hmono, h40, ?_, ?_⟩, ?_⟩
    · change 2 * s.j.toNat + 0 = 14 * s.i.toNat
      omega
    · change 0 = _
      rw [if_neg]
      rintro ⟨hload, hodd⟩
      have := hpair hload
      exact absurd (hodd.symm.trans this) (by decide)
    · rwa [hd2] at hw'
  · have hd2 : s.dotc.toNat = 2 := by rw [h2]; rfl
    rw [h40] at hj
    have hj280 : s.j = 280 := BitVec.eq_of_toNat_eq (by simp at hj ⊢; omega)
    exact ⟨rfl, hj280, by simp only [hmono, if_true]; exact h40, fun _ => rfl⟩

/-- Every step of a path keeps the registers of the path. -/
theorem path_step_pathRegs (hI : Inv s) (hst : holding s.st = true) (hsub : s.st ≠ .lSubmit)
    (h : rendererStep s = .next t) : holding t.st = true ∧ PathRegs t := by
  cases hx : s.st with
  | lMode => exact lMode_pathRegs hx h
  | cSeed => exact cSeed_pathRegs hI.pathRegs hx h
  | cFetch => exact cFetch_pathRegs hI hx h
  | cBleed => exact cBleed_pathRegs hI.pathRegs hx h
  | cMerge => exact cMerge_pathRegs hI.pathRegs hx h
  | cEmit => exact cEmit_pathRegs hI hx h
  | cShift => exact cShift_pathRegs hI hx h
  | mFetch => exact mFetch_pathRegs hI hx h
  | mInject => exact mInject_pathRegs hI.pathRegs hx h
  | mMerge => exact mMerge_pathRegs hI hx h
  | mEmit => exact mEmit_pathRegs hI hx h
  | mDrain => exact mDrain_pathRegs hI hx h
  | lSubmit => exact absurd hx hsub
  | _ => rw [hx] at hst; cases hst

end

end Sys2Proof.Machine
end

section
/-! PROOFS. The invariant of the registers (10_state.md, 70_reset_and_hazards.md R327): every step of every agent keeps
it. A step of a path keeps everything but the datapath; the other renderer steps are taken one by one. -/

namespace Sys2Proof.Machine

/-! ## Steps of a path -/

/-- The registers that no step of a path writes. -/
structure SameControl (s t : State) : Prop where
  cfg : t.cfg = s.cfg
  own : t.own = s.own
  bufLength : t.buf.length = s.buf.length
  bufid : t.bufid = s.bufid
  bitmap : t.bitmap = s.bitmap
  mixedL : t.mixedL = s.mixedL
  nl : t.nl = s.nl
  txtReq : t.txtReq = s.txtReq
  fvalid : t.fvalid = s.fvalid
  fcode : t.fcode = s.fcode
  fst : t.fst = s.fst
  fline : t.fline = s.fline
  line : t.line = s.line
  ret : t.ret = s.ret
  ofs : t.ofs = s.ofs

/-- A step of a path that does not fault writes no control register: its instruction is none of their writers. -/
theorem sameControl_of_path_step {s t : State} (hst : holding s.st = true) (hsub : s.st ≠ .lSubmit)
    (h : rendererStep s = .next t) (ht : t.st ≠ .fault) : SameControl s t := by
  obtain ⟨-, -, hbitmap, hcfg, -⟩ := noInstructionWritesTheEnvironment _ s t h
  obtain ⟨hline, hofs, -, -, hmixed, hret, hbufid, hown, htxt, hfault⟩ := controlRegistersHaveTheirWriters _ s t h
  obtain ⟨-, -, hbuf⟩ := onlyEmitsWriteTheHeldBuffer _ s t h
  obtain ⟨hv, hc, hs, hl⟩ := hfault (.inl ht)
  cases hx : s.st <;> rw [hx] at hst hsub hline hofs hmixed hret hbufid hown htxt
  case lSubmit => exact absurd rfl hsub
  case idle | fStart | fNext | fText | lPsel | lMap | lAcq | qMap | qPsel | fault => cases hst
  all_goals
    exact ⟨hcfg, hown nofun nofun, hbuf, hbufid nofun, hbitmap, (hmixed nofun).1, (hmixed nofun).2, htxt nofun nofun,
      hv, hc, hs, hl, hline nofun nofun nofun nofun nofun, hret nofun nofun nofun, hofs nofun nofun⟩

theorem ne_of_holding {x y : St} (hx : holding x = true) (hy : holding y = false) : x ≠ y := by
  rintro rfl
  exact Bool.false_ne_true (hy.symm.trans hx)

/-- A step that stays on a path keeps the invariant, where it keeps the path's registers. -/
theorem inv_of_sameControl {s t : State} (hI : Inv s) (hs : holding s.st = true) (ht : holding t.st = true)
    (hc : SameControl s t) (hp : PathRegs t) : Inv t := by
  have hfaultS := hI.faultRegs
  have hown := hI.ownRegs
  obtain ⟨hline, -, -, -, hofs⟩ := hI.lineRegs
  rw [FaultRegs, if_neg (ne_of_holding hs rfl)] at hfaultS
  rw [OwnRegs, if_pos hs] at hown
  refine ⟨?_, ?_, ?_, ?_, ?_, ?_, ?_, ?_, ?_, ?_, hp⟩
  · rw [hc.cfg]
    exact hI.cfgWf
  · rw [hc.own, hc.cfg]
    exact hI.ownLength
  · rw [hc.bufLength, hc.cfg]
    exact hI.bufLength
  · rw [hc.bufid, hc.cfg]
    exact hI.bufidLt
  · rw [hc.bitmap]
    exact hI.bitmapWf
  · rw [hc.nl, hc.mixedL]
    exact hI.nlLegal
  · rw [hc.txtReq, hI.txtReqRule, decide_eq_false (ne_of_holding hs rfl), decide_eq_false (ne_of_holding ht rfl)]
  · rw [FaultRegs, if_neg (ne_of_holding ht rfl), hc.fvalid, hc.fcode, hc.fst, hc.fline]
    exact hfaultS
  · have hin : inLine s.st = true := by simp [inLine, hs]
    refine ⟨fun _ => ?_, fun e => absurd e (ne_of_holding ht rfl), fun e => absurd e (ne_of_holding ht rfl),
      fun e => absurd e (ne_of_holding ht rfl), fun _ => ?_⟩
    · rw [hc.line, hc.ret, hc.nl]
      exact hline hin
    · rw [hc.ofs, hc.line]
      exact hofs (.inl hs)
  · rw [OwnRegs, if_pos ht, hc.own, hc.bufid]
    exact hown

theorem path_step_keeps_inv {s t : State} (hI : Inv s) (hst : holding s.st = true) (hsub : s.st ≠ .lSubmit)
    (h : rendererStep s = .next t) : Inv t := by
  obtain ⟨ht, hp⟩ := path_step_pathRegs hI hst hsub h
  exact inv_of_sameControl hI hst ht (sameControl_of_path_step hst hsub h (ne_of_holding ht rfl)) hp

/-! ## Steps outside a path -/

/-- Outside the states that hold a buffer the path's registers are free. -/
theorem pathRegs_of_not_holding {s : State} (h : holding s.st = false) : PathRegs s := by
  cases hx : s.st <;> rw [hx] at h <;> simp only [PathRegs, hx] <;> cases h

/-- No fault is recorded outside `FAULT`. -/
theorem Inv.no_fault {s : State} (hI : Inv s) (hst : s.st ≠ .fault) :
    s.fvalid = false ∧ s.fcode = 0 ∧ s.fst = 0 ∧ s.fline = 0 := by
  have h := hI.faultRegs
  rwa [FaultRegs, if_neg hst] at h

/-- No buffer is held outside the states that hold one. -/
theorem Inv.none_held {s : State} (hI : Inv s) (hst : holding s.st = false) (b : Nat) : s.own[b]? ≠ some .held := by
  have h := hI.ownRegs
  rw [OwnRegs, if_neg (ne_true_of_eq_false hst)] at h
  exact h b

/-- The configuration, the stores and the owners, which no renderer step outside a line's path writes. -/
structure SameStore (s t : State) : Prop where
  cfg : t.cfg = s.cfg := by rfl
  own : t.own = s.own := by rfl
  buf : t.buf = s.buf := by rfl
  bufid : t.bufid = s.bufid := by rfl
  bitmap : t.bitmap = s.bitmap := by rfl

/-- The fault registers. -/
structure SameFault (s t : State) : Prop where
  fvalid : t.fvalid = s.fvalid := by rfl
  fcode : t.fcode = s.fcode := by rfl
  fst : t.fst = s.fst := by rfl
  fline : t.fline = s.fline := by rfl

/-- A step between two states without a held buffer keeps the invariant, where it keeps the registers of the frame, the
line and the fault. -/
theorem inv_of_sameStore {s t : State} (hI : Inv s) (hs : holding s.st = false) (ht : holding t.st = false)
    (hc : SameStore s t) (hnl : t.nl = if t.mixedL then 160 else 192) (htxt : t.txtReq = decide (t.st = .fText))
    (hf : FaultRegs t) (hl : LineRegs t) : Inv t := by
  refine ⟨?_, ?_, ?_, ?_, ?_, hnl, htxt, hf, hl, ?_, pathRegs_of_not_holding ht⟩
  · rw [hc.cfg]
    exact hI.cfgWf
  · rw [hc.own, hc.cfg]
    exact hI.ownLength
  · rw [hc.buf, hc.cfg]
    exact hI.bufLength
  · rw [hc.bufid, hc.cfg]
    exact hI.bufidLt
  · rw [hc.bitmap]
    exact hI.bitmapWf
  · rw [OwnRegs, if_neg (ne_true_of_eq_false ht), hc.own]
    exact hI.none_held hs

/-- The fault registers stay empty while `ST` is not `FAULT`. -/
theorem faultRegs_of_same {s t : State} (hI : Inv s) (hs : s.st ≠ .fault) (ht : t.st ≠ .fault) (hf : SameFault s t) :
    FaultRegs t := by
  rw [FaultRegs, if_neg ht, hf.fvalid, hf.fcode, hf.fst, hf.fline]
  exact hI.no_fault hs

/-- The states without a held buffer and without a fault. -/
def Quiet (x : St) : Prop := holding x = false ∧ x ≠ .fault

/-- A step between two such states keeps the invariant, where it keeps the registers of the frame and the line. -/
theorem inv_of_quiet {s t : State} (hI : Inv s) (hs : Quiet s.st) (ht : Quiet t.st) (hc : SameStore s t)
    (hf : SameFault s t) (hnl : t.nl = if t.mixedL then 160 else 192) (htxt : t.txtReq = decide (t.st = .fText))
    (hl : LineRegs t) : Inv t :=
  inv_of_sameStore hI hs.1 ht.1 hc hnl htxt (faultRegs_of_same hI hs.2 ht.2 hf) hl

/-- `TXT_REQ` is 0 outside the text wait. -/
theorem Inv.no_text {s : State} (hI : Inv s) (hst : s.st ≠ .fText) : s.txtReq = false := by
  rw [hI.txtReqRule, decide_eq_false hst]

/-- A frame has at most 192 lines. -/
theorem Inv.nl_le {s : State} (hI : Inv s) : s.nl.toNat ≤ 192 := by
  rw [hI.nlLegal]
  split_ifs <;> decide

section
variable {s t : State}

/-- `decodeCmd` answers no fault but the two command faults (30_encoding.md R95). -/
theorem decodeCmd_error {w : BitVec 16} {c : FaultCode} (h : decodeCmd w = .error c) :
    c = .illegalCmd ∨ c = .lineRange := by
  rw [decodeCmd_eq_checkCmd] at h
  cases hr : readCmd w with
  | none =>
    rw [hr] at h
    cases h
    exact .inl rfl
  | some d =>
    simp only [hr, checkCmd] at h
    split_ifs at h
    cases h
    exact .inr rfl

/-- Where no line is mapped or dispatched, `LINE` is free. -/
theorem lineRegs_of_free (h : t.st = .idle ∨ t.st = .fStart ∨ t.st = .qPsel ∨ t.st = .fault) : LineRegs t := by
  rcases h with h | h | h | h <;> simp [LineRegs, h, inLine, holding]

/-- The DECODE step keeps the invariant: it performs a command with a line in range, or takes a command fault. -/
theorem idle_keeps_inv (hI : Inv s) (hst : s.st = .idle) (h : rendererStep s = .next t) : Inv t := by
  have hs : Quiet s.st := by rw [hst]; exact ⟨rfl, nofun⟩
  have htxt := hI.no_text (by rw [hst]; decide)
  rw [rendererStep, hst] at h
  rcases idleDecode_cases h with ⟨-, rfl⟩ | ⟨-, ⟨c, hc, rfl⟩ | ⟨-, rfl⟩ | ⟨-, rfl⟩ | ⟨n, -, hn, rfl⟩ | ⟨n, -, hn, rfl⟩ |
    ⟨-, rfl⟩⟩
  · exact hI
  · have hcode : c.code = 1 ∨ c.code = 2 := by
      rcases decodeCmd_error hc with rfl | rfl
      · exact .inl rfl
      · exact .inr rfl
    have hidle : s.st.code = 0 := by rw [hst]; rfl
    exact inv_of_sameStore hI hs.1 rfl {} hI.nlLegal htxt ⟨rfl, hcode, hidle⟩
      (lineRegs_of_free (by simp))
  · exact inv_of_quiet hI hs ⟨rfl, nofun⟩ {} {} hI.nlLegal htxt (lineRegs_of_free (by simp))
  · exact inv_of_quiet hI hs ⟨rfl, nofun⟩ {} {} hI.nlLegal htxt (lineRegs_of_free (by simp))
  · exact inv_of_quiet hI hs ⟨rfl, nofun⟩ {} {} hI.nlLegal htxt (by simpa [LineRegs, inLine, holding] using hn)
  · exact inv_of_quiet hI hs ⟨rfl, nofun⟩ {} {} hI.nlLegal htxt (by simpa [LineRegs, inLine, holding] using hn)
  · exact inv_of_quiet hI hs ⟨rfl, nofun⟩ {} {} hI.nlLegal htxt (lineRegs_of_free (by simp))

/-- The queries end in `IDLE`. -/
theorem query_keeps_inv (hI : Inv s) (hst : s.st = .qMap ∨ s.st = .qPsel) (h : rendererStep s = .next t) : Inv t := by
  have hs : Quiet s.st := by rcases hst with hst | hst <;> rw [hst] <;> exact ⟨rfl, nofun⟩
  have htxt := hI.no_text (by rcases hst with hst | hst <;> rw [hst] <;> decide)
  rw [rendererStep] at h
  rcases hst with hst | hst <;> rw [hst] at h <;> cases h <;>
    exact inv_of_quiet hI hs ⟨rfl, nofun⟩ {} {} hI.nlLegal htxt (lineRegs_of_free (.inl rfl))

theorem fStart_keeps_inv (hI : Inv s) (hst : s.st = .fStart) (h : rendererStep s = .next t) : Inv t := by
  have hs : Quiet s.st := by rw [hst]; exact ⟨rfl, nofun⟩
  have htxt := hI.no_text (by rw [hst]; decide)
  rw [rendererStep, hst] at h
  obtain rfl := Host.Outcome.next.inj ((fStartLatchesTheLineCount s).symm.trans h)
  exact inv_of_quiet hI hs ⟨rfl, nofun⟩ {} {} rfl htxt (by simp [LineRegs, inLine, holding])

/-- `F_NEXT` dispatches a line below `NL`, or ends the frame with `LINE` at `NL`. -/
theorem fNext_keeps_inv (hI : Inv s) (hst : s.st = .fNext) (h : rendererStep s = .next t) : Inv t := by
  have hs : Quiet s.st := by rw [hst]; exact ⟨rfl, nofun⟩
  have htxt := hI.no_text (by rw [hst]; decide)
  have hnl := hI.nl_le
  obtain ⟨-, -, hline, -, -⟩ := hI.lineRegs
  obtain ⟨hret, hle⟩ := hline hst
  rw [rendererStep, hst] at h
  rcases fNext_cases h with ⟨hlt, rfl⟩ | ⟨-, -, -, rfl⟩ | ⟨hge, hm, -, rfl⟩ | ⟨-, -, rfl⟩
  · refine inv_of_quiet hI hs ⟨rfl, nofun⟩ {} {} hI.nlLegal htxt ⟨fun _ => ⟨?_, fun _ => hlt⟩, nofun, nofun, nofun, ?_⟩
    · exact hlt.trans_le hnl
    · exact fun e => e.elim nofun nofun
  · exact hI
  · exact inv_of_quiet hI hs ⟨rfl, nofun⟩ {} {} hI.nlLegal rfl
      ⟨nofun, nofun, nofun, fun _ => ⟨hm, BitVec.eq_of_toNat_eq (hle.antisymm hge)⟩, fun e => e.elim nofun nofun⟩
  · exact inv_of_quiet hI hs ⟨rfl, nofun⟩ {} {} hI.nlLegal htxt (lineRegs_of_free (.inl rfl))

theorem fText_keeps_inv (hI : Inv s) (hst : s.st = .fText) (h : rendererStep s = .next t) : Inv t := by
  have hs : Quiet s.st := by rw [hst]; exact ⟨rfl, nofun⟩
  rw [rendererStep, hst] at h
  rcases fText_cases h with ⟨-, rfl⟩ | ⟨-, rfl⟩
  · exact inv_of_quiet hI hs ⟨rfl, nofun⟩ {} {} hI.nlLegal rfl (lineRegs_of_free (.inl rfl))
  · exact hI

/-- `L_PSEL` and `L_MAP` keep the line, and `L_MAP` maps it. -/
theorem lPsel_lMap_keep_inv (hI : Inv s) (hst : s.st = .lPsel ∨ s.st = .lMap) (h : rendererStep s = .next t) :
    Inv t := by
  have hs : Quiet s.st := by rcases hst with hst | hst <;> rw [hst] <;> exact ⟨rfl, nofun⟩
  have htxt := hI.no_text (by rcases hst with hst | hst <;> rw [hst] <;> decide)
  obtain ⟨hline, -⟩ := hI.lineRegs
  have hline := hline (by rcases hst with hst | hst <;> rw [hst] <;> rfl)
  rw [rendererStep] at h
  rcases hst with hst | hst <;> rw [hst] at h <;> cases h
  · exact inv_of_quiet hI hs ⟨rfl, nofun⟩ {} {} hI.nlLegal htxt
      ⟨fun _ => hline, nofun, nofun, nofun, fun e => e.elim nofun nofun⟩
  · exact inv_of_quiet hI hs ⟨rfl, nofun⟩ {} {} hI.nlLegal htxt ⟨fun _ => hline, nofun, nofun, nofun, fun _ => rfl⟩

/-! ## Taking a buffer and handing it over -/

/-- A buffer that is set to another owner than `HELD` leaves no other held one. -/
theorem set_ne_held {own : List Own} {k b : Nat} {v : Own} (hv : v ≠ .held)
    (h : b ≠ k → own[b]? ≠ some .held) : (own.set k v)[b]? ≠ some .held := by
  by_cases hb : k = b
  · subst hb
    rw [List.getElem?_set_self']
    cases own[k]? <;> simp [hv]
  · rw [List.getElem?_set_ne hb]
    exact h (Ne.symm hb)

/-- `L_ACQ` holds the buffer it takes, and no other was held. -/
theorem lAcq_keeps_inv (hI : Inv s) (hst : s.st = .lAcq) (h : rendererStep s = .next t) : Inv t := by
  have hs : Quiet s.st := by rw [hst]; exact ⟨rfl, nofun⟩
  have htxt := hI.no_text (by rw [hst]; decide)
  obtain ⟨hline, -, -, -, hofs⟩ := hI.lineRegs
  have hline := hline (by rw [hst]; rfl)
  rw [rendererStep, hst] at h
  rcases lAcq_cases h with ⟨-, rfl⟩ | ⟨b, hb, -, rfl⟩
  · exact hI
  · have hlt : b < s.own.length := (List.getElem?_eq_some_iff.mp hb).1
    refine ⟨hI.cfgWf, ?_, hI.bufLength, hI.ownLength ▸ hlt, hI.bitmapWf, hI.nlLegal, htxt,
      faultRegs_of_same hI hs.2 nofun {},
      ⟨fun _ => hline, nofun, nofun, nofun, fun _ => hofs (.inr hst)⟩, ⟨?_, fun k hk => ?_⟩, trivial⟩
    · exact List.length_set.trans hI.ownLength
    · exact List.getElem?_set_self hlt
    · change (s.own.set b .held)[k]? ≠ _
      rw [List.getElem?_set_ne (Ne.symm hk)]
      exact hI.none_held hs.1 k

/-- `L_SUBMIT` leaves no held buffer, and in a frame goes to the next line. -/
theorem lSubmit_keeps_inv (hI : Inv s) (hst : s.st = .lSubmit) (h : rendererStep s = .next t) : Inv t := by
  have hne : s.st ≠ .fault := by rw [hst]; decide
  have htxt := hI.no_text (by rw [hst]; decide)
  have hown := hI.ownRegs
  rw [OwnRegs, if_pos (by rw [hst]; rfl)] at hown
  obtain ⟨hline, -⟩ := hI.lineRegs
  obtain ⟨hlt, hnl⟩ := hline (by rw [hst]; rfl)
  have hnone : ∀ b : Nat, (s.own.set s.bufid .transport)[b]? ≠ some Own.held := fun b =>
    set_ne_held nofun fun hb => hown.2 b hb
  have hlen : (s.own.set s.bufid .transport).length = s.cfg.nbuf := List.length_set.trans hI.ownLength
  obtain ⟨l, -, rfl⟩ := lSubmit_step hI hst h
  cases hret : s.ret with
  | true =>
    have hnext : (s.line + 1).toNat = s.line.toNat + 1 := by bv_omega
    have hle : (s.line + 1).toNat ≤ s.nl.toNat := hnext ▸ hnl hret
    exact ⟨hI.cfgWf, hlen, hI.bufLength, hI.bufidLt, hI.bitmapWf, hI.nlLegal, htxt,
      faultRegs_of_same hI hne nofun {},
      ⟨nofun, nofun, fun _ => ⟨rfl, hle⟩, nofun, fun e => e.elim nofun nofun⟩, hnone, trivial⟩
  | false =>
    exact ⟨hI.cfgWf, hlen, hI.bufLength, hI.bufidLt, hI.bitmapWf, hI.nlLegal, htxt,
      faultRegs_of_same hI hne nofun {}, lineRegs_of_free (.inl rfl), hnone, trivial⟩

/-- Every renderer step keeps the invariant. -/
theorem rendererStep_keeps_inv (hI : Inv s) (h : rendererStep s = .next t) : Inv t := by
  cases hx : s.st with
  | idle => exact idle_keeps_inv hI hx h
  | fStart => exact fStart_keeps_inv hI hx h
  | fNext => exact fNext_keeps_inv hI hx h
  | fText => exact fText_keeps_inv hI hx h
  | lPsel => exact lPsel_lMap_keep_inv hI (.inl hx) h
  | lMap => exact lPsel_lMap_keep_inv hI (.inr hx) h
  | lAcq => exact lAcq_keeps_inv hI hx h
  | qMap => exact query_keeps_inv hI (.inl hx) h
  | qPsel => exact query_keeps_inv hI (.inr hx) h
  | lSubmit => exact lSubmit_keeps_inv hI hx h
  | fault =>
    cases (rendererStep_of_fault hx).symm.trans h
    exact hI
  | _ => exact path_step_keeps_inv hI (by rw [hx]; rfl) (by rw [hx]; decide) h

end

/-! ## Steps of the other agents -/

/-- The invariant says nothing of the mailbox, the mode inputs, the acknowledge and the schedule. -/
theorem Inv.environment {s : State} (hI : Inv s) (cmd : BitVec 16) (valid : Bool) (mode : BitVec 4) (ack : Bool)
    (sched : List Agent) :
    Inv { s with cmd := cmd, cmdValid := valid, mode := mode, txtAck := ack, schedule := sched } :=
  ⟨hI.cfgWf, hI.ownLength, hI.bufLength, hI.bufidLt, hI.bitmapWf, hI.nlLegal, hI.txtReqRule, hI.faultRegs, hI.lineRegs,
    hI.ownRegs, hI.pathRegs⟩

theorem Inv.writerByte {s : State} (hI : Inv s) (p : BitVec 1) (a : BitVec 13) (v : Byte) :
    Inv { s with bitmap := s.bitmap.write (cellAddr p a.toNat) v } :=
  ⟨hI.cfgWf, hI.ownLength, hI.bufLength, hI.bufidLt, Memory.write_wf hI.bitmapWf p a v, hI.nlLegal, hI.txtReqRule,
    hI.faultRegs, hI.lineRegs, hI.ownRegs, hI.pathRegs⟩

/-- A released buffer was not the held one. -/
theorem Inv.release {s : State} (hI : Inv s) {b : Nat} (hb : s.own[b]? = some .transport) :
    Inv { s with own := s.own.set b .free } := by
  refine ⟨hI.cfgWf, List.length_set.trans hI.ownLength, hI.bufLength, hI.bufidLt, hI.bitmapWf, hI.nlLegal,
    hI.txtReqRule, hI.faultRegs, hI.lineRegs, ?_, hI.pathRegs⟩
  have hown := hI.ownRegs
  unfold OwnRegs at hown ⊢
  split_ifs at hown ⊢ with hx
  · refine ⟨?_, fun k hk => set_ne_held nofun fun _ => hown.2 k hk⟩
    have hne : b ≠ s.bufid := by
      rintro rfl
      exact absurd (hb.symm.trans hown.1) nofun
    exact (List.getElem?_set_ne hne).trans hown.1
  · exact fun k => set_ne_held nofun fun _ => hown k

/-- A machine right after a reset meets the invariant, whatever the environment's part of the state. -/
theorem inv_afterReset {c : Config} {bitmap : Memory} {buf : List LineBuf} (hc : c.wf = true) (hb : bitmap.wf = true)
    (hl : buf.length = c.nbuf) (mode : BitVec 4) (hist : List Event) (sched : List Agent) (n : Nat) :
    Inv { State.resetWith c with
      mode := mode, bitmap := bitmap, buf := buf, history := hist, schedule := sched, resets := n } := by
  refine ⟨hc, List.length_replicate, hl, (Config.wf_bounds hc).1, hb, rfl, rfl, ⟨rfl, rfl, rfl, rfl⟩,
    lineRegs_of_free (.inl rfl), fun b hheld => ?_, trivial⟩
  have hfree := List.eq_of_mem_replicate (List.mem_of_getElem? hheld)
  cases hfree

/-- Settles O49: the renderer keeps the invariant (`rendererStep_keeps_inv`), a reset establishes it, and the other
agents write nothing it speaks of but the bitmap and an owner. -/
theorem everyStepKeepsTheInvariant : Obligations.EveryStepKeepsTheInvariant := by
  intro s t hI h
  rcases step_cases h with ⟨-, hr⟩ | ⟨a, rest, -, ha⟩
  · exact rendererStep_keeps_inv hI hr
  · have hI' : Inv { s with schedule := rest } := hI.environment s.cmd s.cmdValid s.mode s.txtAck rest
    rcases agentStep_cases ha with ⟨-, hr⟩ | ⟨w, -, -, rfl⟩ | ⟨-, -, rfl⟩ | ⟨p, x, v, -, rfl⟩ | ⟨m, -, rfl⟩ |
      ⟨b, -, -, rfl⟩ | ⟨b, -, hb, rfl⟩ | ⟨v, -, -, rfl⟩ | ⟨-, rfl⟩
    · exact rendererStep_keeps_inv hI' hr
    · exact hI'.environment w true s.mode s.txtAck rest
    · exact hI'
    · exact hI'.writerByte p x v
    · exact hI'.environment s.cmd s.cmdValid m s.txtAck rest
    · exact hI'
    · exact hI'.release hb
    · exact hI'.environment s.cmd s.cmdValid s.mode v rest
    · exact inv_afterReset hI.cfgWf hI.bitmapWf (buffersAny_length _ _ _) _ _ _ _

end Sys2Proof.Machine
end

section
/-! PROOFS. The record of a frame (45_frame_orchestrator.md R254, R259): its lines are submitted once each and in
order. -/

namespace Sys2Proof.Machine

/-- One more line in order. -/
theorem linesInOrder_succ (n : BitVec 8) : linesInOrder (n.toNat + 1) = linesInOrder n.toNat ++ [.line n] := by
  rw [linesInOrder, linesInOrder, List.range_succ, List.map_append, List.map_singleton, BitVec.ofNat_toNat,
    BitVec.setWidth_eq]

/-- Reads, acquires and faults leave no mark. -/
theorem frameMarks_of_exec {i : Instr} {s t : State} (hc : ∀ c : Cmd, i ≠ c.toInstr)
    (hi : i ∉ [Instr.idleDecode, .fNext, .fText, .lSubmit]) (h : exec i s = .next t) :
    frameMarks t.history = frameMarks s.history := by
  simp only [List.mem_cons, List.not_mem_nil, or_false, not_or] at hi
  obtain ⟨hidle, hnext, htext, hsub⟩ := hi
  cases exec_ending h with
  | command c hw hcmd => exact hcmd.elim (fun e => absurd e (hc c)) fun e => absurd e.1 hidle
  | refuse hr =>
    cases i with
    | line n => exact absurd rfl (hc (.line n))
    | mapq n => exact absurd rfl (hc (.mapq n))
    | idleDecode => exact absurd rfl hidle
    | _ => exact hr.elim
  | defect => exact frameMarks_append _ _
  | textReq | frameEnd => exact absurd rfl hnext
  | textDone => exact absurd rfl htext
  | lSubmit => exact absurd rfl hsub
  | lAcq | cRead | mRead => exact frameMarks_append _ _
  | _ => rfl

/-- A micro-operation of a path is none of those that write a mark. -/
theorem path_uop_not_mem {x : St} (hx : holding x = true) (hsub : x ≠ .lSubmit) :
    x.uop ∉ [Instr.idleDecode, .fNext, .fText, .lSubmit] := by
  cases x with
  | idle | fStart | fNext | fText | lPsel | lMap | lAcq | qMap | qPsel | fault => cases hx
  | lSubmit => exact absurd rfl hsub
  | _ => decide

section
variable {s t : State}

/-- A state outside a frame has no record to keep. -/
theorem frameSoFar_of_free (hst : t.st ≠ .fStart) (hnext : t.st ≠ .fNext) (htext : t.st ≠ .fText)
    (hline : inLine t.st = true → t.ret = false) : FrameSoFar t := by
  refine ⟨fun h => absurd h hst, fun h => ?_, fun h => absurd h htext⟩
  rcases h with h | ⟨hin, hret⟩
  · exact absurd h hnext
  · exact absurd ((hline hin).symm.trans hret) nofun

/-- A step within a line keeps the record. -/
theorem frameSoFar_of_line (hF : FrameSoFar s) (hs : inLine s.st = true) (ht : inLine t.st = true)
    (hm : frameMarks t.history = frameMarks s.history) (hl : t.line = s.line) (hr : t.ret = s.ret) : FrameSoFar t := by
  obtain ⟨-, hmarks, -⟩ := hF
  have hne : ∀ x, inLine x = false → t.st ≠ x := fun x hx e => Bool.false_ne_true (hx.symm.trans (e ▸ ht))
  refine ⟨fun e => absurd e (hne _ rfl), fun e => ?_, fun e => absurd e (hne _ rfl)⟩
  rcases e with e | ⟨-, hret⟩
  · exact absurd e (hne _ rfl)
  · rw [hm, hl]
    exact hmarks (.inr ⟨hs, hr ▸ hret⟩)

/-- A step of a path keeps the record. -/
theorem path_step_keeps_frame (hI : Inv s) (hF : FrameSoFar s) (hst : holding s.st = true) (hsub : s.st ≠ .lSubmit)
    (h : rendererStep s = .next t) : FrameSoFar t := by
  obtain ⟨ht, -⟩ := path_step_pathRegs hI hst hsub h
  have hc := sameControl_of_path_step hst hsub h (ne_of_holding ht rfl)
  refine frameSoFar_of_line hF (by simp [inLine, hst]) (by simp [inLine, ht]) ?_ hc.line hc.ret
  exact frameMarks_of_exec (uop_ne_toInstr s.st) (path_uop_not_mem hst hsub) h

/-- DECODE starts a frame with an empty record. -/
theorem idle_keeps_frame (hF : FrameSoFar s) (hst : s.st = .idle) (h : rendererStep s = .next t) : FrameSoFar t := by
  rw [rendererStep, hst] at h
  rcases idleDecode_cases h with ⟨-, rfl⟩ | ⟨-, ⟨c, -, rfl⟩ | ⟨-, rfl⟩ | ⟨-, rfl⟩ | ⟨n, -, -, rfl⟩ | ⟨n, -, -, rfl⟩ |
    ⟨-, rfl⟩⟩
  · exact hF
  · exact frameSoFar_of_free nofun nofun nofun nofun
  · exact frameSoFar_of_free nofun nofun nofun nofun
  · exact ⟨fun _ => frameMarks_append _ _, fun e => e.elim nofun fun e => (nomatch e.1), nofun⟩
  · exact frameSoFar_of_free nofun nofun nofun fun _ => rfl
  · exact frameSoFar_of_free nofun nofun nofun nofun
  · exact frameSoFar_of_free nofun nofun nofun nofun

theorem fStart_keeps_frame (hF : FrameSoFar s) (hst : s.st = .fStart) (h : rendererStep s = .next t) :
    FrameSoFar t := by
  obtain ⟨hmarks, -, -⟩ := hF
  rw [rendererStep, hst] at h
  cases h
  exact ⟨nofun, fun _ => hmarks hst, nofun⟩

theorem fNext_keeps_frame (hF : FrameSoFar s) (hst : s.st = .fNext) (h : rendererStep s = .next t) :
    FrameSoFar t := by
  obtain ⟨-, hmarks, -⟩ := id hF
  have hmarks := hmarks (.inl hst)
  rw [rendererStep, hst] at h
  rcases fNext_cases h with ⟨-, rfl⟩ | ⟨-, -, -, rfl⟩ | ⟨-, -, -, rfl⟩ | ⟨-, -, rfl⟩
  · exact ⟨nofun, fun _ => hmarks, nofun⟩
  · exact hF
  · exact ⟨nofun, fun e => e.elim nofun fun e => (nomatch e.1), fun _ => by simp [hmarks]⟩
  · exact frameSoFar_of_free nofun nofun nofun nofun

/-- A submit adds its line to the record, and a frame goes on to the next one. -/
theorem lSubmit_keeps_frame (hI : Inv s) (hF : FrameSoFar s) (hst : s.st = .lSubmit) (h : rendererStep s = .next t) :
    FrameSoFar t := by
  obtain ⟨-, hmarks, -⟩ := hF
  obtain ⟨hlt, -⟩ := hI.lineRegs.1 (by rw [hst]; rfl)
  obtain ⟨l, -, rfl⟩ := lSubmit_step hI hst h
  cases hret : s.ret with
  | false => exact frameSoFar_of_free nofun nofun nofun nofun
  | true =>
    have hmarks := hmarks (.inr ⟨by rw [hst]; rfl, hret⟩)
    have hnext : (s.line + 1).toNat = s.line.toNat + 1 := by bv_omega
    refine ⟨nofun, fun _ => ?_, nofun⟩
    simp only [if_true, frameMarks_append, hmarks, hnext, linesInOrder_succ]

/-- Every renderer step keeps the record of a frame. -/
theorem rendererStep_keeps_frame (hI : Inv s) (hF : FrameSoFar s) (h : rendererStep s = .next t) : FrameSoFar t := by
  cases hx : s.st with
  | idle => exact idle_keeps_frame hF hx h
  | fStart => exact fStart_keeps_frame hF hx h
  | fNext => exact fNext_keeps_frame hF hx h
  | fText =>
    rw [rendererStep, hx] at h
    rcases fText_cases h with ⟨-, rfl⟩ | ⟨-, rfl⟩
    · exact frameSoFar_of_free nofun nofun nofun nofun
    · exact hF
  | lPsel | lMap =>
    have hs : inLine s.st = true := by rw [hx]; rfl
    rw [rendererStep, hx] at h
    cases h
    exact frameSoFar_of_line hF hs rfl rfl rfl rfl
  | lAcq =>
    have hs : inLine s.st = true := by rw [hx]; rfl
    rw [rendererStep, hx] at h
    rcases lAcq_cases h with ⟨-, rfl⟩ | ⟨b, -, -, rfl⟩
    · exact hF
    · exact frameSoFar_of_line hF hs rfl (frameMarks_append _ _) rfl rfl
  | qMap | qPsel =>
    rw [rendererStep, hx] at h
    cases h
    exact frameSoFar_of_free nofun nofun nofun nofun
  | lSubmit => exact lSubmit_keeps_frame hI hF hx h
  | fault =>
    cases (rendererStep_of_fault hx).symm.trans h
    exact hF
  | _ => exact path_step_keeps_frame hI hF (by rw [hx]; rfl) (by rw [hx]; decide) h

end

/-- Settles O58: the renderer keeps the record (`rendererStep_keeps_frame`), a reset ends the frame, and no other agent
writes what the record speaks of. -/
theorem everyStepKeepsTheFrameInOrder : Obligations.EveryStepKeepsTheFrameInOrder := by
  intro s t hI hF h
  rcases step_cases h with ⟨-, hr⟩ | ⟨a, rest, -, ha⟩
  · exact rendererStep_keeps_frame hI hF hr
  · rcases agentStep_cases ha with ⟨-, hr⟩ | ⟨w, -, -, rfl⟩ | ⟨-, -, rfl⟩ | ⟨p, x, v, -, rfl⟩ | ⟨m, -, rfl⟩ |
      ⟨b, -, -, rfl⟩ | ⟨b, -, -, rfl⟩ | ⟨v, -, -, rfl⟩ | ⟨-, rfl⟩
    · exact rendererStep_keeps_frame (hI.environment s.cmd s.cmdValid s.mode s.txtAck rest) hF hr
    on_goal 8 => exact frameSoFar_of_free nofun nofun nofun nofun
    all_goals exact hF

/-- Settles O59: at the end of a frame `LINE` is `NL`, which is 192, or 160 in a mixed frame. -/
theorem aFrameEndsWithAllItsLines : Obligations.AFrameEndsWithAllItsLines := by
  rintro s t hI ⟨-, hnextMarks, htextMarks⟩ h ht
  obtain ⟨-, -, hnext, htext, -⟩ := hI.lineRegs
  have hnl := hI.nlLegal
  refine ⟨fun hst => ?_, fun hst => ?_⟩ <;> rw [rendererStep, hst] at h
  · obtain ⟨-, hle⟩ := hnext hst
    rcases fNext_cases h with ⟨-, rfl⟩ | ⟨-, -, -, rfl⟩ | ⟨-, -, -, rfl⟩ | ⟨hge, hm, rfl⟩
    · cases ht
    · exact absurd (hst.symm.trans ht) nofun
    · cases ht
    · have hline : s.line.toNat = 192 := by
        rw [hle.antisymm hge, hnl, hm]
        rfl
      exact (hnextMarks (.inl hst)).trans (by rw [hline])
  · obtain ⟨hm, heq⟩ := htext hst
    rcases fText_cases h with ⟨-, rfl⟩ | ⟨-, rfl⟩
    · have hline : s.line.toNat = 160 := by
        rw [heq, hnl, hm]
        rfl
      rw [frameMarks_append, htextMarks hst, hline, List.append_assoc]
      rfl
    · exact absurd (hst.symm.trans ht) nofun

end Sys2Proof.Machine
end

section
/-! PROOFS. The number of steps of a path (44_scanline_producer.md R214, R215). -/

namespace Sys2Proof.Machine

section
variable {s t : State}

/-- A step of the color path brings the submit one step nearer. -/
theorem color_step_nearer (hI : Inv s)
    (hst : s.st ∈ [St.cSeed, .cFetch, .cBleed, .cMerge, .cEmit, .cShift]) (h : rendererStep s = .next t) :
    stepsToSubmit s = stepsToSubmit t + 1 ∧ 1 ≤ stepsToSubmit t := by
  have hp := hI.pathRegs
  simp only [List.mem_cons, List.not_mem_nil, or_false] at hst
  rcases hst with hst | hst | hst | hst | hst | hst <;> simp only [PathRegs, hst] at hp
  · obtain rfl := cSeed_step hst h
    simp [stepsToSubmit, hst]
  · obtain ⟨⟨-, -, -, hi, -⟩, -⟩ := hp
    rcases cFetch_step hI hst h with ⟨h0, v, -, rfl⟩ | ⟨hpos, h40, v, -, rfl⟩ | ⟨h40, rfl⟩
    · simp [stepsToSubmit, hst, h0]
    · have hne : s.i ≠ 0 := fun e => absurd (e ▸ hpos) (by decide)
      constructor <;> simp only [stepsToSubmit, hst, if_neg hne]
      omega
    · simp [stepsToSubmit, hst, h40]
  · obtain ⟨⟨-, -, hpos, hi, -⟩, -⟩ := hp
    obtain rfl := cBleed_step hst h
    constructor <;> simp only [stepsToSubmit, hst] <;> omega
  · obtain ⟨⟨-, hk, hpos, hi, -⟩, -⟩ := hp
    obtain rfl := cMerge_step hst h
    simp [stepsToSubmit, hst, hk]
  · obtain ⟨l, -, rfl⟩ := cEmit_step hI hst h
    obtain ⟨-, hk, -⟩ := hp
    constructor <;> simp only [stepsToSubmit, hst]
    omega
  · obtain ⟨-, hk, hpos, hi, -⟩ := hp
    have hbyte := toNat_nextByte hi
    rcases cShift_step hI hst h with ⟨h6, rfl⟩ | ⟨h6, h40, rfl⟩ | ⟨h6, h40, rfl⟩
    · have hgroup := toNat_nextGroup h6
      constructor <;> simp only [stepsToSubmit, hst, hgroup] <;> omega
    · have hne : s.i + 1 ≠ 0 := fun e => absurd hbyte (by rw [e]; simp)
      constructor <;> simp only [stepsToSubmit, hst, h6, hbyte, if_neg hne, BitVec.reduceToNat] <;> omega
    · simp [stepsToSubmit, hst, h6, h40]

/-- A step of the mono path brings the submit one step nearer. -/
theorem mono_step_nearer (hI : Inv s)
    (hst : s.st ∈ [St.mFetch, .mInject, .mMerge, .mEmit, .mDrain]) (h : rendererStep s = .next t) :
    stepsToSubmit s = stepsToSubmit t + 1 ∧ 1 ≤ stepsToSubmit t := by
  have hp := hI.pathRegs
  simp only [List.mem_cons, List.not_mem_nil, or_false] at hst
  rcases hst with hst | hst | hst | hst | hst <;> simp only [PathRegs, hst] at hp
  · obtain ⟨⟨-, hi, -⟩, -⟩ := hp
    obtain ⟨v, -, rfl⟩ := mFetch_step hI hst h
    constructor <;> simp only [stepsToSubmit, hst]
    omega
  · obtain ⟨⟨-, hi, -⟩, -⟩ := hp
    obtain rfl := mInject_step hst h
    constructor <;> simp only [stepsToSubmit, hst] <;> omega
  · obtain ⟨⟨-, hi, -⟩, -⟩ := hp
    have hbyte := toNat_nextByte hi.le
    obtain rfl := mMerge_step hI hst h
    split_ifs <;> constructor <;> simp only [stepsToSubmit, hst, hbyte] <;> omega
  · have hnext := toNat_nextPosition hp.position_lt
    have hj := hp.position_lt
    obtain ⟨l, -, rfl⟩ := mEmit_step hI hst h
    constructor <;> simp only [stepsToSubmit, hst, hnext] <;> omega
  · have hj : s.dotc = 2 → s.i = 40 → s.j.toNat = 280 := by
      obtain ⟨-, -, -, -, hpair, -⟩ := hp
      intro h2 h40
      rw [h2, h40] at hpair
      simp at hpair
      omega
    rcases mDrain_step hI hst h with ⟨h4, rfl⟩ | ⟨h2, h40, rfl⟩ | ⟨h2, h40, rfl⟩
    · constructor <;> simp only [stepsToSubmit, hst]
      omega
    · constructor <;> simp only [stepsToSubmit, hst]
      omega
    · simp [stepsToSubmit, hst, h40, hj h2 h40]

/-- Settles O60: the count of a state is 1 more than that of the next, on the color path and on the mono path, and the
submit is the last step. -/
theorem everyPathStepComesNearerToTheSubmit : Obligations.EveryPathStepComesNearerToTheSubmit := by
  refine ⟨fun s t hst h => ?_, fun s t hI hst hmode h => ?_⟩
  · obtain rfl := lMode_step hst h
    change _ = if s.modeMono = true then 681 else 683
    cases s.modeMono <;> rfl
  · by_cases hsub : s.st = .lSubmit
    · obtain ⟨l, -, rfl⟩ := lSubmit_step hI hsub h
      cases hret : s.ret <;> simp [stepsToSubmit, hsub]
    · have hne := ne_of_holding (y := .fault) (path_step_pathRegs hI hst hsub h).1 rfl
      have hnear : stepsToSubmit s = stepsToSubmit t + 1 ∧ 1 ≤ stepsToSubmit t := by
        cases hx : s.st with
        | cSeed | cFetch | cBleed | cMerge | cEmit | cShift => exact color_step_nearer hI (by rw [hx]; decide) h
        | mFetch | mInject | mMerge | mEmit | mDrain => exact mono_step_nearer hI (by rw [hx]; decide) h
        | lMode => exact absurd hx hmode
        | lSubmit => exact absurd hx hsub
        | _ => rw [hx] at hst; cases hst
      exact ⟨hnear.1, hne, fun e => absurd e hsub, fun e => absurd e (by omega)⟩

end

end Sys2Proof.Machine
end

section
/-! PROOFS. Runs from power-on (70_reset_and_hazards.md): the invariant holds at every state reached, so no defect fault
is raised (60_exceptions.md R282) and one buffer is held exactly during a line (R327). -/

namespace Sys2Proof.Machine

/-! ## Power-on -/

/-- A symbol cut to the width fits it. -/
theorem cutTriple_fits (bits : Nat) (t : Triple) : (cutTriple bits t).fits bits = true := by
  have hpos : 0 < 2 ^ bits := Nat.two_pow_pos bits
  simp [Triple.fits, cutTriple, Nat.mod_lt _ hpos]

/-- The configuration of `State.reset` is legal, whatever its open parameters are. -/
theorem defaultConfig_wf : defaultConfig.wf = true := by
  simp [Config.wf, defaultConfig, cutTriple_fits]

theorem inv_powerOn {c : Config} {bitmap : Memory} (mode : BitVec 4) (agents : List Agent) (hc : c.wf = true)
    (hb : bitmap.wf = true) : Inv (powerOn c mode bitmap agents) :=
  inv_afterReset hc hb (buffersAny_length _ _ _) mode [] agents 0

/-- Settles O48: the registers are those of a reset (`inv_afterReset`), and in `IDLE` no line and no frame is under
way. -/
theorem resetMeetsTheInvariants : Obligations.ResetMeetsTheInvariants := by
  refine ⟨fun c mode bitmap agents hc hb => ?_, ?_⟩
  · exact ⟨inv_powerOn mode agents hc hb, trivial, frameSoFar_of_free nofun nofun nofun nofun, nofun, nofun⟩
  · exact inv_afterReset defaultConfig_wf rfl (buffersAny_length _ _ _) 0 [] [] 0

/-- Every state reached from power-on meets the invariant. -/
theorem inv_of_run {c : Config} {mode : BitVec 4} {bitmap : Memory} {agents : List Agent} {n : Nat} {t : State}
    (hc : c.wf = true) (hb : bitmap.wf = true) (h : runSteps n (powerOn c mode bitmap agents) = .next t) : Inv t :=
  runSteps_keeps everyStepKeepsTheInvariant (inv_powerOn mode agents hc hb) h

/-! ## Faults (60_exceptions.md R282) -/

/-- A fault in an invariant state comes from `IDLE`: the fault entry records the state's code, and the invariant of the
next state says that it is 0. -/
theorem idle_of_fault {s t : State} (hI : Inv s) (hst : s.st ≠ .fault) (h : rendererStep s = .next t)
    (ht : t.st = .fault) : s.st = .idle := by
  by_contra hne
  obtain ⟨c, -, hfault⟩ := faultsArePrecise.2 s t hst h ht
  have hregs := (rendererStep_keeps_inv hI h).faultRegs
  rw [FaultRegs, if_pos ht] at hregs
  have hfst : t.fst = s.st.code := by rw [hfault hne]
  exact hne (code_injective (hfst.symm.trans hregs.2.2))

/-- DECODE ends in `FAULT` exactly when it refuses its word. -/
theorem idle_faults_iff {s t : State} (hst : s.st = .idle) (h : rendererStep s = .next t) :
    t.st = .fault ↔ s.cmdValid = true ∧ ∃ c, decodeCmd s.cmd = .error c := by
  rw [rendererStep, hst] at h
  constructor
  · intro ht
    rcases idleDecode_cases h with ⟨-, rfl⟩ | ⟨hv, ⟨c, hc, -⟩ | ⟨-, rfl⟩ | ⟨-, rfl⟩ | ⟨n, -, -, rfl⟩ | ⟨n, -, -, rfl⟩ |
      ⟨-, rfl⟩⟩
    · exact absurd (hst.symm.trans ht) nofun
    · exact ⟨hv, c, hc⟩
    all_goals cases ht
  · rintro ⟨hv, c, hc⟩
    cases (idleDecode_of_error hv hc).symm.trans h
    rfl

/-- Settles O36: the invariant of a reached state leaves only the command faults (`FaultRegs`), and a step takes one
exactly in `IDLE` with a refused word. -/
theorem noDefectFaultIsEverRaised : Obligations.NoDefectFaultIsEverRaised := by
  intro c mode bitmap agents n t hc hb h
  have hI := inv_of_run hc hb h
  refine ⟨?_, fun u hne hu => ⟨fun hf => ?_, fun ⟨hst, hrefused⟩ => (idle_faults_iff hst hu).mpr hrefused⟩⟩
  · by_cases hst : t.st = .fault
    · have hregs := hI.faultRegs
      rw [FaultRegs, if_pos hst] at hregs
      exact .inr hregs.2.1
    · exact .inl (hI.no_fault hst).2.1
  · have hst := idle_of_fault hI hne hu hf
    exact ⟨hst, (idle_faults_iff hst hu).mp hf⟩

/-! ## Ownership (70_reset_and_hazards.md R327) -/

/-- Settles O50: the three items are the two cases of `OwnRegs`, where `FAULT` holds no buffer. -/
theorem oneBufferIsHeldExactlyDuringALine : Obligations.OneBufferIsHeldExactlyDuringALine := by
  intro c mode bitmap agents n t hc hb h
  have hI := inv_of_run hc hb h
  refine ⟨fun hst => ?_, fun hst _ => hI.none_held hst, fun hst b b' hheld => ?_⟩
  · have hown := hI.ownRegs
    rwa [OwnRegs, if_pos hst] at hown
  · exact absurd hheld (hI.none_held (by rw [hst]; rfl) b)

end Sys2Proof.Machine
end

section
/-! PROOFS. The reads of a line (20_memory.md R63, R64, R78): once each and in order, and current while no writer step
writes a byte. -/

namespace Sys2Proof.Machine

/-- The micro-operations of the states that hold a buffer. -/
def heldUops : List Instr :=
  [.lMode, .cSeed, .cFetch, .cBleed, .cMerge, .cEmit, .cShift, .mFetch, .mInject, .mMerge, .mEmit, .mDrain, .lSubmit]

theorem holding_eq_mem (x : St) : holding x = decide (x.uop ∈ heldUops) := by
  cases x <;> decide

section
variable {s t : State}

/-- A renderer step to a state that holds a buffer starts a line without reads, keeps the line's reads, or adds the
byte of a fetch. -/
theorem rendererStep_reads (h : rendererStep s = .next t) (ht : holding t.st = true) :
    (t.st = .lMode ∧ lineReadEvents t.history = []) ∨
    (holding s.st = true ∧ t.psel = s.psel ∧ t.ofs = s.ofs ∧
      (lineReadEvents t.history = lineReadEvents s.history ∨
       (s.st = .cFetch ∨ s.st = .mFetch) ∧ lineReadEvents t.history = lineReadEvents s.history ++
        [(s.psel, s.ofs.toNat + s.i.toNat, s.bitmap.read (cellAddr s.psel (s.ofs.toNat + s.i.toNat)))])) := by
  have he := rendererStep_ending h
  have hs := holding_eq_mem s.st
  generalize hi : s.st.uop = i at he hs
  cases he with
  | hold => exact .inr ⟨ht, rfl, rfl, .inl rfl⟩
  | command c => cases c <;> cases ht
  | lAcq => exact .inl ⟨rfl, lineReadEvents_append _ _⟩
  | cRead v _ _ hv =>
    subst hv
    exact .inr ⟨hs, rfl, rfl, .inr ⟨.inl (uop_injective hi), lineReadEvents_append _ _⟩⟩
  | mRead v _ _ hv =>
    subst hv
    exact .inr ⟨hs, rfl, rfl, .inr ⟨.inr (uop_injective hi), lineReadEvents_append _ _⟩⟩
  | lSubmit => exact .inr ⟨hs, rfl, rfl, .inl (lineReadEvents_append _ _)⟩
  | lMode | cSeed | cSynthetic | cBleed | cMerge | cEmit | cShift | mSynthetic | mInject | mMerge | mEmit | mDrain =>
    exact .inr ⟨hs, rfl, rfl, .inl rfl⟩
  | _ => cases ht

/-- A fetching state has read as many bytes as `I` says. -/
theorem length_of_fetch (hL : LineData s) (hst : s.st = .cFetch ∨ s.st = .mFetch) :
    (lineReadEvents s.history).length = s.i.toNat := by
  rw [← lineReads_length]
  rcases hst with hst | hst <;> simp only [LineData, hst] at hL <;> exact hL.1

theorem rendererStep_keeps_order (hL : LineData s) (hR : ReadsInOrder s) (h : rendererStep s = .next t) :
    ReadsInOrder t := by
  intro ht
  rcases rendererStep_reads h ht with ⟨-, hnone⟩ | ⟨hs, hpsel, hofs, hsame | ⟨hst, hread⟩⟩
  · rw [hnone]
    rfl
  · rw [hsame, hpsel, hofs]
    exact hR hs
  · rw [hread, hpsel, hofs, List.length_append, List.length_singleton, List.range_succ, List.map_append,
      List.map_append, hR hs, List.map_singleton, List.map_singleton, length_of_fetch hL hst]

theorem rendererStep_keeps_current (hR : ReadsAreCurrent s) (h : rendererStep s = .next t) : ReadsAreCurrent t := by
  obtain ⟨-, -, hbitmap, -⟩ := noInstructionWritesTheEnvironment _ s t h
  intro ht r hr
  rw [hbitmap]
  rcases rendererStep_reads h ht with ⟨-, hnone⟩ | ⟨hs, -, -, hsame | ⟨-, hread⟩⟩
  · rw [hnone] at hr
    cases hr
  · exact hR hs r (hsame ▸ hr)
  · rw [hread, List.mem_append, List.mem_singleton] at hr
    rcases hr with hr | rfl
    · exact hR hs r hr
    · rfl

end

/-- Settles O52: the renderer adds the next byte of the page to the line's reads, as it stands in the bitmap, and only
a writer step changes a byte. -/
theorem aLineReadsItsBytesOnceAndInOrder : Obligations.ALineReadsItsBytesOnceAndInOrder := by
  refine ⟨fun s t _ hL hR h => ?_, fun s t hR hw h => ?_⟩
  · rcases step_cases h with ⟨-, hr⟩ | ⟨a, rest, -, ha⟩
    · exact rendererStep_keeps_order hL hR hr
    · rcases agentStep_cases ha with ⟨-, hr⟩ | ⟨w, -, -, rfl⟩ | ⟨-, -, rfl⟩ | ⟨p, x, v, -, rfl⟩ | ⟨m, -, rfl⟩ |
        ⟨b, -, -, rfl⟩ | ⟨b, -, -, rfl⟩ | ⟨v, -, -, rfl⟩ | ⟨-, rfl⟩
      · exact rendererStep_keeps_order (s := { s with schedule := rest }) hL hR hr
      on_goal 8 => exact nofun
      all_goals exact hR
  · rcases step_cases h with ⟨-, hr⟩ | ⟨a, rest, hs, ha⟩
    · exact rendererStep_keeps_current hR hr
    · rcases agentStep_cases ha with ⟨-, hr⟩ | ⟨w, -, -, rfl⟩ | ⟨-, -, rfl⟩ | ⟨p, x, v, rfl, -⟩ | ⟨m, -, rfl⟩ |
        ⟨b, -, -, rfl⟩ | ⟨b, -, -, rfl⟩ | ⟨v, -, -, rfl⟩ | ⟨-, rfl⟩
      · exact rendererStep_keeps_current (s := { s with schedule := rest }) hR hr
      on_goal 3 => exact absurd hs (hw p x v rest)
      on_goal 7 => exact nofun
      all_goals exact hR

end Sys2Proof.Machine
end

section
/-! PROOFS. The data of a line (42_dot_window_decoder.md R152, R157, R158, R162): each step of a path moves the part of
the dot stream that the window or the accumulator holds, and an emit writes the output of its position. -/

namespace Sys2Proof.Machine

section
variable {s t : State}

/-! ## The held buffer -/

/-- One more byte read does not change the outputs written so far. -/
theorem written_read {v : Byte} {e : Event} {b : Byte} {x : St} (hW : Written s)
    (hreads : lineReads (s.history ++ [e]) = lineReads s.history ++ [v])
    (hdots : ∀ n < s.j.toNat, 2 * n + 4 < 14 * (lineReads s.history).length ∨
      s.monoL = true ∧ 2 * n + 1 < 14 * (lineReads s.history).length) :
    Written { s with byte := b, history := s.history ++ [e], st := x } := by
  intro l hl n hn
  change l.tripleAt n = lineTriple s.cfg s.monoL (lineReads (s.history ++ [e])) n
  rw [hreads, lineTriple_append v (hdots n hn)]
  exact hW l hl n hn

/-- An emit of the output of position `J` writes one more output. -/
theorem written_emit {l : LineBuf} {tr : Triple} {x : St} (hW : Written s) (hb : s.buf[s.bufid]? = some l)
    (hj : s.j.toNat < 280) (htr : tr = lineTriple s.cfg s.monoL (lineReads s.history) s.j.toNat) :
    Written { s with buf := s.buf.set s.bufid (l.put s.j.toNat tr), j := s.j + 1, st := x } := by
  intro l' hl' n hn
  change (s.buf.set s.bufid (l.put s.j.toNat tr))[s.bufid]? = some l' at hl'
  change n < (s.j + 1).toNat at hn
  rw [List.getElem?_set_self (List.getElem?_eq_some_iff.mp hb).1] at hl'
  obtain rfl := Option.some.inj hl'
  rw [toNat_nextPosition hj] at hn
  change _ = lineTriple s.cfg s.monoL (lineReads s.history) n
  rw [LineBuf.tripleAt_put l _ n tr hj]
  split_ifs with he
  · rw [he]
    exact htr
  · exact hW l hb n (by omega)

/-- The latched byte is byte `I` of the line, the synthetic one included. -/
theorem Fetched.byte_eq (h : Fetched s) : s.byte = byteAt (lineReads s.history) s.i.toNat := by
  unfold Fetched at h
  split_ifs at h with h40
  · rw [h.2, h40]
    exact (byteAt_past h.1.le).symm
  · exact h.2

/-- The latched byte of a position before the synthetic one is the last byte read. -/
theorem Fetched.length_eq (h : Fetched s) (hi : s.i.toNat < 40) : (lineReads s.history).length = s.i.toNat + 1 := by
  have hne : s.i ≠ 40 := fun e => absurd (e ▸ hi) (by decide)
  rw [Fetched, if_neg hne] at h
  exact h.1

/-- A byte that was just read is latched. -/
theorem fetched_read {p : BitVec 1} {a : Nat} {v : Byte} {x : St} (hlen : (lineReads s.history).length = s.i.toNat)
    (hi : s.i.toNat < 40) : Fetched { s with byte := v, history := s.history ++ [.read p a v], st := x } := by
  have hne : s.i ≠ 40 := fun e => absurd (e ▸ hi) (by decide)
  rw [Fetched, if_neg hne]
  simp only [lineReads_append, List.length_append, List.length_singleton, hlen, true_and]
  rw [← hlen, byteAt_append_length]

/-! ## The color path -/

theorem cFetch_lineData (hI : Inv s) (hL : LineData s) (hst : s.st = .cFetch) (h : rendererStep s = .next t) :
    LineData t := by
  have hp := hI.pathRegs
  simp only [PathRegs, hst] at hp
  simp only [LineData, hst] at hL
  obtain ⟨⟨hmono, -, -, hi, hj, -⟩, -⟩ := hp
  obtain ⟨hlen, hW, hwin⟩ := hL
  have hdots : ∀ n < s.j.toNat, 2 * n + 4 < 14 * (lineReads s.history).length ∨
      s.monoL = true ∧ 2 * n + 1 < 14 * (lineReads s.history).length := fun n hn => .inl (by omega)
  rcases cFetch_step hI hst h with ⟨h0, v, -, rfl⟩ | ⟨hpos, h40, v, -, rfl⟩ | ⟨h40, rfl⟩
  · have hnil : lineReads s.history = [] := List.length_eq_zero_iff.mp (by rw [hlen, h0]; rfl)
    refine ⟨?_, ?_, written_read hW (lineReads_append _ _) hdots⟩ <;> simp [hnil, byteAt]
  · have hne : s.i ≠ 0 := fun e => absurd (e ▸ hpos) (by decide)
    refine ⟨fetched_read hlen h40, written_read hW (lineReads_append _ _) hdots, ?_⟩
    change colorHolds _ (lineReads (_ ++ [_])) _ _ _
    rw [lineReads_append]
    exact colorHolds_append v (hwin hne) (by rw [hlen])
  · have hne : s.i ≠ 0 := by rw [h40]; decide
    refine ⟨?_, hW, hwin hne⟩
    rw [Fetched, if_pos h40]
    exact ⟨hlen.trans (by rw [h40]; rfl), rfl⟩

theorem cSeed_lineData (hI : Inv s) (hL : LineData s) (hst : s.st = .cSeed) (h : rendererStep s = .next t) :
    LineData t := by
  have hp := hI.pathRegs
  simp only [PathRegs, hst] at hp
  simp only [LineData, hst] at hL
  obtain ⟨⟨-, -, -, -, hj, -⟩, hi⟩ := hp
  obtain ⟨hlen, hbyte, hW⟩ := hL
  have hj0 : s.j.toNat = 0 := by rw [hj, hi]; rfl
  obtain rfl := cSeed_step hst h
  refine ⟨hlen, hW, fun _ => ?_⟩
  simp only [ColorWindow, hj0, hbyte]
  exact colorHolds_seed

theorem cBleed_lineData (hI : Inv s) (hL : LineData s) (hst : s.st = .cBleed) (h : rendererStep s = .next t) :
    LineData t := by
  have hp := hI.pathRegs
  simp only [PathRegs, hst] at hp
  simp only [LineData, hst] at hL
  obtain ⟨⟨-, -, hpos, hi, hj, -⟩, -⟩ := hp
  obtain ⟨hF, hW, hwin⟩ := hL
  have hstart : 2 * s.j.toNat = 14 * (s.i.toNat - 1) := by omega
  obtain ⟨h14, hrest, -⟩ := bleedWindow_bits hpos hi s.byte (hstart ▸ hwin)
  obtain rfl := cBleed_step hst h
  refine ⟨hF, hW, ?_, fun m hm hne => ?_⟩
  · exact h14.trans (by rw [hrest 15 (by decide) (by decide)])
  · exact (hrest m hm hne).trans (hwin m hm)

theorem cMerge_lineData (hI : Inv s) (hL : LineData s) (hst : s.st = .cMerge) (h : rendererStep s = .next t) :
    LineData t := by
  have hp := hI.pathRegs
  simp only [PathRegs, hst] at hp
  simp only [LineData, hst] at hL
  obtain ⟨⟨-, -, hpos, hi, hj, -⟩, -⟩ := hp
  obtain ⟨hF, hW, h14, hrest⟩ := hL
  have hstart : 2 * s.j.toNat = 14 * (s.i.toNat - 1) := by omega
  rw [hstart] at hrest
  have h15 : s.w.getLsbD 15 = (dotpatC s.cfg (byteAt (lineReads s.history) (s.i.toNat - 1))).getLsbD 0 := by
    have e : ((14 * (s.i.toNat - 1) : Nat) : Int) + 28 - ((15 : Nat) : Int) =
        ((14 * (s.i.toNat - 1) + 13 : Nat) : Int) := by omega
    have hlt : ((14 * (s.i.toNat - 1) + 13 : Nat) : Int) < ((14 * s.i.toNat : Nat) : Int) := by omega
    rw [hrest 15 (by decide) (by decide), e, decide_eq_true hlt, Bool.true_and, colorDot_byte (by omega) (by decide),
      getLsbD_colorPattern (by decide)]
    simp
  rw [h15, hF.byte_eq] at h14
  have hmerge := colorHolds_merge hpos hi h14 hrest
  rw [← hstart, ← hF.byte_eq] at hmerge
  obtain rfl := cMerge_step hst h
  exact ⟨hF, hW, hmerge⟩

theorem cEmit_lineData (hI : Inv s) (hL : LineData s) (hst : s.st = .cEmit) (h : rendererStep s = .next t) :
    LineData t := by
  have hp := hI.pathRegs
  simp only [PathRegs, hst] at hp
  simp only [LineData, hst] at hL
  have hlt := hp.position_lt
  have hnext := toNat_nextPosition hlt
  obtain ⟨hmono, hk, hpos, hi, hj, hodd, -⟩ := hp
  obtain ⟨hF, hW, hwin⟩ := hL
  obtain ⟨l, hb, rfl⟩ := cEmit_step hI hst h
  refine ⟨hF, written_emit hW hb hlt ?_, ?_⟩
  · rw [hmono]
    exact clut_cidx hwin (by omega) hodd
  · simpa only [ColorWindow, hnext, Nat.add_sub_cancel] using hwin

theorem cShift_lineData (hI : Inv s) (hL : LineData s) (hst : s.st = .cShift) (h : rendererStep s = .next t) :
    LineData t := by
  have hp := hI.pathRegs
  simp only [PathRegs, hst] at hp
  simp only [LineData, hst] at hL
  obtain ⟨hmono, hk, hpos, hi, hj, -⟩ := hp
  obtain ⟨hF, hW, hwin⟩ := hL
  have hshift := colorHolds_shift hwin (by omega)
  have hstart : 2 * (s.j.toNat - 1) + 2 = 2 * s.j.toNat := by omega
  rw [hstart] at hshift
  rcases cShift_step hI hst h with ⟨h6, rfl⟩ | ⟨h6, h40, rfl⟩ | ⟨h6, h40, rfl⟩
  · exact ⟨hF, hW, hshift⟩
  · have hbyte := toNat_nextByte hi
    refine ⟨?_, hW, fun _ => ?_⟩
    · exact (hF.length_eq h40).trans hbyte.symm
    · simpa only [ColorWindow, hbyte] using hshift
  · rw [Fetched, if_pos h40] at hF
    exact ⟨hF.1, hW⟩

/-! ## The mono path -/

theorem mFetch_lineData (hI : Inv s) (hL : LineData s) (hst : s.st = .mFetch) (h : rendererStep s = .next t) :
    LineData t := by
  have hp := hI.pathRegs
  simp only [PathRegs, hst] at hp
  simp only [LineData, hst] at hL
  obtain ⟨⟨hmono, hi, hj, -⟩, -⟩ := hp
  obtain ⟨hlen, hW, hwin, hlast⟩ := hL
  obtain ⟨v, -, rfl⟩ := mFetch_step hI hst h
  refine ⟨fetched_read hlen hi, written_read hW (lineReads_append _ _) fun n hn => .inr ⟨hmono, by omega⟩,
    fun m hm => ?_, fun hd hpos => ?_⟩
  · change m < s.dotc.toNat at hm
    change s.w.getLsbD m = monoDot s.cfg (lineReads (_ ++ [_])) _
    rw [lineReads_append, monoDot_append v (by dsimp only; omega)]
    exact hwin m hm
  · change s.dotc = 0 at hd
    change 0 < s.j.toNat at hpos
    change s.lastdot = monoDot s.cfg (lineReads (_ ++ [_])) _
    rw [hd] at hj
    rw [lineReads_append, monoDot_append v (by dsimp only; simp at hj; omega)]
    exact hlast hd hpos

theorem mInject_lineData (hI : Inv s) (hL : LineData s) (hst : s.st = .mInject) (h : rendererStep s = .next t) :
    LineData t := by
  have hp := hI.pathRegs
  simp only [PathRegs, hst] at hp
  simp only [LineData, hst] at hL
  obtain ⟨⟨-, hi, hj, hd⟩, hw⟩ := hp
  obtain ⟨hF, hW, hwin, hlast⟩ := hL
  have hstart : 14 * s.i.toNat - s.dotc.toNat = 2 * s.j.toNat := by omega
  have hlast' : s.dotc.toNat = 0 → 0 < s.i.toNat →
      s.lastdot = monoDot s.cfg (lineReads s.history) (14 * s.i.toNat - 1) := by
    intro h0 hpos
    have e : 14 * s.i.toNat - 1 = 2 * s.j.toNat - 1 := by omega
    rw [e]
    exact hlast (BitVec.eq_of_toNat_eq h0) (by omega)
  obtain ⟨hbelow, -, hbit⟩ := injectWindow_bits (b := s.byte) (Config.wf_bounds hI.cfgWf).2 hd hw (hstart ▸ hwin) hlast'
  obtain rfl := mInject_step hst h
  exact ⟨hF, hW, fun m hm => (hbelow m hm).trans (hwin m hm), hbit⟩

theorem mMerge_lineData (hI : Inv s) (hL : LineData s) (hst : s.st = .mMerge) (h : rendererStep s = .next t) :
    LineData t := by
  have hp := hI.pathRegs
  simp only [PathRegs, hst] at hp
  simp only [LineData, hst] at hL
  obtain ⟨⟨-, hi, hj, hd⟩, hw⟩ := hp
  obtain ⟨hF, hW, hwin, hbit⟩ := hL
  have hd14 : s.dotc.toNat ≤ 14 := by split_ifs at hd <;> omega
  have hdotc := toNat_mergedDots (dotc := s.dotc) (by omega)
  have hstart : 14 * s.i.toNat - s.dotc.toNat = 2 * s.j.toNat := by omega
  have hlen := (hF.length_eq hi).trans (toNat_nextByte hi.le).symm
  rw [hF.byte_eq] at hbit
  obtain ⟨hmerge, -⟩ := monoHolds_merge hd14 (by omega) (fun m hm _ => getLsbD_of_toNat_lt hw (by omega))
    (hstart.symm ▸ hwin) hbit
  rw [hstart, ← hF.byte_eq, ← hdotc] at hmerge
  obtain rfl := mMerge_step hI hst h
  split_ifs
  · refine ⟨hlen, hW, hmerge, fun h0 => absurd (congrArg BitVec.toNat h0) ?_⟩
    change (s.dotc + 14).toNat ≠ 0
    omega
  · exact ⟨hlen, hW, hmerge⟩

theorem mEmit_lineData (hI : Inv s) (hL : LineData s) (hst : s.st = .mEmit) (h : rendererStep s = .next t) :
    LineData t := by
  have hp := hI.pathRegs
  simp only [PathRegs, hst] at hp
  simp only [LineData, hst] at hL
  have hlt := hp.position_lt
  have hnext := toNat_nextPosition hlt
  obtain ⟨hmono, -, -, -, -, -, hd, -⟩ := hp
  obtain ⟨hlen, hW, hwin⟩ := hL
  obtain ⟨l, hb, rfl⟩ := mEmit_step hI hst h
  refine ⟨hlen, written_emit hW hb hlt ?_, ?_⟩
  · rw [hmono]
    exact mlut_midx hwin hd
  · simpa only [MonoWindow, hnext, Nat.add_sub_cancel] using hwin

/-- A drained accumulator holds the stream from the next position on. -/
theorem monoHolds_drain {c : Config} {bytes : List Byte} {w : BitVec 32} {p d : Nat} (h : monoHolds c bytes w p d) :
    monoHolds c bytes (w >>> 2) (p + 2) (d - 2) := by
  intro m hm
  rw [BitVec.getLsbD_ushiftRight, h (2 + m) (by omega), Nat.add_assoc]

theorem mDrain_lineData (hI : Inv s) (hL : LineData s) (hst : s.st = .mDrain) (h : rendererStep s = .next t) :
    LineData t := by
  have hp := hI.pathRegs
  simp only [PathRegs, hst] at hp
  simp only [LineData, hst] at hL
  obtain ⟨-, -, -, -, -, hdone, hd, -⟩ := hp
  obtain ⟨hlen, hW, hwin⟩ := hL
  have hdrain := monoHolds_drain hwin
  have hstart : 2 * (s.j.toNat - 1) + 2 = 2 * s.j.toNat := by omega
  rw [hstart] at hdrain
  rcases mDrain_step hI hst h with ⟨h4, rfl⟩ | ⟨h2, h40, rfl⟩ | ⟨h2, h40, rfl⟩
  · refine ⟨hlen, hW, ?_⟩
    simpa only [MonoWindow, toNat_drainedDots hd] using hdrain
  · refine ⟨hlen, hW, fun m hm => absurd hm (Nat.not_lt_zero m), fun _ _ => ?_⟩
    have e : 2 * (s.j.toNat - 1) + 1 = 2 * s.j.toNat - 1 := by omega
    exact (hwin 1 (by omega)).trans (by rw [e])
  · exact ⟨hlen.trans (by rw [h40]; rfl), hW⟩

/-! ## Every step -/

/-- Outside the states that hold a buffer there is nothing to hold. -/
theorem lineData_of_not_holding (h : holding s.st = false) : LineData s := by
  cases hx : s.st <;> rw [hx] at h <;> simp only [LineData, hx] <;> cases h

/-- A line starts with nothing read and nothing written. -/
theorem lMode_lineData (hL : LineData s) (hst : s.st = .lMode) (h : rendererStep s = .next t) : LineData t := by
  simp only [LineData, hst] at hL
  obtain rfl := lMode_step hst h
  have hlen : (lineReads s.history).length = 0 := by rw [hL]; rfl
  cases hm : s.modeMono with
  | true => exact ⟨hlen, fun _ _ n hn => absurd hn (Nat.not_lt_zero n), fun m hm => absurd hm (Nat.not_lt_zero m),
      fun _ hpos => absurd hpos (Nat.not_lt_zero _)⟩
  | false => exact ⟨hlen, fun _ _ n hn => absurd hn (Nat.not_lt_zero n), fun h0 => absurd rfl h0⟩

/-- Every renderer step keeps the data of a line. -/
theorem rendererStep_keeps_lineData (hI : Inv s) (hL : LineData s) (h : rendererStep s = .next t) : LineData t := by
  cases hx : s.st with
  | lMode => exact lMode_lineData hL hx h
  | cSeed => exact cSeed_lineData hI hL hx h
  | cFetch => exact cFetch_lineData hI hL hx h
  | cBleed => exact cBleed_lineData hI hL hx h
  | cMerge => exact cMerge_lineData hI hL hx h
  | cEmit => exact cEmit_lineData hI hL hx h
  | cShift => exact cShift_lineData hI hL hx h
  | mFetch => exact mFetch_lineData hI hL hx h
  | mInject => exact mInject_lineData hI hL hx h
  | mMerge => exact mMerge_lineData hI hL hx h
  | mEmit => exact mEmit_lineData hI hL hx h
  | mDrain => exact mDrain_lineData hI hL hx h
  | lSubmit =>
    obtain ⟨l, -, rfl⟩ := lSubmit_step hI hx h
    cases s.ret <;> exact lineData_of_not_holding rfl
  | _ =>
    cases ht : holding t.st with
    | false => exact lineData_of_not_holding ht
    | true =>
      rcases rendererStep_reads h ht with ⟨hmode, hnone⟩ | ⟨hs, -⟩
      · simp only [LineData, hmode, lineReads, hnone, List.map_nil]
      · rw [hx] at hs
        cases hs

end

/-- Settles O51: the renderer moves the data along the path (`rendererStep_keeps_lineData`), a reset ends the line, and
no other agent writes what the data is of. -/
theorem everyStepKeepsTheLineData : Obligations.EveryStepKeepsTheLineData := by
  intro s t hI hL h
  rcases step_cases h with ⟨-, hr⟩ | ⟨a, rest, -, ha⟩
  · exact rendererStep_keeps_lineData hI hL hr
  · rcases agentStep_cases ha with ⟨-, hr⟩ | ⟨w, -, -, rfl⟩ | ⟨-, -, rfl⟩ | ⟨p, x, v, -, rfl⟩ | ⟨m, -, rfl⟩ |
      ⟨b, -, -, rfl⟩ | ⟨b, -, -, rfl⟩ | ⟨v, -, -, rfl⟩ | ⟨-, rfl⟩
    · exact rendererStep_keeps_lineData (hI.environment s.cmd s.cmdValid s.mode s.txtAck rest) hL hr
    on_goal 8 => exact lineData_of_not_holding rfl
    all_goals exact hL

end Sys2Proof.Machine
end

section
/-! PROOFS. The reference lines (44_scanline_producer.md R217 to R221): each loop gives the closed form of its dot
stream, and a submit carries the reference line of the bytes read. -/

namespace Sys2Proof.Machine

variable {c : Config} {bytes : List Byte}

/-! ## The color line (R217) -/

/-- A run of `RenderColorLine` that has put out `pos` triples: its window holds the stream from the next group on, as
far as `limit`. -/
structure ColorRunAt (c : Config) (bytes : List Byte) (r : ColorRun) (pos limit : Nat) : Prop where
  window : colorHolds c bytes r.w (2 * pos) limit
  odd : r.odd = (pos % 2 == 1)
  out : r.out = (List.range pos).map (colorTriple c bytes)

theorem colorStart_at : ColorRunAt c bytes (colorStart c (byteAt bytes 0)) 0 14 := by
  refine ⟨?_, ?_, rfl⟩
  · rw [colorStart, Fixed.val_eq]
    exact colorHolds_seed
  · exact Fixed.val_eq c.oddInit

/-- The bleed and the merge of byte `n` add its dots to the window. -/
theorem colorHolds_load {w : BitVec 32} {n : Nat} (hn : 1 ≤ n) (hn' : n ≤ 40)
    (h : colorHolds c bytes w (14 * (n - 1)) (14 * n)) :
    colorHolds c bytes (bleedWindow (byteAt bytes n) w ||| ((dotpatC c (byteAt bytes n)).setWidth 32 <<< 1))
      (14 * (n - 1)) (14 * (n + 1)) := by
  obtain ⟨h14, hrest, h15⟩ := bleedWindow_bits hn hn' (byteAt bytes n) h
  exact colorHolds_merge hn hn' (h15 ▸ h14) fun m hm hne => (hrest m hm hne).trans (h m hm)

theorem colorLoad_at {r : ColorRun} {n : Nat} (hn : 1 ≤ n) (hn' : n ≤ 40)
    (h : ColorRunAt c bytes r (7 * (n - 1)) (14 * n)) :
    ColorRunAt c bytes (colorLoad c (byteAt bytes n) r) (7 * (n - 1)) (14 * (n + 1)) := by
  obtain ⟨hw, hodd, hout⟩ := h
  have hstart : 2 * (7 * (n - 1)) = 14 * (n - 1) := by omega
  refine ⟨?_, hodd, hout⟩
  rw [hstart] at hw ⊢
  rw [colorLoad, Fixed.val_eq]
  exact colorHolds_load hn hn' hw

theorem colorGroup_at {r : ColorRun} {pos limit : Nat} (h : ColorRunAt c bytes r pos limit) (hlo : 2 * pos + 4 < limit)
    (hhi : limit ≤ 2 * pos + 29) : ColorRunAt c bytes (colorGroup c r) (pos + 1) limit := by
  obtain ⟨hw, hodd, hout⟩ := h
  refine ⟨colorHolds_shift hw hhi, ?_, ?_⟩
  · exact not_odd_eq (n := pos + 1) hodd (by omega)
  · rw [List.range_succ, List.map_append, List.map_singleton, ← hout, ← clut_cidx hw hlo hodd]
    rfl

theorem colorGroups_at {r : ColorRun} {n k : Nat} (hn : 1 ≤ n) (hk : k ≤ 7)
    (h : ColorRunAt c bytes r (7 * (n - 1)) (14 * (n + 1))) :
    ColorRunAt c bytes (colorGroups c k r) (7 * (n - 1) + k) (14 * (n + 1)) := by
  induction k with
  | zero => exact h
  | succ k ih =>
    have hgroup := colorGroup_at (ih (by omega)) (by omega) (by omega)
    rwa [Nat.add_assoc] at hgroup

/-- A round consumes one byte. -/
theorem colorRound_at {r : ColorRun} {n : Nat} (hn : 1 ≤ n) (hn' : n ≤ 40)
    (h : ColorRunAt c bytes r (7 * (n - 1)) (14 * n)) :
    ColorRunAt c bytes (colorRound c r (byteAt bytes n)) (7 * n) (14 * (n + 1)) := by
  have hgroups := colorGroups_at hn le_rfl (colorLoad_at hn hn' h)
  rwa [show 7 * (n - 1) + 7 = 7 * n by omega] at hgroups

/-- The rounds over the bytes from `n` on. -/
theorem colorRounds_at {xs : List Byte} {r : ColorRun} {n : Nat} (hn : 1 ≤ n) (hlen : n + xs.length ≤ 41)
    (hxs : ∀ k < xs.length, xs[k]? = some (byteAt bytes (n + k)))
    (h : ColorRunAt c bytes r (7 * (n - 1)) (14 * n)) :
    ColorRunAt c bytes (xs.foldl (colorRound c) r) (7 * (n + xs.length - 1)) (14 * (n + xs.length)) := by
  induction xs generalizing r n with
  | nil => exact h
  | cons b xs ih =>
    rw [List.length_cons] at hlen
    obtain rfl : b = byteAt bytes n := Option.some.inj (hxs 0 (Nat.zero_lt_succ _))
    have hrest := ih (r := colorRound c r (byteAt bytes n)) (n := n + 1) (by omega) (by omega)
      (fun k hk => by
        rw [Nat.add_assoc, Nat.add_comm 1 k]
        exact hxs (k + 1) (Nat.succ_lt_succ hk))
      (colorRound_at hn (by omega) h)
    rw [List.length_cons, ← Nat.add_assoc, Nat.add_right_comm]
    exact hrest

/-- The bytes with the synthetic one at their end. -/
theorem getElem?_append_synthetic {xs : List Byte} {k : Nat} (hk : k ≤ xs.length) :
    (xs ++ [0x00])[k]? = some (xs.getD k 0) := by
  rcases hk.lt_or_eq with hk | rfl
  · rw [List.getElem?_append_left hk]
    simp [hk]
  · simp

/-- Settles O54: the seed, then 40 rounds over bytes 1 to 39 and the synthetic byte. -/
theorem colorLineHasItsClosedForm : Obligations.ColorLineHasItsClosedForm := by
  intro c bytes hlen
  cases bytes with
  | nil => cases hlen
  | cons b0 rest =>
    have hrest : rest.length = 39 := Nat.succ.inj hlen
    have hbytes : ∀ k < (rest ++ [0x00]).length, (rest ++ [0x00])[k]? = some (byteAt (b0 :: rest) (1 + k)) := by
      intro k hk
      rw [Nat.add_comm 1 k]
      exact getElem?_append_synthetic (Nat.lt_succ_iff.mp (by simpa using hk))
    have hrun := colorRounds_at (c := c) (bytes := b0 :: rest) le_rfl (by simp [hrest]) hbytes colorStart_at
    rw [List.length_append, hrest] at hrun
    exact hrun.out

/-! ## The mono line (R218) -/

/-- A run of `RenderMonoLine` that has put out `pos` triples: its accumulator holds the stream from the next pair on,
as far as the bytes it has loaded. -/
structure MonoRunAt (c : Config) (bytes : List Byte) (r : MonoRun) (pos : Nat) : Prop where
  window : monoHolds c bytes r.w (2 * pos) r.dotc
  bound : r.w.toNat < 2 ^ r.dotc
  loaded : 2 * pos + r.dotc = 14 * r.i
  last : r.dotc = 0 → 0 < pos → r.last = monoDot c bytes (2 * pos - 1)
  out : r.out = (List.range pos).map (monoTriple c bytes)

/-- The registers before a load: the accumulator is empty, or holds the even byte of a pair. -/
def MonoReady (c : Config) (r : MonoRun) : Prop :=
  r.i < 40 ∧ r.dotc = if c.monoLoadLimit ≥ 14 ∧ r.i % 2 = 1 then 14 else 0

/-- The load loop injects as `M_INJECT` does, and merges. -/
theorem monoLoad_w {r : MonoRun} (b : Byte) (hd : r.dotc < 64) (hi : r.i < 64) :
    (monoLoad c b r).w = injectWindow c.monoBleedMode b r.w (BitVec.ofNat 6 r.dotc) (BitVec.ofNat 6 r.i) r.last |||
      ((dotpatM c b).setWidth 32 <<< r.dotc) := by
  simp only [monoLoad, injectWindow, BitVec.toNat_ofNat, Nat.mod_eq_of_lt hd, Nat.mod_eq_of_lt hi]

theorem monoLoad_at {r : MonoRun} {pos : Nat} (hc : c.wf = true) (hr : MonoReady c r) (h : MonoRunAt c bytes r pos) :
    MonoRunAt c bytes (monoLoad c (byteAt bytes r.i) r) pos := by
  obtain ⟨hi, hd⟩ := hr
  obtain ⟨hw, hbound, hloaded, hlast, hout⟩ := h
  have hd14 : r.dotc ≤ 14 := by split_ifs at hd <;> omega
  have hdN : (BitVec.ofNat 6 r.dotc).toNat = r.dotc := Nat.mod_eq_of_lt (by omega)
  have hiN : (BitVec.ofNat 6 r.i).toNat = r.i := Nat.mod_eq_of_lt (by omega)
  have hstart : 14 * r.i - r.dotc = 2 * pos := by omega
  obtain ⟨hbelow, habove, hbit⟩ := injectWindow_bits (c := c) (bytes := bytes) (w := r.w) (b := byteAt bytes r.i)
    (dotc := BitVec.ofNat 6 r.dotc) (i := BitVec.ofNat 6 r.i) (last := r.last) (Config.wf_bounds hc).2
    (by rw [hdN, hiN]; exact hd) (by rw [hdN]; exact hbound) (by rw [hdN, hiN, hstart]; exact hw)
    (by
      rw [hdN, hiN]
      intro h0 hpos
      rw [show 14 * r.i - 1 = 2 * pos - 1 by omega]
      exact hlast h0 (by omega))
  rw [hdN] at hbelow habove hbit
  rw [hiN] at hbit
  obtain ⟨hmerge, hlt⟩ := monoHolds_merge hd14 (by omega) habove
    (hstart ▸ fun m hm => (hbelow m hm).trans (hw m hm)) hbit
  rw [hstart, ← monoLoad_w _ (by omega) (by omega)] at hmerge
  rw [← monoLoad_w _ (by omega) (by omega)] at hlt
  refine ⟨hmerge, hlt, ?_, fun h0 => absurd h0 (Nat.succ_ne_zero _), hout⟩
  change 2 * pos + (r.dotc + 14) = 14 * (r.i + 1)
  omega

/-- The load loop takes the next byte while the limit allows it. -/
theorem monoLoads_of_le {r : MonoRun} (hi : r.i < bytes.length) (hd : r.dotc ≤ c.monoLoadLimit) :
    monoLoads c (bytes.drop r.i) r = monoLoads c (bytes.drop (r.i + 1)) (monoLoad c (byteAt bytes r.i) r) := by
  have hbyte : bytes[r.i] = byteAt bytes r.i := by simp [byteAt, hi]
  rw [List.drop_eq_getElem_cons hi, monoLoads, if_pos hd, hbyte]

/-- The load loop ends above the limit. -/
theorem monoLoads_of_lt (xs : List Byte) {r : MonoRun} (hd : c.monoLoadLimit < r.dotc) :
    monoLoads c xs r = (xs, r) := by
  cases xs with
  | nil => rfl
  | cons b xs => rw [monoLoads, if_neg (Nat.not_le.mpr hd)]

/-- The load loop from an empty accumulator takes a pair of bytes, or one byte where the limit allows no second. -/
theorem monoLoads_at {r : MonoRun} {pos : Nat} (hc : c.wf = true) (hlen : bytes.length = 40) (hd : r.dotc = 0)
    (hi : r.i < 40) (hpair : c.monoLoadLimit ≥ 14 → r.i % 2 = 0) (h : MonoRunAt c bytes r pos) :
    ∃ r', monoLoads c (bytes.drop r.i) r = (bytes.drop r'.i, r') ∧ MonoRunAt c bytes r' pos ∧ r.i < r'.i ∧
      r'.i ≤ 40 ∧ r'.dotc % 2 = 0 ∧ (c.monoLoadLimit ≥ 14 → r'.i % 2 = 0) := by
  have hlimit := (Config.wf_bounds hc).2
  have h1 := monoLoad_at hc ⟨hi, by rw [hd, if_neg fun e => absurd (hpair e.1) (by omega)]⟩ h
  have hd1 : (monoLoad c (byteAt bytes r.i) r).dotc = 14 := congrArg (· + 14) hd
  have hi1 : (monoLoad c (byteAt bytes r.i) r).i = r.i + 1 := rfl
  rw [monoLoads_of_le (by omega) (by omega), ← hi1]
  generalize monoLoad c (byteAt bytes r.i) r = r1 at *
  by_cases hl : c.monoLoadLimit ≥ 14
  · have heven := hpair hl
    have h2 := monoLoad_at hc ⟨by omega, by rw [hd1, if_pos ⟨hl, by omega⟩]⟩ h1
    have hd2 : (monoLoad c (byteAt bytes r1.i) r1).dotc = 28 := congrArg (· + 14) hd1
    have hi2 : (monoLoad c (byteAt bytes r1.i) r1).i = r1.i + 1 := rfl
    rw [monoLoads_of_le (by omega) (by omega), monoLoads_of_lt _ (by omega), ← hi2]
    exact ⟨_, rfl, h2, by omega, by omega, by omega, fun _ => by omega⟩
  · rw [monoLoads_of_lt _ (by omega)]
    exact ⟨_, rfl, h1, by omega, by omega, by omega, fun e => absurd e hl⟩

theorem monoDrain_at {r : MonoRun} {pos : Nat} (hd : 2 ≤ r.dotc) (h : MonoRunAt c bytes r pos) :
    MonoRunAt c bytes (monoDrain c r) (pos + 1) := by
  obtain ⟨hw, hbound, hloaded, -, hout⟩ := h
  refine ⟨monoHolds_drain hw, drainWindow_lt hbound hd, ?_, fun _ _ => hw 1 (by omega), ?_⟩
  · change 2 * (pos + 1) + (r.dotc - 2) = 14 * r.i
    omega
  · rw [List.range_succ, List.map_append, List.map_singleton, ← hout, ← mlut_midx hw hd]
    rfl

/-- The drain loop empties an accumulator of pairs. -/
theorem monoDrains_at {r : MonoRun} {pos n : Nat} (hn : r.dotc ≤ n) (heven : r.dotc % 2 = 0)
    (h : MonoRunAt c bytes r pos) :
    (monoDrains c n r).dotc = 0 ∧ (monoDrains c n r).i = r.i ∧ MonoRunAt c bytes (monoDrains c n r) (7 * r.i) := by
  induction n generalizing r pos with
  | zero =>
    have hd : r.dotc = 0 := Nat.le_zero.mp hn
    have hpos : pos = 7 * r.i := by have := h.loaded; omega
    exact ⟨hd, rfl, hpos ▸ h⟩
  | succ n ih =>
    rw [monoDrains]
    split_ifs with hd
    · exact ih (r := monoDrain c r) (by change r.dotc - 2 ≤ n; omega) (by change (r.dotc - 2) % 2 = 0; omega)
        (monoDrain_at hd h)
    · have hd : r.dotc = 0 := by omega
      have hpos : pos = 7 * r.i := by have := h.loaded; omega
      exact ⟨hd, rfl, hpos ▸ h⟩

/-- The loop from byte `r.i` on puts out the rest of the line. -/
theorem monoLoop_eq {r : MonoRun} {n : Nat} (hc : c.wf = true) (hlen : bytes.length = 40) (hn : 40 - r.i ≤ n)
    (hd : r.dotc = 0) (hi : r.i < 40) (hpair : c.monoLoadLimit ≥ 14 → r.i % 2 = 0)
    (h : MonoRunAt c bytes r (7 * r.i)) :
    monoLoop c n (bytes.drop r.i) r = (List.range 280).map (monoTriple c bytes) := by
  induction n generalizing r with
  | zero => omega
  | succ n ih =>
    obtain ⟨r1, hloads, h1, hlt, hle, heven, hpair1⟩ := monoLoads_at hc hlen hd hi hpair h
    obtain ⟨hd2, hi2, h2⟩ := monoDrains_at le_rfl heven h1
    simp only [monoLoop, hloads]
    by_cases hlast : r1.i = 40
    · have hempty : (bytes.drop r1.i).isEmpty = true := by simp [hlen, hlast]
      rw [if_pos hempty, h2.out, hlast]
    · have hmore : ¬ (bytes.drop r1.i).isEmpty = true := by simp [hlen]; omega
      rw [if_neg hmore, ← hi2]
      exact ih (by omega) hd2 (by omega) (hi2.symm ▸ hpair1) (hi2.symm ▸ h2)

/-- Settles O55: the loop from byte 0 with an empty accumulator. -/
theorem monoLineHasItsClosedForm : Obligations.MonoLineHasItsClosedForm := by
  intro c bytes hc hlen
  have hstart : MonoRunAt c bytes ⟨0, 0, 0, false, []⟩ 0 :=
    ⟨fun m hm => absurd hm (Nat.not_lt_zero m), by decide, rfl, fun _ h => absurd h (Nat.lt_irrefl 0), rfl⟩
  exact monoLoop_eq (r := ⟨0, 0, 0, false, []⟩) hc hlen (by rw [hlen]; decide) rfl (by decide) (fun _ => rfl) hstart

/-! ## The two paths compared (R162 item 5, R221) -/

/-- Settles O56: dot by dot, the default mono pattern is the color pattern read backwards, and mode `EVERY` injects
the bit that the color path bleeds. -/
theorem everyModeMonoStreamIsTheColorStream : Obligations.EveryModeMonoStreamIsTheColorStream := by
  intro bytes t _ ht
  obtain ⟨n, m, hn, hm, rfl⟩ : ∃ n m, n < 40 ∧ m < 14 ∧ t = 14 * n + m :=
    ⟨t / 14, t % 14, by omega, by omega, by omega⟩
  have hC : ∀ b, dotpatC { defaultConfig with monoBleedMode := .every } b = defaultDotpatC b := dotpatC_default
  have hM : ∀ b, dotpatM { defaultConfig with monoBleedMode := .every } b = defaultDotpatM b := dotpatM_default
  rw [monoDot_byte hm, colorDot_byte hn.le hm, getLsbD_monoPattern, getLsbD_colorPattern (by omega)]
  have hinj : injects { defaultConfig with monoBleedMode := .every } n = decide (n ≠ 0) := by
    simp [injects, Nat.one_le_iff_ne_zero]
  have hfirst : decide (13 - m = 13) = decide (m = 0) := by
    rw [decide_eq_decide]
    omega
  rw [hC, hC, hM, hM, getLsbD_defaultDotpatM _ hm, getLsbD_defaultDotpatM _ (by decide), hinj, hfirst]
  cases decide (m = 0) <;> cases decide (n ≠ 0) <;> simp

/-- With the identity table a color output has symbols below 512. -/
theorem colorTriple_lt (h : c.clut = clutId) (n : Nat) : (colorTriple c bytes n).s0 < 512 := by
  rw [colorTriple, clut, h, clutId_get]
  exact Fin.isLt _

/-- With the identity table a mono output has symbols from 512 on. -/
theorem monoTriple_ge (h : c.mlut = mlutId) (n : Nat) : 512 ≤ (monoTriple c bytes n).s0 := by
  rw [monoTriple, mlut, h, mlutId_get]
  exact Nat.le_add_right _ _

/-- The reference line on either path, by its closed form. -/
theorem renderLine_eq (hc : c.wf = true) (hlen : bytes.length = 40) (mono : Bool) :
    renderLine c mono bytes = (List.range 280).map (lineTriple c mono bytes) := by
  cases mono with
  | true => exact monoLineHasItsClosedForm c bytes hc hlen
  | false => exact colorLineHasItsClosedForm c bytes hlen

theorem renderLine_getElem? (hc : c.wf = true) (hlen : bytes.length = 40) (mono : Bool) {n : Nat} (hn : n < 280) :
    (renderLine c mono bytes)[n]? = some (lineTriple c mono bytes n) := by
  rw [renderLine_eq hc hlen, List.getElem?_map, List.getElem?_range hn, Option.map_some]

/-- Settles O57: at every position the mono symbol is 512 or more and the color symbol is below. -/
theorem modeSwitchChangesEveryTriple : Obligations.ModeSwitchChangesEveryTriple := by
  intro c bytes n hc hclut hmlut hlen hn heq
  rw [renderLine_getElem? hc hlen true hn, renderLine_getElem? hc hlen false hn] at heq
  have hge := monoTriple_ge (bytes := bytes) hmlut n
  have hlt := colorTriple_lt (bytes := bytes) hclut n
  have heq : monoTriple c bytes n = colorTriple c bytes n := Option.some.inj heq
  exact absurd (heq ▸ hge) (Nat.not_le.mpr hlt)

/-! ## The submit (R219) -/

/-- The bytes read in order that still stand in the bitmap are the bitmap's bytes. -/
theorem lineReads_eq_bitmap {s : State} (hst : holding s.st = true) (hlen : (lineReads s.history).length = 40)
    (hO : ReadsInOrder s) (hC : ReadsAreCurrent s) :
    lineReads s.history = (List.range 40).map (fun x => s.bitmap.read (s.psel.toNat * 8192 + (s.ofs.toNat + x))) := by
  have horder := hO hst
  rw [← lineReads_length, hlen] at horder
  calc lineReads s.history
      = (lineReadEvents s.history).map (fun r => s.bitmap.read (cellAddr r.1 r.2.1)) :=
        List.map_congr_left fun r hr => hC hst r hr
    _ = ((lineReadEvents s.history).map (fun r => (r.1, r.2.1))).map (fun p => s.bitmap.read (cellAddr p.1 p.2)) := by
        rw [List.map_map]
        rfl
    _ = _ := by
        rw [horder, List.map_map]
        rfl

/-- A triple of a buffer, channel by channel. -/
theorem channels_of_tripleAt {l : LineBuf} {n : Nat} {tr : Triple} (hn : n < 280) (h : l.tripleAt n = tr) :
    l.ch0[n]? = some tr.s0 ∧ l.ch1[n]? = some tr.s1 ∧ l.ch2[n]? = some tr.s2 := by
  subst h
  simp [LineBuf.tripleAt, hn]

/-- Settles O53: the held buffer's 280 triples are the line's outputs (`Written`), which are the reference line's by its
closed form. -/
theorem submitCarriesTheReferenceLine : Obligations.SubmitCarriesTheReferenceLine := by
  intro s hI hL hst
  have hp := hI.pathRegs
  simp only [PathRegs, hst] at hp
  simp only [LineData, hst] at hL
  obtain ⟨hlen, hW⟩ := hL
  have hs : holding s.st = true := by rw [hst]; rfl
  have hrender := renderLine_eq hI.cfgWf hlen s.monoL
  obtain ⟨t, ht⟩ : ∃ t, rendererStep s = .next t := everyInstructionAnswersANextState _ s
  obtain ⟨l, hl, rfl⟩ := lSubmit_step hI hst ht
  refine ⟨_, l, ht, rfl, hlen, ?_, fun n hn => ⟨_, renderLine_getElem? hI.cfgWf hlen s.monoL hn, ?_⟩,
    lineReads_eq_bitmap hs hlen⟩
  · rw [hrender, List.length_map, List.length_range]
  · exact channels_of_tripleAt hn (hW l hl n (by rw [hp.1]; exact hn))

end Sys2Proof.Machine
end
